-- ==== Sys2Proof/Word.lean ====
section
/-! DEFINITION. The word types of FWMAU-1 (spec 00_scope.md R6, R8; 10_state.md R20, R33).
Only the types stand here. The arithmetic on them is in Machine/Operands.lean. -/

namespace Sys2Proof

/-- A byte of the byte memory M: "a byte is 8 bits" (10_state.md R33). -/
abbrev Byte := BitVec 8

/-- The contents of a word register: XLEN = 64 bits (00_scope.md R6, 10_state.md R20). -/
abbrev Word := BitVec 64

/-- A command word, a control register, or one field of a buffer descriptor: 32 bits
(30_encoding.md R70, 10_state.md R23 and R27). -/
abbrev Word32 := BitVec 32

end Sys2Proof
end

