-- ==== Sys2Proof/Syntax.lean ====
section
/-! DEFINITION. The commands of FWMAU-1, one constructor for each of the 59 rows of 30_encoding.md R78.
A register or descriptor field is a 4-bit index (R73, R80), so it is a number below 16 by its type. The quarter
`pos` and the CSR number are plain numbers here, and WellFormed.lean says which of them an encoding can hold. -/

namespace Sys2Proof

/-- The index of a word register w0 … w15 (10_state.md R20). -/
abbrev WReg := Fin 16

/-- The index of a buffer descriptor b0 … b15 (10_state.md R23). -/
abbrev BReg := Fin 16

/-- One command of FWMAU-1 with its operand fields. A term list is "a 16-bit set" (30_encoding.md R74), so it
is a bit vector. -/
inductive Instr where
  /-- NOP, opcode 0x00: no operation (46_system.md R230). -/
  | nop
  /-- HALT, opcode 0x01: end of program (46_system.md R231). -/
  | halt
  /-- LDIZ, opcode 0x02: load a 16-bit immediate into quarter `pos`, zero the rest (46_system.md R232). -/
  | ldiz (rd : WReg) (pos : Nat) (imm16 : BitVec 16)
  /-- LDIK, opcode 0x02: load a 16-bit immediate into quarter `pos`, keep the rest (46_system.md R233). -/
  | ldik (rd : WReg) (pos : Nat) (imm16 : BitVec 16)
  /-- MOV, opcode 0x03: copy a word register (46_system.md R234). -/
  | mov (rd : WReg) (rs : WReg)
  /-- SETB, opcode 0x04: write a buffer descriptor (46_system.md R235). -/
  | setb (bd : BReg) (rs : WReg) (rt : WReg)
  /-- CSRR, opcode 0x05: read a control and status register (46_system.md R236). -/
  | csrr (rd : WReg) (csr : Nat)
  /-- CSRW, opcode 0x06: write a control and status register (46_system.md R237). -/
  | csrw (rs : WReg) (csr : Nat)
  /-- ROL16, opcode 0x10: rol at W=16 (41_wordarith.md R101). -/
  | rol16 (rd : WReg) (rs : WReg) (rc : WReg)
  /-- ROR16, opcode 0x11: ror at W=16 (41_wordarith.md R102). -/
  | ror16 (rd : WReg) (rs : WReg) (rc : WReg)
  /-- ROL24, opcode 0x12: rol at W=24 (41_wordarith.md R103). -/
  | rol24 (rd : WReg) (rs : WReg) (rc : WReg)
  /-- ROR24, opcode 0x13: ror at W=24 (41_wordarith.md R104). -/
  | ror24 (rd : WReg) (rs : WReg) (rc : WReg)
  /-- ROL32, opcode 0x14: rol at W=32 (41_wordarith.md R105). -/
  | rol32 (rd : WReg) (rs : WReg) (rc : WReg)
  /-- ROR32, opcode 0x15: ror at W=32 (41_wordarith.md R106). -/
  | ror32 (rd : WReg) (rs : WReg) (rc : WReg)
  /-- ADD32, opcode 0x16: add(…terms) (41_wordarith.md R107). -/
  | add32 (rd : WReg) (list : BitVec 16)
  /-- SUB32, opcode 0x17: sub(a,b) (41_wordarith.md R108). -/
  | sub32 (rd : WReg) (rs : WReg) (rt : WReg)
  /-- MUL32, opcode 0x18: mul(a,b) (41_wordarith.md R109). -/
  | mul32 (rd : WReg) (rs : WReg) (rt : WReg)
  /-- PAR8, opcode 0x19: parity8 (41_wordarith.md R110). -/
  | par8 (rd : WReg) (rs : WReg)
  /-- PAR32, opcode 0x1A: parity32 (41_wordarith.md R111). -/
  | par32 (rd : WReg) (rs : WReg)
  /-- ADD64, opcode 0x20: add64 (42_widearith.md R121). -/
  | add64 (rd : WReg) (list : BitVec 16)
  /-- SUB64, opcode 0x21: sub64 (42_widearith.md R122). -/
  | sub64 (rd : WReg) (rs : WReg) (rt : WReg)
  /-- AND64, opcode 0x22: and64 (42_widearith.md R123). -/
  | and64 (rd : WReg) (list : BitVec 16)
  /-- OR64, opcode 0x23: or64 (42_widearith.md R124). -/
  | or64 (rd : WReg) (list : BitVec 16)
  /-- XOR64, opcode 0x24: xor64 (42_widearith.md R125). -/
  | xor64 (rd : WReg) (list : BitVec 16)
  /-- NOT64, opcode 0x25: not64 (42_widearith.md R126). -/
  | not64 (rd : WReg) (rs : WReg)
  /-- MUL64, opcode 0x26: mul64 (42_widearith.md R127). -/
  | mul64 (rd : WReg) (rs : WReg) (rt : WReg)
  /-- ROL64, opcode 0x27: rol64 (42_widearith.md R128). -/
  | rol64 (rd : WReg) (rs : WReg) (rc : WReg)
  /-- ROR64, opcode 0x28: ror64 (42_widearith.md R129). -/
  | ror64 (rd : WReg) (rs : WReg) (rc : WReg)
  /-- SHL64, opcode 0x29: shl64 (42_widearith.md R130). -/
  | shl64 (rd : WReg) (rs : WReg) (rc : WReg)
  /-- SHR64, opcode 0x2A: shr64 (42_widearith.md R131). -/
  | shr64 (rd : WReg) (rs : WReg) (rc : WReg)
  /-- ROL48, opcode 0x2B: rol48 (42_widearith.md R132). -/
  | rol48 (rd : WReg) (rs : WReg) (rc : WReg)
  /-- ROR48, opcode 0x2C: ror48 (42_widearith.md R133). -/
  | ror48 (rd : WReg) (rs : WReg) (rc : WReg)
  /-- MINV32, opcode 0x2D: modInv32(a) (42_widearith.md R134). -/
  | minv32 (rd : WReg) (rs : WReg)
  /-- MINV64, opcode 0x2E: modInv64(a) (42_widearith.md R135). -/
  | minv64 (rd : WReg) (rs : WReg)
  /-- ADDB, opcode 0x40: addBytes(a, …bs) (43_bytearith.md R151). -/
  | addb (bd : BReg) (list : BitVec 16)
  /-- ADDBS, opcode 0x41: addBytesSmall(a, small) (43_bytearith.md R152). -/
  | addbs (bd : BReg) (rs : WReg)
  /-- SUBB, opcode 0x42: subBytes(a,b) (43_bytearith.md R153). -/
  | subb (bd : BReg) (bs : BReg)
  /-- MULB, opcode 0x43: mulBytes(a,b) (43_bytearith.md R154). -/
  | mulb (bd : BReg) (bs : BReg)
  /-- NOTB, opcode 0x44: notBytes (43_bytearith.md R155). -/
  | notb (bd : BReg) (bs : BReg)
  /-- XORB, opcode 0x45: xorBytes(dest, …terms) (43_bytearith.md R156). -/
  | xorb (bd : BReg) (list : BitVec 16)
  /-- ROLB, opcode 0x46: rolBytes(bytes,count) (43_bytearith.md R157). -/
  | rolb (bd : BReg) (rc : WReg)
  /-- RORB, opcode 0x47: rorBytes(bytes,count) (43_bytearith.md R158). -/
  | rorb (bd : BReg) (rc : WReg)
  /-- UNPK16BE, opcode 0x50: bytes to 16-bit words, BE (44_codec.md R171). -/
  | unpk16be (rd : WReg) (bs : BReg)
  /-- UNPK16LE, opcode 0x51: bytes to 16-bit words, LE (44_codec.md R172). -/
  | unpk16le (rd : WReg) (bs : BReg)
  /-- UNPK32BE, opcode 0x52: bytesToInt32sBE (44_codec.md R173). -/
  | unpk32be (rd : WReg) (bs : BReg)
  /-- UNPK32LE, opcode 0x53: bytesToInt32sLE (44_codec.md R174). -/
  | unpk32le (rd : WReg) (bs : BReg)
  /-- UNPK64BE, opcode 0x54: bytesToInt64sBE (44_codec.md R175). -/
  | unpk64be (rd : WReg) (bs : BReg)
  /-- UNPK64LE, opcode 0x55: bytes to 64-bit words, LE (44_codec.md R176). -/
  | unpk64le (rd : WReg) (bs : BReg)
  /-- PACK16BE, opcode 0x58: 16-bit words to bytes, BE (44_codec.md R178). -/
  | pack16be (bd : BReg) (rs : WReg)
  /-- PACK16LE, opcode 0x59: 16-bit words to bytes, LE (44_codec.md R179). -/
  | pack16le (bd : BReg) (rs : WReg)
  /-- PACK32BE, opcode 0x5A: int32sToBytesBE (44_codec.md R180). -/
  | pack32be (bd : BReg) (rs : WReg)
  /-- PACK32LE, opcode 0x5B: int32sToBytesLE (44_codec.md R181). -/
  | pack32le (bd : BReg) (rs : WReg)
  /-- PACK64BE, opcode 0x5C: int64sToBytesBE (44_codec.md R182). -/
  | pack64be (bd : BReg) (rs : WReg)
  /-- PACK64LE, opcode 0x5D: 64-bit words to bytes, LE (44_codec.md R183). -/
  | pack64le (bd : BReg) (rs : WReg)
  /-- SPLITLE, opcode 0x5E: splitBytesLE (44_codec.md R184). -/
  | splitle (bd : BReg) (bs : BReg) (rc : WReg)
  /-- COMBLE, opcode 0x5F: combineBytesLE (44_codec.md R185). -/
  | comble (bd : BReg) (bs : BReg) (rc : WReg)
  /-- TBLK, opcode 0x60: transformBlocks with the default padBlock (45_blockprocessor.md R206). -/
  | tblk (rx : WReg) (bs : BReg) (rt : WReg)
  /-- TBLKMD, opcode 0x61: transformBlocks with MdHashTransform.padBlock (45_blockprocessor.md R207). -/
  | tblkmd (rx : WReg) (bs : BReg) (rt : WReg)
  /-- TBLKBC, opcode 0x62: BlockCipherTransform.transformBlocks (45_blockprocessor.md R208). -/
  | tblkbc (rx : WReg) (bs : BReg) (rt : WReg)
  deriving DecidableEq, Repr

end Sys2Proof
end

