-- ==== Sys2Proof/WellFormed.lean ====
section
/-! DEFINITION. Which commands an encoding can hold. Register indices, term lists and immediates fit their fields
by their types. What is left to check is the quarter number of LDIZ and LDIK, "`pos` (0 … 3)" (30_encoding.md
R75), and the 12-bit register number of CSRR and CSRW (30_encoding.md R76). -/

namespace Sys2Proof

/-- `pos` fits the two bits 19:18 of format I (30_encoding.md R75). -/
def posFits (pos : Nat) : Bool := decide (pos < 4)

/-- `csr` fits the twelve bits 11:0 of format S (30_encoding.md R76). -/
def csrFits (csr : Nat) : Bool := decide (csr < 4096)

/-- The command has an encoding. "Every value 0 … 15 of a used field is legal" (R73), "Every 16-bit value of
`list` decodes" (R74), "Every 12-bit value decodes" (R76). -/
def Instr.wellFormed : Instr → Bool
  | .ldiz _ pos _ | .ldik _ pos _ => posFits pos
  | .csrr _ csr | .csrw _ csr => csrFits csr
  | .nop | .halt | .mov _ _ | .setb _ _ _ | .rol16 _ _ _ | .ror16 _ _ _ | .rol24 _ _ _ | .ror24 _ _ _
  | .rol32 _ _ _ | .ror32 _ _ _ | .add32 _ _ | .sub32 _ _ _ | .mul32 _ _ _ | .par8 _ _ | .par32 _ _
  | .add64 _ _ | .sub64 _ _ _ | .and64 _ _ | .or64 _ _ | .xor64 _ _ | .not64 _ _ | .mul64 _ _ _
  | .rol64 _ _ _ | .ror64 _ _ _ | .shl64 _ _ _ | .shr64 _ _ _ | .rol48 _ _ _ | .ror48 _ _ _
  | .minv32 _ _ | .minv64 _ _ | .addb _ _ | .addbs _ _ | .subb _ _ | .mulb _ _ | .notb _ _ | .xorb _ _
  | .rolb _ _ | .rorb _ _ | .unpk16be _ _ | .unpk16le _ _ | .unpk32be _ _ | .unpk32le _ _
  | .unpk64be _ _ | .unpk64le _ _ | .pack16be _ _ | .pack16le _ _ | .pack32be _ _ | .pack32le _ _
  | .pack64be _ _ | .pack64le _ _ | .splitle _ _ _ | .comble _ _ _ | .tblk _ _ _ | .tblkmd _ _ _
  | .tblkbc _ _ _ => true

/-- The command's fields fit its encoding. -/
abbrev Instr.WellFormed (i : Instr) : Prop := i.wellFormed = true

end Sys2Proof
end

