-- ==== Sys2Proof/Decode.lean ====
section
/-! DEFINITION. Command encoding (30_encoding.md): the decoder, total on every 32-bit word (R84), and the encoder.
Fields are written as 00_scope.md R8 writes them, `v[hi:lo]`, on the word as an unsigned integer. -/

namespace Sys2Proof

/-- The field `v[hi:lo]` of an integer, "both included, as an unsigned integer of hi − lo + 1 bits"
(00_scope.md R8). -/
def bits (v hi lo : Nat) : Nat := v / 2 ^ lo % 2 ^ (hi + 1 - lo)

/-- A 4-bit field as a register index: "the 4-bit value is the index, used as is" (30_encoding.md R80). -/
def regField (v hi : Nat) : Fin 16 := ⟨v / 2 ^ (hi - 3) % 16, Nat.mod_lt _ (by decide)⟩

/-- Operand field A, bits 23:20 (30_encoding.md R73). -/
def fieldA (x : Nat) : Fin 16 := regField x 23

/-- Operand field B, bits 19:16 (30_encoding.md R73). -/
def fieldB (x : Nat) : Fin 16 := regField x 19

/-- Operand field C, bits 15:12 (30_encoding.md R73). -/
def fieldC (x : Nat) : Fin 16 := regField x 15

/-- The 16-bit immediate or term list, bits 15:0 (30_encoding.md R74, R75). -/
def field16 (x : Nat) : BitVec 16 := BitVec.ofNat 16 (bits x 15 0)

/-- Why a word is no command (30_encoding.md R77, R79). Both reasons raise ILLEGAL_INSTRUCTION. -/
inductive DecodeError where
  /-- "Every opcode value not listed in rule R78 is unassigned" (R79). -/
  | unassignedOpcode (op : Nat)
  /-- A 1 in a bit that must be zero, or in an operand field the command does not use (R77). -/
  | reservedBits (op : Nat)
  deriving DecidableEq, Repr

/-- What decoding a word answers: exactly one command, or "illegal" (30_encoding.md R84). -/
abbrev Decoded := Except DecodeError Instr

/-- The command, if every must-be-zero position of the word holds 0 (30_encoding.md R77). -/
def ifZero (mustBeZero : Nat) (x : Nat) (i : Instr) : Decoded :=
  if mustBeZero = 0 then .ok i else .error (.reservedBits (bits x 31 24))

/-- Format N: bits 23:0 must be zero (30_encoding.md R72). -/
def formatN (x : Nat) (i : Instr) : Decoded := ifZero (bits x 23 0) x i

/-- Format R with A, B and C used: bits 11:0 must be zero (30_encoding.md R73). -/
def formatABC (x : Nat) (i : Fin 16 → Fin 16 → Fin 16 → Instr) : Decoded :=
  ifZero (bits x 11 0) x (i (fieldA x) (fieldB x) (fieldC x))

/-- Format R with A and B used: bits 15:0 must be zero (30_encoding.md R73, R77). -/
def formatAB (x : Nat) (i : Fin 16 → Fin 16 → Instr) : Decoded :=
  ifZero (bits x 15 0) x (i (fieldA x) (fieldB x))

/-- Format R with A and C used: bits 19:16 and 11:0 must be zero (30_encoding.md R73, R77). -/
def formatAC (x : Nat) (i : Fin 16 → Fin 16 → Instr) : Decoded :=
  ifZero (bits x 19 16 + bits x 11 0) x (i (fieldA x) (fieldC x))

/-- Format L: bits 19:16 must be zero, bits 15:0 are the term list (30_encoding.md R74). -/
def formatL (x : Nat) (i : Fin 16 → BitVec 16 → Instr) : Decoded :=
  ifZero (bits x 19 16) x (i (fieldA x) (field16 x))

/-- Format I: `pos` in bits 19:18, bit 17 chooses LDIZ (1) or LDIK (0), bit 16 must be zero
(30_encoding.md R75). -/
def formatI (x : Nat) : Decoded :=
  ifZero (bits x 16 16) x
    (if bits x 17 17 = 1 then .ldiz (fieldA x) (bits x 19 18) (field16 x)
     else .ldik (fieldA x) (bits x 19 18) (field16 x))

/-- Format S: bits 19:12 must be zero, bits 11:0 are the CSR number (30_encoding.md R76). -/
def formatS (x : Nat) (i : Fin 16 → Nat → Instr) : Decoded :=
  ifZero (bits x 19 12) x (i (fieldA x) (bits x 11 0))

/-- The opcode map of 30_encoding.md R78, on the word as an integer. -/
def decodeNat (x : Nat) : Decoded :=
  match bits x 31 24 with
  | 0x00 => formatN x .nop
  | 0x01 => formatN x .halt
  | 0x02 => formatI x
  | 0x03 => formatAB x .mov
  | 0x04 => formatABC x .setb
  | 0x05 => formatS x .csrr
  | 0x06 => formatS x .csrw
  | 0x10 => formatABC x .rol16
  | 0x11 => formatABC x .ror16
  | 0x12 => formatABC x .rol24
  | 0x13 => formatABC x .ror24
  | 0x14 => formatABC x .rol32
  | 0x15 => formatABC x .ror32
  | 0x16 => formatL x .add32
  | 0x17 => formatABC x .sub32
  | 0x18 => formatABC x .mul32
  | 0x19 => formatAB x .par8
  | 0x1A => formatAB x .par32
  | 0x20 => formatL x .add64
  | 0x21 => formatABC x .sub64
  | 0x22 => formatL x .and64
  | 0x23 => formatL x .or64
  | 0x24 => formatL x .xor64
  | 0x25 => formatAB x .not64
  | 0x26 => formatABC x .mul64
  | 0x27 => formatABC x .rol64
  | 0x28 => formatABC x .ror64
  | 0x29 => formatABC x .shl64
  | 0x2A => formatABC x .shr64
  | 0x2B => formatABC x .rol48
  | 0x2C => formatABC x .ror48
  | 0x2D => formatAB x .minv32
  | 0x2E => formatAB x .minv64
  | 0x40 => formatL x .addb
  | 0x41 => formatAB x .addbs
  | 0x42 => formatAB x .subb
  | 0x43 => formatAB x .mulb
  | 0x44 => formatAB x .notb
  | 0x45 => formatL x .xorb
  | 0x46 => formatAC x .rolb
  | 0x47 => formatAC x .rorb
  | 0x50 => formatAB x .unpk16be
  | 0x51 => formatAB x .unpk16le
  | 0x52 => formatAB x .unpk32be
  | 0x53 => formatAB x .unpk32le
  | 0x54 => formatAB x .unpk64be
  | 0x55 => formatAB x .unpk64le
  | 0x58 => formatAB x .pack16be
  | 0x59 => formatAB x .pack16le
  | 0x5A => formatAB x .pack32be
  | 0x5B => formatAB x .pack32le
  | 0x5C => formatAB x .pack64be
  | 0x5D => formatAB x .pack64le
  | 0x5E => formatABC x .splitle
  | 0x5F => formatABC x .comble
  | 0x60 => formatABC x .tblk
  | 0x61 => formatABC x .tblkmd
  | 0x62 => formatABC x .tblkbc
  | op => .error (.unassignedOpcode op)

/-- The decoder. "Decoding reads nothing but the word" (30_encoding.md R84). -/
def decode (x : Word32) : Decoded := decodeNat x.toNat

/-- The word of a format N command (30_encoding.md R72). -/
def wordN (op : Nat) : Nat := op * 2 ^ 24

/-- `op·2^24 + A·2^20 + B·2^16 + C·2^12` (30_encoding.md R82, format R). -/
def wordR (op : Nat) (a b c : Fin 16) : Nat :=
  op * 2 ^ 24 + a.val * 2 ^ 20 + b.val * 2 ^ 16 + c.val * 2 ^ 12

/-- `op·2^24 + A·2^20 + list` (30_encoding.md R82, format L). -/
def wordL (op : Nat) (a : Fin 16) (list : BitVec 16) : Nat :=
  op * 2 ^ 24 + a.val * 2 ^ 20 + list.toNat

/-- `0x02·2^24 + rd·2^20 + pos·2^18 + z·2^17 + imm16` (30_encoding.md R82, format I). -/
def wordI (rd : Fin 16) (pos z : Nat) (imm16 : BitVec 16) : Nat :=
  0x02 * 2 ^ 24 + rd.val * 2 ^ 20 + pos * 2 ^ 18 + z * 2 ^ 17 + imm16.toNat

/-- `op·2^24 + A·2^20 + csr` (30_encoding.md R82, format S). -/
def wordS (op : Nat) (a : Fin 16) (csr : Nat) : Nat :=
  op * 2 ^ 24 + a.val * 2 ^ 20 + csr

/-- The word of a command as an integer (30_encoding.md R78 and R82). -/
def encodeNat : Instr → Nat
  | .nop => wordN 0x00
  | .halt => wordN 0x01
  | .ldiz rd pos imm16 => wordI rd pos 1 imm16
  | .ldik rd pos imm16 => wordI rd pos 0 imm16
  | .mov rd rs => wordR 0x03 rd rs 0
  | .setb bd rs rt => wordR 0x04 bd rs rt
  | .csrr rd csr => wordS 0x05 rd csr
  | .csrw rs csr => wordS 0x06 rs csr
  | .rol16 rd rs rc => wordR 0x10 rd rs rc
  | .ror16 rd rs rc => wordR 0x11 rd rs rc
  | .rol24 rd rs rc => wordR 0x12 rd rs rc
  | .ror24 rd rs rc => wordR 0x13 rd rs rc
  | .rol32 rd rs rc => wordR 0x14 rd rs rc
  | .ror32 rd rs rc => wordR 0x15 rd rs rc
  | .add32 rd list => wordL 0x16 rd list
  | .sub32 rd rs rt => wordR 0x17 rd rs rt
  | .mul32 rd rs rt => wordR 0x18 rd rs rt
  | .par8 rd rs => wordR 0x19 rd rs 0
  | .par32 rd rs => wordR 0x1A rd rs 0
  | .add64 rd list => wordL 0x20 rd list
  | .sub64 rd rs rt => wordR 0x21 rd rs rt
  | .and64 rd list => wordL 0x22 rd list
  | .or64 rd list => wordL 0x23 rd list
  | .xor64 rd list => wordL 0x24 rd list
  | .not64 rd rs => wordR 0x25 rd rs 0
  | .mul64 rd rs rt => wordR 0x26 rd rs rt
  | .rol64 rd rs rc => wordR 0x27 rd rs rc
  | .ror64 rd rs rc => wordR 0x28 rd rs rc
  | .shl64 rd rs rc => wordR 0x29 rd rs rc
  | .shr64 rd rs rc => wordR 0x2A rd rs rc
  | .rol48 rd rs rc => wordR 0x2B rd rs rc
  | .ror48 rd rs rc => wordR 0x2C rd rs rc
  | .minv32 rd rs => wordR 0x2D rd rs 0
  | .minv64 rd rs => wordR 0x2E rd rs 0
  | .addb bd list => wordL 0x40 bd list
  | .addbs bd rs => wordR 0x41 bd rs 0
  | .subb bd bs => wordR 0x42 bd bs 0
  | .mulb bd bs => wordR 0x43 bd bs 0
  | .notb bd bs => wordR 0x44 bd bs 0
  | .xorb bd list => wordL 0x45 bd list
  | .rolb bd rc => wordR 0x46 bd 0 rc
  | .rorb bd rc => wordR 0x47 bd 0 rc
  | .unpk16be rd bs => wordR 0x50 rd bs 0
  | .unpk16le rd bs => wordR 0x51 rd bs 0
  | .unpk32be rd bs => wordR 0x52 rd bs 0
  | .unpk32le rd bs => wordR 0x53 rd bs 0
  | .unpk64be rd bs => wordR 0x54 rd bs 0
  | .unpk64le rd bs => wordR 0x55 rd bs 0
  | .pack16be bd rs => wordR 0x58 bd rs 0
  | .pack16le bd rs => wordR 0x59 bd rs 0
  | .pack32be bd rs => wordR 0x5A bd rs 0
  | .pack32le bd rs => wordR 0x5B bd rs 0
  | .pack64be bd rs => wordR 0x5C bd rs 0
  | .pack64le bd rs => wordR 0x5D bd rs 0
  | .splitle bd bs rc => wordR 0x5E bd bs rc
  | .comble bd bs rc => wordR 0x5F bd bs rc
  | .tblk rx bs rt => wordR 0x60 rx bs rt
  | .tblkmd rx bs rt => wordR 0x61 rx bs rt
  | .tblkbc rx bs rt => wordR 0x62 rx bs rt

/-- The encoder: the command word of a well-formed command. -/
def encode (i : Instr) : Word32 := BitVec.ofNat 32 (encodeNat i)

/-- The `match` column of the command's row of 30_encoding.md R78. -/
def rowMatch : Instr → Word32
  | .nop => 0x00000000#32
  | .halt => 0x01000000#32
  | .ldiz _ _ _ => 0x02020000#32
  | .ldik _ _ _ => 0x02000000#32
  | .mov _ _ => 0x03000000#32
  | .setb _ _ _ => 0x04000000#32
  | .csrr _ _ => 0x05000000#32
  | .csrw _ _ => 0x06000000#32
  | .rol16 _ _ _ => 0x10000000#32
  | .ror16 _ _ _ => 0x11000000#32
  | .rol24 _ _ _ => 0x12000000#32
  | .ror24 _ _ _ => 0x13000000#32
  | .rol32 _ _ _ => 0x14000000#32
  | .ror32 _ _ _ => 0x15000000#32
  | .add32 _ _ => 0x16000000#32
  | .sub32 _ _ _ => 0x17000000#32
  | .mul32 _ _ _ => 0x18000000#32
  | .par8 _ _ => 0x19000000#32
  | .par32 _ _ => 0x1A000000#32
  | .add64 _ _ => 0x20000000#32
  | .sub64 _ _ _ => 0x21000000#32
  | .and64 _ _ => 0x22000000#32
  | .or64 _ _ => 0x23000000#32
  | .xor64 _ _ => 0x24000000#32
  | .not64 _ _ => 0x25000000#32
  | .mul64 _ _ _ => 0x26000000#32
  | .rol64 _ _ _ => 0x27000000#32
  | .ror64 _ _ _ => 0x28000000#32
  | .shl64 _ _ _ => 0x29000000#32
  | .shr64 _ _ _ => 0x2A000000#32
  | .rol48 _ _ _ => 0x2B000000#32
  | .ror48 _ _ _ => 0x2C000000#32
  | .minv32 _ _ => 0x2D000000#32
  | .minv64 _ _ => 0x2E000000#32
  | .addb _ _ => 0x40000000#32
  | .addbs _ _ => 0x41000000#32
  | .subb _ _ => 0x42000000#32
  | .mulb _ _ => 0x43000000#32
  | .notb _ _ => 0x44000000#32
  | .xorb _ _ => 0x45000000#32
  | .rolb _ _ => 0x46000000#32
  | .rorb _ _ => 0x47000000#32
  | .unpk16be _ _ => 0x50000000#32
  | .unpk16le _ _ => 0x51000000#32
  | .unpk32be _ _ => 0x52000000#32
  | .unpk32le _ _ => 0x53000000#32
  | .unpk64be _ _ => 0x54000000#32
  | .unpk64le _ _ => 0x55000000#32
  | .pack16be _ _ => 0x58000000#32
  | .pack16le _ _ => 0x59000000#32
  | .pack32be _ _ => 0x5A000000#32
  | .pack32le _ _ => 0x5B000000#32
  | .pack64be _ _ => 0x5C000000#32
  | .pack64le _ _ => 0x5D000000#32
  | .splitle _ _ _ => 0x5E000000#32
  | .comble _ _ _ => 0x5F000000#32
  | .tblk _ _ _ => 0x60000000#32
  | .tblkmd _ _ _ => 0x61000000#32
  | .tblkbc _ _ _ => 0x62000000#32

/-- The `mask` column of the command's row of 30_encoding.md R78: "a 1 in every opcode bit and every
must-be-zero bit of that command" (R77). -/
def rowMask : Instr → Word32
  | .nop | .halt => 0xFFFFFFFF#32
  | .ldiz _ _ _ | .ldik _ _ _ => 0xFF030000#32
  | .mov _ _ | .par8 _ _ | .par32 _ _ | .not64 _ _ | .minv32 _ _ | .minv64 _ _ | .addbs _ _ | .subb _ _
  | .mulb _ _ | .notb _ _ | .unpk16be _ _ | .unpk16le _ _ | .unpk32be _ _ | .unpk32le _ _
  | .unpk64be _ _ | .unpk64le _ _ | .pack16be _ _ | .pack16le _ _ | .pack32be _ _ | .pack32le _ _
  | .pack64be _ _ | .pack64le _ _ => 0xFF00FFFF#32
  | .setb _ _ _ | .rol16 _ _ _ | .ror16 _ _ _ | .rol24 _ _ _ | .ror24 _ _ _ | .rol32 _ _ _
  | .ror32 _ _ _ | .sub32 _ _ _ | .mul32 _ _ _ | .sub64 _ _ _ | .mul64 _ _ _ | .rol64 _ _ _
  | .ror64 _ _ _ | .shl64 _ _ _ | .shr64 _ _ _ | .rol48 _ _ _ | .ror48 _ _ _ | .splitle _ _ _
  | .comble _ _ _ | .tblk _ _ _ | .tblkmd _ _ _ | .tblkbc _ _ _ => 0xFF000FFF#32
  | .csrr _ _ | .csrw _ _ => 0xFF0FF000#32
  | .add32 _ _ | .add64 _ _ | .and64 _ _ | .or64 _ _ | .xor64 _ _ | .addb _ _ | .xorb _ _ => 0xFF0F0000#32
  | .rolb _ _ | .rorb _ _ => 0xFF0F0FFF#32

/-- The command the decoder reads from the low `nbits` bits of `w`, every bit above them 0. CS holds whole
32-bit words, so there is no byte order to choose (20_memory.md R57). -/
def decodeTableWord (nbits w : Nat) : Option Instr :=
  match decode (BitVec.ofNat 32 (w % 2 ^ nbits)) with
  | .ok i => some i
  | .error _ => none

end Sys2Proof
end

