-- ==== Sys2Proof/Config.lean ====
section
/-! DEFINITION. What one implementation fixes (the parameters of 00_scope.md R6), and the free values:
the values the spec says "a model must treat as arbitrary" (93_implementation_defined.md U1 to U5).
A free value is an opaque constant with no body, so no proof can learn what it is. -/

namespace Sys2Proof.Config

/-- The three parameters of 00_scope.md R6. They are fixed for one unit. The machine carries them in its
state because `exec` takes nothing else (assumption log 1), and no command or host transaction changes them. -/
structure Params where
  /-- MEM_BYTES, the size of the byte memory M. -/
  memBytes : Nat
  /-- CS_WORDS, the size of the command store CS. -/
  csWords : Nat
  /-- SIMPLE_MARKER, the marker byte of the simple padding (45_blockprocessor.md R203). -/
  simpleMarker : Byte
  deriving DecidableEq, Repr

/-- The defaults of 00_scope.md R6: "the default is the value every example in `95_test_vectors.md` uses". -/
def defaultParams : Params :=
  { memBytes := 65536, csWords := 1024, simpleMarker := 0x01#8 }

/-- The ranges 00_scope.md R6 allows: 1 ≤ MEM_BYTES ≤ 2^28 and 1 ≤ CS_WORDS ≤ 65536. -/
abbrev Params.Legal (p : Params) : Prop :=
  1 ≤ p.memBytes ∧ p.memBytes ≤ 2 ^ 28 ∧ 1 ≤ p.csWords ∧ p.csWords ≤ 65536

/-- U2: what byte `a` of M holds from power-on until something writes it ("each byte holds any value until
the host or a command writes it", 10_state.md R37). Assumption log 2. -/
opaque powerOnByte : Nat → Byte

/-- U3: what word `i` of CS holds from power-on until the host writes it (10_state.md R37). Assumption log 3. -/
opaque powerOnCommand : Nat → Word32

/-- U1: what MINV32 writes for the even operand `a` at draw number `n` ("an unspecified 32-bit value",
42_widearith.md R134). Assumption log 4. -/
opaque evenInverse32 : (n : Nat) → (a : BitVec 32) → BitVec 32

/-- U1: what MINV64 writes for the even operand `a` at draw number `n` (42_widearith.md R135).
Assumption log 4. -/
opaque evenInverse64 : (n : Nat) → (a : BitVec 64) → BitVec 64

/-- U4: what byte `a` of an abandoned command's destination buffer holds after the soft reset with draw
number `n` (70_reset_and_hazards.md R281). Assumption log 5. -/
opaque abandonedByte : (n : Nat) → (a : Nat) → Byte

/-- U5: the data a refused host read returns at draw number `n` (70_reset_and_hazards.md R283).
Assumption log 6. -/
opaque refusedData : (n : Nat) → BitVec 64

end Sys2Proof.Config
end

