-- ==== Sys2Proof/Machine/State.lean ====
section
/-! DEFINITION. The architectural state of FWMAU-1 (10_state.md), its value after power-on reset (R37), and the
ways a step of the model can stop. Types only: every operation on them is in Machine/Operands.lean,
Machine/Flags.lean and Machine/Ops.lean. -/

namespace Sys2Proof.Machine

/-- The run state of 10_state.md R25. -/
inductive RunState where
  /-- 0: reset done, or a recoverable fault was cleared. -/
  | idle
  /-- 1: the sequencer executes commands. -/
  | running
  /-- 2: a HALT command executed. -/
  | halted
  /-- 3: a command raised a fault. -/
  | faulted
  deriving DecidableEq, Repr

/-- The two fault classes of 60_exceptions.md R250. -/
inductive FaultClass where
  /-- 1: recoverable by the host with H_CLRFAULT. -/
  | user
  /-- 2: fatal, left by a reset only. -/
  | usage
  deriving DecidableEq, Repr

/-- The causes of 60_exceptions.md R251: "No other cause exists." A command that meets one of them TAKES the
fault, which is a next state (R254), not a stop of the model. -/
inductive Cause where
  | pcRange | illegalInstruction | csrIllegal | tooFewTerms | bufRange | lenMismatch | bufOverlap
  | lenNotMultiple | regRange | rot48Range | padInconsistent | badBlockSize
  deriving DecidableEq, Repr

/-- A buffer descriptor `{base, len}` (10_state.md R23). -/
structure Descriptor where
  base : Word32
  len : Word32
  deriving DecidableEq, Repr

/-- Which command emitted a block (45_blockprocessor.md R200, field `op`). -/
inductive TransformOp where
  | tblk | tblkmd | tblkbc
  deriving DecidableEq, Repr

/-- One emission record (45_blockprocessor.md R200). -/
structure Emission where
  op : TransformOp
  /-- The index of the block within its transform, counted from 0. -/
  k : Nat
  block : List Byte
  /-- "present only when `op` = TBLKBC". -/
  destOffset : Option Nat
  extra : Word
  deriving DecidableEq, Repr

/-- The latches of the transform driver: "the message descriptor, the block length, the `extra` word and the
padded tail" (10_state.md R38), as the records they stand for. They live inside one command and are no part of
`State`. -/
structure TransformRun where
  /-- The block length B in bytes. -/
  blockLen : Nat
  /-- The message length in bytes. -/
  len : Nat
  /-- How many records are handed over in ACCUMULATING. The rest are handed over in FINALIZING. -/
  whole : Nat
  /-- The index of the record presented now. -/
  k : Nat
  /-- The records not yet accepted, the presented one first. -/
  pending : List Emission
  deriving DecidableEq, Repr

/-- The byte memory M as (address, byte) pairs (10_state.md R33). A pair is listed when the byte has been
written since power-on. -/
abbrev Memory := List Host.Cell

/-- The command store CS as (index, command word) pairs (10_state.md R34). A pair is listed when the word has been
written since power-on. -/
abbrev CommandStore := List (Nat × Word32)

/-- The state of one unit: the tuple at the head of 10_state.md with EMIT, and two fields of the model's own,
`params` and `draws`. -/
structure State where
  /-- MEM_BYTES, CS_WORDS, SIMPLE_MARKER (00_scope.md R6). The model's own field, never changed (log 1). -/
  params : Config.Params
  /-- The word registers w0 … w15 (R20). -/
  w : Vector Word 16
  /-- The buffer descriptors b0 … b15 (R23). -/
  b : Vector Descriptor 16
  /-- The index of the command to fetch next (R24). -/
  pc : BitVec 16
  /-- RUN, also read as STATUS.RUN (R25, R28). -/
  run : RunState
  /-- FAULT, CSR 0x001 (R29). -/
  fault : Word32
  /-- FAULTPC, CSR 0x002 (R30). -/
  faultpc : Word32
  /-- PADCFG, CSR 0x003 (R31). -/
  padcfg : Word32
  /-- DRVSTAT, CSR 0x004 (R32). -/
  drvstat : Word32
  /-- DRVOFF, CSR 0x005 (R32). -/
  drvoff : Word32
  /-- The byte memory M (R33). -/
  mem : Memory
  /-- The command store CS (R34). -/
  cs : CommandStore
  /-- The emission history EMIT, oldest record first (R35). -/
  emitted : List Emission
  /-- How many free values have been drawn. The model's own field (log 4). -/
  draws : Nat
  deriving DecidableEq, Repr

/-- Why a step of the model stops without a next state. -/
inductive Fault where
  /-- A memory primitive was asked for bytes outside M. 20_memory.md R54: MemRead and MemWrite "require
  `addr + n ≤ MEM_BYTES`, which rule R52 has already established for every use". Raised by `memRead` and `memWrite`
  in Machine/Ops.lean. Safe: no command reaches it, because BUF_RANGE is taken first. -/
  | outsideMemory
  deriving DecidableEq, Repr

/-- Why a step of the model has no meaning to give. -/
inductive Refusal where
  /-- The instruction has no meaning yet. Raised by an arm of `exec` in Machine/Dispatch.lean only, and by none
  of them now. Safe: nothing is claimed of the instruction. -/
  | notModelled (mnemonic : String)
  deriving DecidableEq, Repr

/-- The state after power-on reset of a unit with these parameters (10_state.md R37, column "after power-on
reset"). M and CS are unspecified, so nothing is listed in them. -/
def State.powerOn (p : Config.Params) : State where
  params := p
  w := Vector.replicate 16 0#64
  b := Vector.replicate 16 { base := 0#32, len := 0#32 }
  pc := 0#16
  run := .idle
  fault := 0#32
  faultpc := 0#32
  padcfg := 0x08000080#32
  drvstat := 0#32
  drvoff := 0#32
  mem := []
  cs := []
  emitted := []
  draws := 0

/-- The machine right after power-on reset, with the default parameters of 00_scope.md R6. -/
def State.reset : State := State.powerOn Config.defaultParams

end Sys2Proof.Machine
end

