-- ==== Sys2Proof/Machine/Flags.lean ====
section
/-! DEFINITION. FWMAU-1 has "no status flags, no condition codes and no predicates" (10_state.md R26), so no flag
is computed anywhere. What it has instead are the bit fields of the control and status registers, which are
here: the STATUS, FAULT and DRVSTAT words, the fields of PADCFG, and the codes they hold. -/

namespace Sys2Proof.Machine

/-- The value of STATUS.RUN (10_state.md R25). -/
def RunState.code : RunState → Nat
  | .idle => 0
  | .running => 1
  | .halted => 2
  | .faulted => 3

/-- The value of FAULT.CLASS (60_exceptions.md R250). -/
def FaultClass.code : FaultClass → Nat
  | .user => 1
  | .usage => 2

/-- The value of FAULT.CAUSE (60_exceptions.md R251). -/
def Cause.code : Cause → Nat
  | .pcRange => 0x01
  | .illegalInstruction => 0x02
  | .csrIllegal => 0x03
  | .tooFewTerms => 0x04
  | .bufRange => 0x05
  | .lenMismatch => 0x06
  | .bufOverlap => 0x07
  | .lenNotMultiple => 0x08
  | .regRange => 0x09
  | .rot48Range => 0x0A
  | .padInconsistent => 0x0B
  | .badBlockSize => 0x20

/-- The class of a cause (60_exceptions.md R251): BAD_BLOCK_SIZE is USER, every other cause is USAGE. -/
def Cause.cls : Cause → FaultClass
  | .badBlockSize => .user
  | .pcRange | .illegalInstruction | .csrIllegal | .tooFewTerms | .bufRange | .lenMismatch | .bufOverlap
  | .lenNotMultiple | .regRange | .rot48Range | .padInconsistent => .usage

/-- The FAULT register of a recorded fault, `cl · 2^8 + ca` (60_exceptions.md R254). -/
def faultWord (c : Cause) : Word32 := BitVec.ofNat 32 (c.cls.code * 2 ^ 8 + c.code)

/-- FAULT.CLASS, bits 9:8 (10_state.md R29). -/
def faultClassField (f : Word32) : Nat := f.toNat / 2 ^ 8 % 4

/-- The STATUS register: RUN in bits 1:0, the rest 0 (10_state.md R28). -/
def statusWord (r : RunState) : Word32 := BitVec.ofNat 32 r.code

/-- The states of the transform driver, DRVSTAT.STATE (10_state.md R32, 45_blockprocessor.md R201). -/
inductive DriverState where
  | idle | accumulating | finalizing
  deriving DecidableEq, Repr

/-- The DRVSTAT register: STATE in bits 1:0, the rest 0 (10_state.md R32). -/
def drvstatWord : DriverState → Word32
  | .idle => 0#32
  | .accumulating => 1#32
  | .finalizing => 2#32

/-- PADCFG.STARTBIT, bits 7:0 (10_state.md R31). -/
def padStartBit (cfg : Word32) : Byte := cfg.extractLsb' 0 8

/-- PADCFG.ENDBIT, bits 15:8 (10_state.md R31). -/
def padEndBit (cfg : Word32) : Byte := cfg.extractLsb' 8 8

/-- PADCFG.ENDBIT_EN, bit 16: 1 means ENDBIT is configured (10_state.md R31). -/
def padEndBitEnabled (cfg : Word32) : Bool := cfg.getLsbD 16

/-- PADCFG.ENDIAN, bit 17: 0 is BE, 1 is LE (10_state.md R31). -/
def padLittleEndian (cfg : Word32) : Bool := cfg.getLsbD 17

/-- PADCFG.AAFB, bit 18 (10_state.md R31). -/
def padAlwaysAddsFullBlock (cfg : Word32) : Bool := cfg.getLsbD 18

/-- PADCFG.SUFLEN, bits 31:24, the suffix length in bytes (10_state.md R31). -/
def padSuffixLen (cfg : Word32) : Nat := (cfg.extractLsb' 24 8).toNat

/-- What a write of PADCFG stores: "A write stores `v AND 0xFF07FFFF`" (10_state.md R31). -/
def padcfgStored (v : Word32) : Word32 := v &&& 0xFF07FFFF#32

/-- The number of PADCFG, the one CSR a write may name (10_state.md R27). -/
def csrPadcfg : Nat := 0x003

/-- The value of control register `n`, or none for an unassigned number (10_state.md R27). -/
def csrValue (n : Nat) (s : State) : Option Word32 :=
  match n with
  | 0x000 => some (statusWord s.run)
  | 0x001 => some s.fault
  | 0x002 => some s.faultpc
  | 0x003 => some s.padcfg
  | 0x004 => some s.drvstat
  | 0x005 => some s.drvoff
  | _ => none

end Sys2Proof.Machine
end

