-- ==== Sys2Proof/Machine/Operands.lean ====
section
/-! DEFINITION. The operand forms and the arithmetic of FWMAU-1: the primitives of 00_scope.md R9, the word operands of
10_state.md R22, the rotations of 41_wordarith.md R100, and the checks on descriptors of 20_memory.md R52 and R53.
Values are unsigned integers, a width is imposed where a rule writes `mod 2^W`. -/

namespace Sys2Proof.Machine

/-! ### Integers -/

/-- The floor modulus, "also when `x` is negative" (00_scope.md R8, 90_conflicts.md C5). -/
def floorMod (x : Int) (n : Nat) : Nat := (x % (n : Int)).toNat

/-- `zext_64(v)`: the value of a word register that holds `v` (00_scope.md R9). -/
def zext64 (v : Nat) : Word := BitVec.ofNat 64 v

/-- `rotl_W(v, c)` for `0 ≤ c < W` (41_wordarith.md R100). -/
def rotl (W v c : Nat) : Nat :=
  if c = 0 then v else (v * 2 ^ c) % 2 ^ W + v / 2 ^ (W - c)

/-- `rotr_W(v, c)` for `0 ≤ c < W` (41_wordarith.md R100). -/
def rotr (W v c : Nat) : Nat :=
  if c = 0 then v else v / 2 ^ c + (v * 2 ^ (W - c)) % 2 ^ W

/-- Folding a word with XOR-shifts by the given distances (41_wordarith.md R110, R111). -/
def xorFold (distances : List Nat) (v : Nat) : Nat :=
  distances.foldl (fun u d => u ^^^ (u / 2 ^ d)) v

/-- One round of the modular inverse on the pair (u, i), `i` squared first (42_widearith.md R134,
90_conflicts.md C2). -/
def newtonRound (W : Nat) (ui : Nat × Nat) : Nat × Nat :=
  let i := ui.2 * ui.2 % 2 ^ W
  (ui.1 * (i + 1) % 2 ^ W, i)

/-- So many rounds of the modular inverse. -/
def newtonRounds (W : Nat) : Nat → Nat × Nat → Nat × Nat
  | 0, ui => ui
  | n + 1, ui => newtonRounds W n (newtonRound W ui)

/-- The inverse of an odd `a` modulo 2^W: seed `u = 2 − a`, `i = a − 1`, then the rounds (42_widearith.md R134,
R135). -/
def newtonInverse (W rounds a : Nat) : Nat :=
  (newtonRounds W rounds (floorMod (2 - (a : Int)) (2 ^ W), floorMod ((a : Int) - 1) (2 ^ W))).1

/-! ### Bytes and integers (00_scope.md R9) -/

/-- `le_int(L)`: least significant byte first. -/
def leInt : List Byte → Nat
  | [] => 0
  | x :: xs => x.toNat + 256 * leInt xs

/-- `be_int(L)`: most significant byte first (20_memory.md R55). -/
def beInt (l : List Byte) : Nat := leInt l.reverse

/-- `le_bytes(v, n)`: the `n` bytes that spell `v mod 256^n`, least significant first. -/
def leBytes (v : Nat) : Nat → List Byte
  | 0 => []
  | n + 1 => BitVec.ofNat 8 (v % 256) :: leBytes (v / 256) n

/-- `be_bytes(v, n)`: the same bytes, most significant first. -/
def beBytes (v n : Nat) : List Byte := (leBytes v n).reverse

/-- `n` zero bytes. -/
def zeros (n : Nat) : List Byte := List.replicate n 0#8

/-- The `k`-th group of `ws` bytes of a list, shorter at the end of the list (44_codec.md R171,
45_blockprocessor.md R202 and R208). -/
def group (ws k : Nat) (l : List Byte) : List Byte := (l.drop (k * ws)).take ws

/-! ### Word register operands -/

/-- `w[i]`, all 64 bits (10_state.md R20). -/
def wreg (i : WReg) (s : State) : Word := s.w[i]

/-- `wW(i) = w[i] mod 2^W`, the operand of a command of width W (10_state.md R22). -/
def wordOperand (W : Nat) (i : WReg) (s : State) : Nat := (wreg i s).toNat % 2 ^ W

/-- A count, word size, small addend, block length, base or length: `w[i] mod 2^32` (30_encoding.md R80). -/
def countOperand (i : WReg) (s : State) : Nat := wordOperand 32 i s

/-- Word `r` of a register run. The codec commands name only `r < 16`, by REG_RANGE (44_codec.md R170). -/
def wordAt (r : Nat) (s : State) : Nat := if h : r < 16 then (wreg ⟨r, h⟩ s).toNat else 0

/-! ### Term lists -/

/-- `list(m)`: the registers or descriptors of a term list, in rising order (30_encoding.md R80). -/
def terms (list : BitVec 16) : List (Fin 16) := (List.finRange 16).filter fun i => list.getLsbD i.val

/-- `popcount` of a term list: "The number of terms is `popcount(list)`" (30_encoding.md R74). -/
def termCount (list : BitVec 16) : Nat := (terms list).length

/-! ### Buffer descriptors -/

/-- `b[i].base` as an address (20_memory.md R51). -/
def bufBase (i : BReg) (s : State) : Nat := s.b[i].base.toNat

/-- `b[i].len` (10_state.md R23). -/
def bufLen (i : BReg) (s : State) : Nat := s.b[i].len.toNat

/-- A descriptor is in range when `base + len ≤ MEM_BYTES`, on unbounded integers (20_memory.md R51, R52). -/
def inRange (i : BReg) (s : State) : Bool := decide (bufBase i s + bufLen i s ≤ s.params.memBytes)

/-- Two descriptors overlap. An empty buffer overlaps nothing (20_memory.md R53). -/
def overlaps (i j : BReg) (s : State) : Bool :=
  decide (0 < bufLen i s ∧ 0 < bufLen j s ∧
    bufBase i s < bufBase j s + bufLen j s ∧ bufBase j s < bufBase i s + bufLen i s)

/-- The descriptor whose buffer a command writes (20_memory.md R67, column "buffers written"). -/
def storeTarget : Instr → Option BReg
  | .addb bd _ | .xorb bd _ | .addbs bd _ | .subb bd _ | .mulb bd _ | .notb bd _ | .rolb bd _ | .rorb bd _
  | .pack16be bd _ | .pack16le bd _ | .pack32be bd _ | .pack32le bd _ | .pack64be bd _ | .pack64le bd _
  | .splitle bd _ _ | .comble bd _ _ => some bd
  | .nop | .halt | .ldiz _ _ _ | .ldik _ _ _ | .mov _ _ | .setb _ _ _ | .csrr _ _ | .csrw _ _
  | .rol16 _ _ _ | .ror16 _ _ _ | .rol24 _ _ _ | .ror24 _ _ _ | .rol32 _ _ _ | .ror32 _ _ _ | .add32 _ _
  | .sub32 _ _ _ | .mul32 _ _ _ | .par8 _ _ | .par32 _ _ | .add64 _ _ | .sub64 _ _ _ | .and64 _ _
  | .or64 _ _ | .xor64 _ _ | .not64 _ _ | .mul64 _ _ _ | .rol64 _ _ _ | .ror64 _ _ _ | .shl64 _ _ _
  | .shr64 _ _ _ | .rol48 _ _ _ | .ror48 _ _ _ | .minv32 _ _ | .minv64 _ _ | .unpk16be _ _
  | .unpk16le _ _ | .unpk32be _ _ | .unpk32le _ _ | .unpk64be _ _ | .unpk64le _ _ | .tblk _ _ _
  | .tblkmd _ _ _ | .tblkbc _ _ _ => none

/-! ### Fault conditions of the descriptor checks (43_bytearith.md R150, 44_codec.md R170) -/

/-- The three buffer checks of a command with a destination and named source buffers: BUF_RANGE on every
descriptor, LEN_MISMATCH, BUF_OVERLAP (43_bytearith.md R150). -/
def bufferChecks (bd : BReg) (sources : List BReg) (s : State) : List (Cause × Bool) :=
  [(.bufRange, !(inRange bd s && sources.all (inRange · s))),
   (.lenMismatch, sources.any fun i => bufLen i s != bufLen bd s),
   (.bufOverlap, sources.any fun i => overlaps i bd s)]

/-- The check of a command with one buffer and no source buffer (43_bytearith.md R150). -/
def rangeCheck (b : BReg) (s : State) : List (Cause × Bool) := [(.bufRange, !inRange b s)]

/-- The three checks of a pack or unpack command with words of `ws` bytes and a register run from `r`
(44_codec.md R170). -/
def codecChecks (ws : Nat) (b : BReg) (r : WReg) (s : State) : List (Cause × Bool) :=
  [(.bufRange, !inRange b s),
   (.lenNotMultiple, bufLen b s % ws != 0),
   (.regRange, decide (16 < r.val + bufLen b s / ws))]

end Sys2Proof.Machine
end

