-- ==== Sys2Proof/Machine/Ops.lean ====
section
/-! DEFINITION. The named operations on the state: the sparse stores that hold M and CS, the memory primitives of
20_memory.md R54, the writes of registers, taking a fault (60_exceptions.md R254), returning from one (R258), soft
reset (70_reset_and_hazards.md R281), and the frame every command has (R286). -/

namespace Sys2Proof.Machine

/-! ### Sparse stores: rising (address, value) lists -/

/-- What is listed at `a`, none for an address never written. -/
def lookupAt {α : Type} : List (Nat × α) → Nat → Option α
  | [], _ => none
  | (x, v) :: rest, a => if x = a then some v else lookupAt rest a

/-- Write `v` at `a`, keeping the addresses strictly rising. -/
def storeAt {α : Type} : List (Nat × α) → Nat → α → List (Nat × α)
  | [], a, v => [(a, v)]
  | (x, u) :: rest, a, v =>
    if a < x then (a, v) :: (x, u) :: rest
    else if a = x then (a, v) :: rest
    else (x, u) :: storeAt rest a v

/-- The canonical form: addresses strictly rising, so that every address is listed at most once. An address
that is not listed has never been written, and no entry stands for "never written" (assumption log 2). -/
abbrev Memory.wf {α : Type} (m : List (Nat × α)) : Prop := m.Pairwise fun c d => c.1 < d.1

/-! ### The byte memory M -/

/-- What byte `a` of M reads as. A byte never written holds any value (10_state.md R37): a free value. -/
def readByte (m : Memory) (a : Nat) : Byte := (lookupAt m a).getD (Config.powerOnByte a)

/-- The bytes at `a, a+1, …, a+n−1` (20_memory.md R54). -/
def readBytes (m : Memory) (a : Nat) : Nat → List Byte
  | 0 => []
  | n + 1 => readByte m a :: readBytes m (a + 1) n

/-- `M[a+j] <- v[j]` for every byte of the list (20_memory.md R54). -/
def writeBytes (m : Memory) (a : Nat) : List Byte → Memory
  | [] => m
  | v :: vs => writeBytes (storeAt m a v) (a + 1) vs

/-- The state with another content of M. -/
def withMem (m : Memory) (s : State) : State := { s with mem := m }

/-- `MemRead(addr, n)`. "Both require `addr + n ≤ MEM_BYTES`" (20_memory.md R54). -/
def memRead (a n : Nat) (s : State) : Except Fault (List Byte) :=
  if a + n ≤ s.params.memBytes then .ok (readBytes s.mem a n) else .error .outsideMemory

/-- `MemWrite(addr, n, v)`, where `v` has `n` bytes (20_memory.md R54). -/
def memWrite (a : Nat) (v : List Byte) (s : State) : Except Fault State :=
  if a + v.length ≤ s.params.memBytes then .ok (withMem (writeBytes s.mem a v) s)
  else .error .outsideMemory

/-- `BufRead(i)` (00_scope.md R9). -/
def bufRead (i : BReg) (s : State) : Except Fault (List Byte) := memRead (bufBase i s) (bufLen i s) s

/-- `BufWrite(i, v)`, where `v` has exactly `b[i].len` bytes (00_scope.md R9). -/
def bufWrite (i : BReg) (v : List Byte) (s : State) : Except Fault State := memWrite (bufBase i s) v s

/-- `BufRead` of every listed descriptor. -/
def bufReadAll : List BReg → State → Except Fault (List (List Byte))
  | [], _ => .ok []
  | i :: is, s => (bufRead i s).bind fun x => (bufReadAll is s).map (x :: ·)

/-- Rewrite buffer `bd` with bytes computed from its old content. -/
def updateBuffer (bd : BReg) (f : List Byte → List Byte) (s : State) : Except Fault State :=
  (bufRead bd s).bind fun x => bufWrite bd (f x) s

/-- Rewrite buffer `bd` with bytes computed from its old content and that of the source buffer `bs`. -/
def updateWith (bd bs : BReg) (f : List Byte → List Byte → List Byte) (s : State) : Except Fault State :=
  (bufRead bd s).bind fun x => (bufRead bs s).bind fun y => bufWrite bd (f x y) s

/-- Rewrite buffer `bd` with bytes computed from its old content and those of the listed source buffers: "all source
bytes are read before any destination byte is written" (20_memory.md R59). -/
def updateFrom (bd : BReg) (sources : List BReg) (f : List Byte → List (List Byte) → List Byte)
    (s : State) : Except Fault State :=
  (bufRead bd s).bind fun x => (bufReadAll sources s).bind fun ys => bufWrite bd (f x ys) s

/-! ### Registers -/

/-- `w[i] <- v` (00_scope.md R9). -/
def setW (i : WReg) (v : Word) (s : State) : State := { s with w := s.w.set i.val v i.isLt }

/-- `w[r] <- v₀, w[r+1] <- v₁, …` (44_codec.md R171). There is no wrap past w15, which REG_RANGE rules out. -/
def setRun (r : Nat) : List Nat → State → State
  | [], s => s
  | v :: vs, s => setRun (r + 1) vs (if h : r < 16 then setW ⟨r, h⟩ (zext64 v) s else s)

/-- `b[i] <- {base, len}` (00_scope.md R9). -/
def setB (i : BReg) (d : Descriptor) (s : State) : State := { s with b := s.b.set i.val d i.isLt }

/-- `CSR[PADCFG] <- v AND 0xFF07FFFF` (46_system.md R237). -/
def setPadcfg (v : Word32) (s : State) : State := { s with padcfg := padcfgStored v }

/-- Append records to EMIT (00_scope.md R9, `emit`). -/
def emit (recs : List Emission) (s : State) : State := { s with emitted := s.emitted ++ recs }

/-- Count one free value as drawn (assumption log 4). -/
def draw (s : State) : State := { s with draws := s.draws + 1 }

/-- `pc <- (pc + 1) mod 2^16` (10_state.md R24). -/
def advance (s : State) : State := { s with pc := s.pc + 1#16 }

/-- `RUN <- HALTED`, with `pc` unchanged (46_system.md R231). -/
def halt (s : State) : State := { s with run := .halted }

/-! ### Taking a fault, returning from one, reset -/

/-- Fault entry: FAULT, FAULTPC and RUN are written "and nothing else" (60_exceptions.md R254). -/
def takeFault (c : Cause) (s : State) : State :=
  { s with fault := faultWord c, faultpc := s.pc.setWidth 32, run := .faulted }

/-- The return from a USER fault that H_CLRFAULT makes: "pc and everything else unchanged"
(60_exceptions.md R258). -/
def clearFault (s : State) : State := { s with fault := 0#32, faultpc := 0#32, run := .idle }

/-- H_START: `pc <- entry`, `RUN <- RUNNING` (70_reset_and_hazards.md R284). -/
def startAt (entry : BitVec 16) (s : State) : State := { s with pc := entry, run := .running }

/-- Soft reset between commands: the power-on values, but M, CS and EMIT are unchanged (10_state.md R37, column
"after soft reset"). -/
def softReset (s : State) : State :=
  { State.powerOn s.params with mem := s.mem, cs := s.cs, emitted := s.emitted, draws := s.draws }

/-! ### The frame of a command -/

/-- What a command of the model answers. -/
abbrev Result := Host.Outcome State Fault Refusal

/-- "Exactly one fault is raised: the one with the numerically lowest CAUSE among the conditions that hold"
(60_exceptions.md R253). -/
def lowestCause : List (Cause × Bool) → Option Cause
  | [] => none
  | (c, holds) :: rest =>
    match holds, lowestCause rest with
    | false, found => found
    | true, none => some c
    | true, some d => if c.code ≤ d.code then some c else some d

/-- The command completes in `t`, and `pc` moves to the next command (70_reset_and_hazards.md R286). -/
def complete (t : State) : Result := .next (advance t)

/-- Evaluate the fault conditions, take the fault with the lowest cause code if any holds, else perform the
operation (70_reset_and_hazards.md R286). "The faulting command has had no effect at all" (60_exceptions.md R255). -/
def checked (conds : List (Cause × Bool)) (s : State) (operation : Except Fault State) : Result :=
  match lowestCause conds with
  | some c => .next (takeFault c s)
  | none =>
    match operation with
    | .ok t => complete t
    | .error f => .fault f

end Sys2Proof.Machine
end

