-- ==== Sys2Proof/Machine/BlockProcessor.lean ====
section
/-! DEFINITION. The BlockProcessor commands of 45_blockprocessor.md: TBLK, TBLKMD, TBLKBC. At command granularity a
transform appends all its records to EMIT in one step, as R201 allows. Machine/Driver.lean hands the same records over one
by one. -/

namespace Sys2Proof.Machine

/-! ### Padding -/

/-- The simple padding: `tail ‖ [SIMPLE_MARKER] ‖ zeros(B − t − 1)` (45_blockprocessor.md R203). -/
def padSimple (marker : Byte) (tail : List Byte) (B : Nat) : List Byte :=
  tail ++ marker :: zeros (B - tail.length - 1)

/-- The padding length `p` of the Merkle–Damgård padding. `len` is the length of the whole message
(45_blockprocessor.md R204, 90_conflicts.md C5). -/
def mdPaddingLength (cfg : Word32) (B len : Nat) : Nat :=
  let S := padSuffixLen cfg
  let p : Int :=
    if padAlwaysAddsFullBlock cfg then ((B : Int) - S) + floorMod ((B : Int) - len) B
    else
      let q := ((B : Int) - S) - (len % B : Nat)
      if q ≤ 0 then q + B else q
  p.toNat

/-- OR a byte into the last byte of a list. -/
def orLast (e : Byte) : List Byte → List Byte
  | [] => []
  | [x] => [x ||| e]
  | x :: y :: rest => x :: orLast e (y :: rest)

/-- The padding bytes `F`: the start byte, zeros, and the end byte ORed into the last of them if configured
(45_blockprocessor.md R204). -/
def mdFill (cfg : Word32) (p : Nat) : List Byte :=
  let F := padStartBit cfg :: zeros (p - 1)
  if padEndBitEnabled cfg then orLast (padEndBit cfg) F else F

/-- The length suffix: the exact value `(8·len) mod 2^(8·S)` in S bytes (45_blockprocessor.md R204, R205,
90_conflicts.md C3). -/
def mdSuffix (cfg : Word32) (len : Nat) : List Byte :=
  let S := padSuffixLen cfg
  let X := 8 * len % 2 ^ (8 * S)
  if padLittleEndian cfg then leBytes X S else beBytes X S

/-- The Merkle–Damgård padding `tail ‖ F ‖ suffix` (45_blockprocessor.md R204). -/
def padMd (cfg : Word32) (tail : List Byte) (B len : Nat) : List Byte :=
  tail ++ mdFill cfg (mdPaddingLength cfg B len) ++ mdSuffix cfg len

/-! ### Splitting a message into records -/

/-- The bytes after the last whole block of the message (45_blockprocessor.md R202). -/
def tailOf (B : Nat) (msg : List Byte) : List Byte := msg.drop (msg.length / B * B)

/-- The run of a hash transform: the whole blocks of the message, then the blocks of the padded tail
(45_blockprocessor.md R202, 90_conflicts.md C6). -/
def hashRun (op : TransformOp) (B : Nat) (msg padded : List Byte) (extra : Word) : TransformRun :=
  let q := msg.length / B
  let record (k : Nat) (block : List Byte) : Emission :=
    { op := op, k := k, block := block, destOffset := none, extra := extra }
  { blockLen := B, len := msg.length, whole := q, k := 0,
    pending := (List.range q).map (fun k => record k (group B k msg)) ++
      (List.range (padded.length / B)).map fun j => record (q + j) (group B j padded) }

/-- The run of a block-cipher transform: chunks of B bytes, a short final chunk filled with zeros
(45_blockprocessor.md R208). -/
def cipherRun (B : Nat) (msg : List Byte) (extra : Word) : TransformRun :=
  let n := (msg.length + B - 1) / B
  { blockLen := B, len := msg.length, whole := msg.length / B, k := 0,
    pending := (List.range n).map fun k =>
      let chunk := group B k msg
      { op := .tblkbc, k := k, block := chunk ++ zeros (B - chunk.length),
        destOffset := some (k * B), extra := extra } }

/-! ### The commands -/

/-- The run of TBLK on a message (45_blockprocessor.md R206). -/
def tblkRun (rx rt : WReg) (msg : List Byte) (s : State) : TransformRun :=
  let B := countOperand rt s
  hashRun .tblk B msg (padSimple s.params.simpleMarker (tailOf B msg) B) (wreg rx s)

/-- The run of TBLKMD on a message, with PADCFG "read once" (45_blockprocessor.md R207). -/
def tblkmdRun (rx rt : WReg) (msg : List Byte) (s : State) : TransformRun :=
  let B := countOperand rt s
  hashRun .tblkmd B msg (padMd s.padcfg (tailOf B msg) B msg.length) (wreg rx s)

/-- The run of TBLKBC on a message. The block size is in bits (45_blockprocessor.md R208). -/
def tblkbcRun (rx rt : WReg) (msg : List Byte) (s : State) : TransformRun :=
  cipherRun (countOperand rt s / 8) msg (wreg rx s)

/-- TBLK: a block length of 0 raises PAD_INCONSISTENT (45_blockprocessor.md R206). -/
def execTblk (rx : WReg) (bs : BReg) (rt : WReg) (s : State) : Result :=
  checked (rangeCheck bs s ++ [(.padInconsistent, countOperand rt s == 0)]) s
    ((bufRead bs s).map fun msg => emit (tblkRun rx rt msg s).pending s)

/-- TBLKMD: a block length of 0, or a suffix that does not fit below it, raises PAD_INCONSISTENT
(45_blockprocessor.md R207). -/
def execTblkmd (rx : WReg) (bs : BReg) (rt : WReg) (s : State) : Result :=
  let B := countOperand rt s
  checked (rangeCheck bs s ++ [(.padInconsistent, decide (B = 0 ∨ B ≤ padSuffixLen s.padcfg))]) s
    ((bufRead bs s).map fun msg => emit (tblkmdRun rx rt msg s).pending s)

/-- TBLKBC: a block size in bits that is 0 or no multiple of 8 raises BAD_BLOCK_SIZE, the one USER fault
(45_blockprocessor.md R208). -/
def execTblkbc (rx : WReg) (bs : BReg) (rt : WReg) (s : State) : Result :=
  let size := countOperand rt s
  checked (rangeCheck bs s ++ [(.badBlockSize, decide (size = 0 ∨ size % 8 ≠ 0))]) s
    ((bufRead bs s).map fun msg => emit (tblkbcRun rx rt msg s).pending s)

end Sys2Proof.Machine
end

