-- ==== Sys2Proof/Machine/ByteArith.lean ====
section
/-! DEFINITION. The ByteArith commands of 43_bytearith.md, on big-endian integers of any length held in buffers. "length *is*
the width": the modulus of every operation is 2^(8·L), where L is the length of the destination (R150). -/

namespace Sys2Proof.Machine

/-- The bytes of an integer result, reduced modulo 2^(8·L) for a destination of L bytes (43_bytearith.md R150). -/
def wrapBytes (v : Nat) (x : List Byte) : List Byte := beBytes (v % 2 ^ (8 * x.length)) x.length

/-- The check of ADDB and XORB: at least one source term (43_bytearith.md R150, R151, R156). -/
def oneTerm (list : BitVec 16) : List (Cause × Bool) := [(.tooFewTerms, decide (termCount list < 1))]

/-- ADDB: `(val(bd) + Σ val(i)) mod 2^(8·L)` (43_bytearith.md R151). -/
def execAddb (bd : BReg) (list : BitVec 16) (s : State) : Result :=
  checked (oneTerm list ++ bufferChecks bd (terms list) s) s
    (updateFrom bd (terms list) (fun x ys => wrapBytes (beInt x + (ys.map beInt).sum) x) s)

/-- ADDBS: `(val(bd) + small) mod 2^(8·L)` (43_bytearith.md R152). -/
def execAddbs (bd : BReg) (rs : WReg) (s : State) : Result :=
  checked (rangeCheck bd s) s
    (updateBuffer bd (fun x => wrapBytes (beInt x + countOperand rs s) x) s)

/-- SUBB: `(val(bd) − val(bs)) mod 2^(8·L)` (43_bytearith.md R153). -/
def execSubb (bd bs : BReg) (s : State) : Result :=
  checked (bufferChecks bd [bs] s) s
    (updateWith bd bs
      (fun x y => wrapBytes (floorMod ((beInt x : Int) - (beInt y : Int)) (2 ^ (8 * x.length))) x) s)

/-- MULB: `(val(bd) · val(bs)) mod 2^(8·L)` (43_bytearith.md R154). -/
def execMulb (bd bs : BReg) (s : State) : Result :=
  checked (bufferChecks bd [bs] s) s
    (updateWith bd bs (fun x y => wrapBytes (beInt x * beInt y) x) s)

/-- NOTB: the complement of the source, into another buffer. The old content of the destination plays no part
(43_bytearith.md R155). -/
def execNotb (bd bs : BReg) (s : State) : Result :=
  checked (bufferChecks bd [bs] s) s
    ((bufRead bs s).bind fun y => bufWrite bd (y.map fun v => 255#8 - v) s)

/-- XORB: every term is XORed into the destination (43_bytearith.md R156). -/
def execXorb (bd : BReg) (list : BitVec 16) (s : State) : Result :=
  checked (oneTerm list ++ bufferChecks bd (terms list) s) s
    (updateFrom bd (terms list) (fun x ys => ys.foldl (List.zipWith (· ^^^ ·)) x) s)

/-- The bytes of a buffer rotated by `count mod 8·L` bits. "`L = 0` is a no-op" (43_bytearith.md R157). -/
def rotateBytes (rot : Nat → Nat → Nat → Nat) (count : Nat) (x : List Byte) : List Byte :=
  if x.length = 0 then x
  else beBytes (rot (8 * x.length) (beInt x) (count % (8 * x.length))) x.length

/-- ROLB: toward the most significant bit, which is toward index 0 (43_bytearith.md R157). -/
def execRolb (bd : BReg) (rc : WReg) (s : State) : Result :=
  checked (rangeCheck bd s) s (updateBuffer bd (rotateBytes rotl (countOperand rc s)) s)

/-- RORB: toward the least significant bit, which is toward index L−1 (43_bytearith.md R158). -/
def execRorb (bd : BReg) (rc : WReg) (s : State) : Result :=
  checked (rangeCheck bd s) s (updateBuffer bd (rotateBytes rotr (countOperand rc s)) s)

end Sys2Proof.Machine
end

