-- ==== Sys2Proof/Machine/Codec.lean ====
section
/-! DEFINITION. The CodecUtils commands of 44_codec.md: unpacking and packing of 16-, 32- and 64-bit words in either byte
order, and the little-endian regrouping of SPLITLE and COMBLE. Word `k` of an array is register `w[r+k]` (R170). -/

namespace Sys2Proof.Machine

/-- The words of a buffer, `ws` bytes each, read by `toInt` (44_codec.md R171 to R176). -/
def wordsOf (toInt : List Byte → Nat) (ws : Nat) (x : List Byte) : List Nat :=
  (List.range (x.length / ws)).map fun k => toInt (group ws k x)

/-- The common unpack function (44_codec.md R170, R171). -/
def unpack (toInt : List Byte → Nat) (ws : Nat) (rd : WReg) (bs : BReg) (s : State) : Result :=
  checked (codecChecks ws bs rd s) s
    ((bufRead bs s).map fun x => setRun rd.val (wordsOf toInt ws x) s)

/-- UNPK16BE (44_codec.md R171). -/
def execUnpk16be (rd : WReg) (bs : BReg) (s : State) : Result := unpack beInt 2 rd bs s

/-- UNPK16LE (44_codec.md R172). -/
def execUnpk16le (rd : WReg) (bs : BReg) (s : State) : Result := unpack leInt 2 rd bs s

/-- UNPK32BE (44_codec.md R173). -/
def execUnpk32be (rd : WReg) (bs : BReg) (s : State) : Result := unpack beInt 4 rd bs s

/-- UNPK32LE (44_codec.md R174). -/
def execUnpk32le (rd : WReg) (bs : BReg) (s : State) : Result := unpack leInt 4 rd bs s

/-- UNPK64BE (44_codec.md R175). -/
def execUnpk64be (rd : WReg) (bs : BReg) (s : State) : Result := unpack beInt 8 rd bs s

/-- UNPK64LE (44_codec.md R176). -/
def execUnpk64le (rd : WReg) (bs : BReg) (s : State) : Result := unpack leInt 8 rd bs s

/-- The bytes of `n` registers from `w[r]`, each reduced to `ws` bytes first (44_codec.md R177, R178). -/
def packedBytes (toBytes : Nat → Nat → List Byte) (ws r n : Nat) (s : State) : List Byte :=
  (List.range n).flatMap fun k => toBytes (wordAt (r + k) s % 2 ^ (8 * ws)) ws

/-- The common pack function: the length comes from the destination descriptor (44_codec.md R177). -/
def pack (toBytes : Nat → Nat → List Byte) (ws : Nat) (bd : BReg) (rs : WReg) (s : State) : Result :=
  checked (codecChecks ws bd rs s) s
    (bufWrite bd (packedBytes toBytes ws rs.val (bufLen bd s / ws) s) s)

/-- PACK16BE (44_codec.md R178). -/
def execPack16be (bd : BReg) (rs : WReg) (s : State) : Result := pack beBytes 2 bd rs s

/-- PACK16LE (44_codec.md R179). -/
def execPack16le (bd : BReg) (rs : WReg) (s : State) : Result := pack leBytes 2 bd rs s

/-- PACK32BE (44_codec.md R180). -/
def execPack32be (bd : BReg) (rs : WReg) (s : State) : Result := pack beBytes 4 bd rs s

/-- PACK32LE (44_codec.md R181). -/
def execPack32le (bd : BReg) (rs : WReg) (s : State) : Result := pack leBytes 4 bd rs s

/-- PACK64BE (44_codec.md R182). -/
def execPack64be (bd : BReg) (rs : WReg) (s : State) : Result := pack beBytes 8 bd rs s

/-- PACK64LE (44_codec.md R183). -/
def execPack64le (bd : BReg) (rs : WReg) (s : State) : Result := pack leBytes 8 bd rs s

/-- The bytes of every group of `ws` reversed, the order of the groups kept (44_codec.md R184). -/
def reverseGroups (ws : Nat) (x : List Byte) : List Byte :=
  (List.range (x.length / ws)).flatMap fun g => (group ws g x).reverse

/-- The common function of SPLITLE and COMBLE. A word size of 0 faults even for an empty buffer (44_codec.md R184). -/
def regroup (bd bs : BReg) (rc : WReg) (s : State) : Result :=
  let ws := countOperand rc s
  checked
    (bufferChecks bd [bs] s ++ [(.lenNotMultiple, decide (ws = 0 ∨ bufLen bs s % ws ≠ 0))]) s
    ((bufRead bs s).bind fun x => bufWrite bd (reverseGroups ws x) s)

/-- SPLITLE (44_codec.md R184). -/
def execSplitle (bd bs : BReg) (rc : WReg) (s : State) : Result := regroup bd bs rc s

/-- COMBLE: "exactly that of rule R184" (44_codec.md R185). -/
def execComble (bd bs : BReg) (rc : WReg) (s : State) : Result := regroup bd bs rc s

end Sys2Proof.Machine
end

