-- ==== Sys2Proof/Machine/System.lean ====
section
/-! DEFINITION. The system commands of 46_system.md: NOP, HALT, LDIZ, LDIK, MOV, SETB, CSRR, CSRW.
There is no control transfer (R238). -/

namespace Sys2Proof.Machine

/-- NOP (46_system.md R230). -/
def execNop (s : State) : Result := complete s

/-- HALT: RUN becomes HALTED and `pc` stays (46_system.md R231). -/
def execHalt (s : State) : Result := .next (halt s)

/-- LDIZ: `w[rd] <- imm16 · 2^(16·pos)` (46_system.md R232). -/
def execLdiz (rd : WReg) (pos : Nat) (imm16 : BitVec 16) (s : State) : Result :=
  complete (setW rd (zext64 (imm16.toNat * 2 ^ (16 * pos))) s)

/-- LDIK: quarter `pos` of `w[rd]` is replaced, the others are kept (46_system.md R233). -/
def execLdik (rd : WReg) (pos : Nat) (imm16 : BitVec 16) (s : State) : Result :=
  let old := (wreg rd s).toNat
  let quarter := old / 2 ^ (16 * pos) % 2 ^ 16
  complete (setW rd
    (zext64 (old - quarter * 2 ^ (16 * pos) + imm16.toNat * 2 ^ (16 * pos))) s)

/-- MOV: all 64 bits (46_system.md R234). -/
def execMov (rd rs : WReg) (s : State) : Result := complete (setW rd (wreg rs s) s)

/-- SETB: checks nothing (46_system.md R235). -/
def execSetb (bd : BReg) (rs rt : WReg) (s : State) : Result :=
  complete (setB bd
    { base := BitVec.ofNat 32 (countOperand rs s), len := BitVec.ofNat 32 (countOperand rt s) } s)

/-- CSRR: an unassigned number raises CSR_ILLEGAL (46_system.md R236). -/
def execCsrr (rd : WReg) (csr : Nat) (s : State) : Result :=
  match csrValue csr s with
  | none => .next (takeFault .csrIllegal s)
  | some v => complete (setW rd (zext64 v.toNat) s)

/-- CSRW: every number but PADCFG raises CSR_ILLEGAL (46_system.md R237). -/
def execCsrw (rs : WReg) (csr : Nat) (s : State) : Result :=
  checked [(.csrIllegal, csr != csrPadcfg)] s
    (.ok (setPadcfg (BitVec.ofNat 32 (wordOperand 32 rs s)) s))

end Sys2Proof.Machine
end

