-- ==== Sys2Proof/Machine/WideArith.lean ====
section
/-! DEFINITION. The WideArith commands of 42_widearith.md: 64-bit add, subtract, multiply, logic, rotate and shift, 48-bit
rotates with counts up to 16, modular inverses. A wide word is one 64-bit register: "a model may implement only the
integer form" (R120). -/

namespace Sys2Proof.Machine

/-- The check of the variadic word commands: "minimum 2 terms" (42_widearith.md R120). -/
def twoTerms (list : BitVec 16) : List (Cause × Bool) := [(.tooFewTerms, decide (termCount list < 2))]

/-- ADD64: the sum of the terms modulo 2^64 (42_widearith.md R121). -/
def execAdd64 (rd : WReg) (list : BitVec 16) (s : State) : Result :=
  checked (twoTerms list) s
    (.ok (setW rd (zext64 (((terms list).map fun i => (wreg i s).toNat).sum % 2 ^ 64)) s))

/-- SUB64: `(a − b) mod 2^64` (42_widearith.md R122). -/
def execSub64 (rd rs rt : WReg) (s : State) : Result :=
  complete (setW rd
    (zext64 (floorMod (((wreg rs s).toNat : Int) - ((wreg rt s).toNat : Int)) (2 ^ 64))) s)

/-- AND64: AND over the terms, bit by bit (42_widearith.md R123). -/
def execAnd64 (rd : WReg) (list : BitVec 16) (s : State) : Result :=
  checked (twoTerms list) s
    (.ok (setW rd ((terms list).foldl (fun v i => v &&& wreg i s) (BitVec.allOnes 64)) s))

/-- OR64: OR over the terms (42_widearith.md R124). -/
def execOr64 (rd : WReg) (list : BitVec 16) (s : State) : Result :=
  checked (twoTerms list) s
    (.ok (setW rd ((terms list).foldl (fun v i => v ||| wreg i s) 0#64) s))

/-- XOR64: XOR over the terms (42_widearith.md R125). -/
def execXor64 (rd : WReg) (list : BitVec 16) (s : State) : Result :=
  checked (twoTerms list) s
    (.ok (setW rd ((terms list).foldl (fun v i => v ^^^ wreg i s) 0#64) s))

/-- NOT64: `(2^64 − 1) − w[rs]` (42_widearith.md R126). -/
def execNot64 (rd rs : WReg) (s : State) : Result :=
  complete (setW rd (zext64 (2 ^ 64 - 1 - (wreg rs s).toNat)) s)

/-- MUL64: `(a · b) mod 2^64` (42_widearith.md R127, 90_conflicts.md C7). -/
def execMul64 (rd rs rt : WReg) (s : State) : Result :=
  complete (setW rd (zext64 ((wreg rs s).toNat * (wreg rt s).toNat % 2 ^ 64)) s)

/-- ROL64: the count is reduced modulo 64 (42_widearith.md R128). -/
def execRol64 (rd rs rc : WReg) (s : State) : Result :=
  complete (setW rd (zext64 (rotl 64 (wreg rs s).toNat (countOperand rc s % 64))) s)

/-- ROR64: the count is reduced modulo 64 (42_widearith.md R129). -/
def execRor64 (rd rs rc : WReg) (s : State) : Result :=
  complete (setW rd (zext64 (rotr 64 (wreg rs s).toNat (countOperand rc s % 64))) s)

/-- SHL64: the count is not reduced, and a count of 64 or more gives 0 (42_widearith.md R130). -/
def execShl64 (rd rs rc : WReg) (s : State) : Result :=
  let c := countOperand rc s
  complete (setW rd (zext64 (if 64 ≤ c then 0 else (wreg rs s).toNat * 2 ^ c % 2 ^ 64)) s)

/-- SHR64: logical, the count is not reduced, and a count of 64 or more gives 0 (42_widearith.md R131). -/
def execShr64 (rd rs rc : WReg) (s : State) : Result :=
  let c := countOperand rc s
  complete (setW rd (zext64 (if 64 ≤ c then 0 else (wreg rs s).toNat / 2 ^ c)) s)

/-- The check of the 48-bit rotates: "The count is *not* reduced modulo 48 before the check" (42_widearith.md R132,
90_conflicts.md C1). -/
def atMost16 (rc : WReg) (s : State) : List (Cause × Bool) :=
  [(.rot48Range, decide (16 < countOperand rc s))]

/-- ROL48 (42_widearith.md R132). -/
def execRol48 (rd rs rc : WReg) (s : State) : Result :=
  checked (atMost16 rc s) s
    (.ok (setW rd (zext64 (rotl 48 (wordOperand 48 rs s) (countOperand rc s))) s))

/-- ROR48 (42_widearith.md R133). -/
def execRor48 (rd rs rc : WReg) (s : State) : Result :=
  checked (atMost16 rc s) s
    (.ok (setW rd (zext64 (rotr 48 (wordOperand 48 rs s) (countOperand rc s))) s))

/-- MINV32: the inverse of an odd operand. An even operand writes an unspecified 32-bit value, drawn from
`Config.evenInverse32` (42_widearith.md R134, 93_implementation_defined.md U1). -/
def execMinv32 (rd rs : WReg) (s : State) : Result :=
  let a := wordOperand 32 rs s
  if a % 2 = 1 then complete (setW rd (zext64 (newtonInverse 32 4 a)) s)
  else
    complete (setW rd (zext64 (Config.evenInverse32 s.draws (BitVec.ofNat 32 a)).toNat) (draw s))

/-- MINV64: the inverse of an odd operand. An even operand writes an unspecified 64-bit value, drawn from
`Config.evenInverse64` (42_widearith.md R135, 93_implementation_defined.md U1). -/
def execMinv64 (rd rs : WReg) (s : State) : Result :=
  let a := (wreg rs s).toNat
  if a % 2 = 1 then complete (setW rd (zext64 (newtonInverse 64 5 a)) s)
  else
    complete (setW rd (Config.evenInverse64 s.draws (BitVec.ofNat 64 a)) (draw s))

end Sys2Proof.Machine
end

