-- ==== Sys2Proof/Machine/WordArith.lean ====
section
/-! DEFINITION. The WordArith commands of 41_wordarith.md: rotates at 16, 24 and 32 bits, add, subtract and multiply at
32 bits, parity. Operands are read modulo 2^W and results are written zero-extended (10_state.md R22). -/

namespace Sys2Proof.Machine

/-- A rotate by `count mod W` within a W-bit field (41_wordarith.md R100 to R106). -/
def rotateWord (W : Nat) (rot : Nat → Nat → Nat → Nat) (rd rs rc : WReg) (s : State) : State :=
  setW rd (zext64 (rot W (wordOperand W rs s) (countOperand rc s % W))) s

/-- ROL16 (41_wordarith.md R101). -/
def execRol16 (rd rs rc : WReg) (s : State) : Result := complete (rotateWord 16 rotl rd rs rc s)

/-- ROR16 (41_wordarith.md R102). -/
def execRor16 (rd rs rc : WReg) (s : State) : Result := complete (rotateWord 16 rotr rd rs rc s)

/-- ROL24 (41_wordarith.md R103). -/
def execRol24 (rd rs rc : WReg) (s : State) : Result := complete (rotateWord 24 rotl rd rs rc s)

/-- ROR24 (41_wordarith.md R104). -/
def execRor24 (rd rs rc : WReg) (s : State) : Result := complete (rotateWord 24 rotr rd rs rc s)

/-- ROL32 (41_wordarith.md R105). -/
def execRol32 (rd rs rc : WReg) (s : State) : Result := complete (rotateWord 32 rotl rd rs rc s)

/-- ROR32 (41_wordarith.md R106). -/
def execRor32 (rd rs rc : WReg) (s : State) : Result := complete (rotateWord 32 rotr rd rs rc s)

/-- ADD32: the sum of the terms modulo 2^32. Fewer than 2 terms raise TOO_FEW_TERMS (41_wordarith.md R107). -/
def execAdd32 (rd : WReg) (list : BitVec 16) (s : State) : Result :=
  checked [(.tooFewTerms, decide (termCount list < 2))] s
    (.ok (setW rd (zext64 (((terms list).map fun i => wordOperand 32 i s).sum % 2 ^ 32)) s))

/-- SUB32: `(a − b) mod 2^32` (41_wordarith.md R108). -/
def execSub32 (rd rs rt : WReg) (s : State) : Result :=
  complete (setW rd
    (zext64 (floorMod ((wordOperand 32 rs s : Int) - (wordOperand 32 rt s : Int)) (2 ^ 32))) s)

/-- MUL32: `(a · b) mod 2^32` (41_wordarith.md R109). -/
def execMul32 (rd rs rt : WReg) (s : State) : Result :=
  complete (setW rd (zext64 (wordOperand 32 rs s * wordOperand 32 rt s % 2 ^ 32)) s)

/-- PAR8: folds by 4, 2, 1 (41_wordarith.md R110). -/
def execPar8 (rd rs : WReg) (s : State) : Result :=
  complete (setW rd (zext64 (xorFold [4, 2, 1] (wordOperand 8 rs s) % 2)) s)

/-- PAR32: folds by 16, 8, 4, 2, 1 (41_wordarith.md R111). -/
def execPar32 (rd rs : WReg) (s : State) : Result :=
  complete (setW rd (zext64 (xorFold [16, 8, 4, 2, 1] (wordOperand 32 rs s) % 2)) s)

end Sys2Proof.Machine
end

