-- ==== Sys2Proof/Machine/Dispatch.lean ====
section
/-! DEFINITION. What each command does: one arm per constructor of Instr, one direct call of its meaning. -/

namespace Sys2Proof.Machine

def exec (i : Instr) (s : State) : Host.Outcome State Fault Refusal :=
  match i with
  | .nop => Sys2Proof.Machine.execNop s
  | .halt => Sys2Proof.Machine.execHalt s
  | .ldiz rd pos imm16 => Sys2Proof.Machine.execLdiz rd pos imm16 s
  | .ldik rd pos imm16 => Sys2Proof.Machine.execLdik rd pos imm16 s
  | .mov rd rs => Sys2Proof.Machine.execMov rd rs s
  | .setb bd rs rt => Sys2Proof.Machine.execSetb bd rs rt s
  | .csrr rd csr => Sys2Proof.Machine.execCsrr rd csr s
  | .csrw rs csr => Sys2Proof.Machine.execCsrw rs csr s
  | .rol16 rd rs rc => Sys2Proof.Machine.execRol16 rd rs rc s
  | .ror16 rd rs rc => Sys2Proof.Machine.execRor16 rd rs rc s
  | .rol24 rd rs rc => Sys2Proof.Machine.execRol24 rd rs rc s
  | .ror24 rd rs rc => Sys2Proof.Machine.execRor24 rd rs rc s
  | .rol32 rd rs rc => Sys2Proof.Machine.execRol32 rd rs rc s
  | .ror32 rd rs rc => Sys2Proof.Machine.execRor32 rd rs rc s
  | .add32 rd list => Sys2Proof.Machine.execAdd32 rd list s
  | .sub32 rd rs rt => Sys2Proof.Machine.execSub32 rd rs rt s
  | .mul32 rd rs rt => Sys2Proof.Machine.execMul32 rd rs rt s
  | .par8 rd rs => Sys2Proof.Machine.execPar8 rd rs s
  | .par32 rd rs => Sys2Proof.Machine.execPar32 rd rs s
  | .add64 rd list => Sys2Proof.Machine.execAdd64 rd list s
  | .sub64 rd rs rt => Sys2Proof.Machine.execSub64 rd rs rt s
  | .and64 rd list => Sys2Proof.Machine.execAnd64 rd list s
  | .or64 rd list => Sys2Proof.Machine.execOr64 rd list s
  | .xor64 rd list => Sys2Proof.Machine.execXor64 rd list s
  | .not64 rd rs => Sys2Proof.Machine.execNot64 rd rs s
  | .mul64 rd rs rt => Sys2Proof.Machine.execMul64 rd rs rt s
  | .rol64 rd rs rc => Sys2Proof.Machine.execRol64 rd rs rc s
  | .ror64 rd rs rc => Sys2Proof.Machine.execRor64 rd rs rc s
  | .shl64 rd rs rc => Sys2Proof.Machine.execShl64 rd rs rc s
  | .shr64 rd rs rc => Sys2Proof.Machine.execShr64 rd rs rc s
  | .rol48 rd rs rc => Sys2Proof.Machine.execRol48 rd rs rc s
  | .ror48 rd rs rc => Sys2Proof.Machine.execRor48 rd rs rc s
  | .minv32 rd rs => Sys2Proof.Machine.execMinv32 rd rs s
  | .minv64 rd rs => Sys2Proof.Machine.execMinv64 rd rs s
  | .addb bd list => Sys2Proof.Machine.execAddb bd list s
  | .addbs bd rs => Sys2Proof.Machine.execAddbs bd rs s
  | .subb bd bs => Sys2Proof.Machine.execSubb bd bs s
  | .mulb bd bs => Sys2Proof.Machine.execMulb bd bs s
  | .notb bd bs => Sys2Proof.Machine.execNotb bd bs s
  | .xorb bd list => Sys2Proof.Machine.execXorb bd list s
  | .rolb bd rc => Sys2Proof.Machine.execRolb bd rc s
  | .rorb bd rc => Sys2Proof.Machine.execRorb bd rc s
  | .unpk16be rd bs => Sys2Proof.Machine.execUnpk16be rd bs s
  | .unpk16le rd bs => Sys2Proof.Machine.execUnpk16le rd bs s
  | .unpk32be rd bs => Sys2Proof.Machine.execUnpk32be rd bs s
  | .unpk32le rd bs => Sys2Proof.Machine.execUnpk32le rd bs s
  | .unpk64be rd bs => Sys2Proof.Machine.execUnpk64be rd bs s
  | .unpk64le rd bs => Sys2Proof.Machine.execUnpk64le rd bs s
  | .pack16be bd rs => Sys2Proof.Machine.execPack16be bd rs s
  | .pack16le bd rs => Sys2Proof.Machine.execPack16le bd rs s
  | .pack32be bd rs => Sys2Proof.Machine.execPack32be bd rs s
  | .pack32le bd rs => Sys2Proof.Machine.execPack32le bd rs s
  | .pack64be bd rs => Sys2Proof.Machine.execPack64be bd rs s
  | .pack64le bd rs => Sys2Proof.Machine.execPack64le bd rs s
  | .splitle bd bs rc => Sys2Proof.Machine.execSplitle bd bs rc s
  | .comble bd bs rc => Sys2Proof.Machine.execComble bd bs rc s
  | .tblk rx bs rt => Sys2Proof.Machine.execTblk rx bs rt s
  | .tblkmd rx bs rt => Sys2Proof.Machine.execTblkmd rx bs rt s
  | .tblkbc rx bs rt => Sys2Proof.Machine.execTblkbc rx bs rt s

end Sys2Proof.Machine
end

