-- ==== Sys2Proof/Machine/Fetch.lean ====
section
/-! DEFINITION. Reading and writing the command store CS (10_state.md R34, 30_encoding.md R70). -/

namespace Sys2Proof.Machine

/-- What word `i` of CS reads as. A word never written holds any value (10_state.md R37): a free value. -/
def readCommand (cs : CommandStore) (i : Nat) : Word32 := (lookupAt cs i).getD (Config.powerOnCommand i)

/-- `CS[i] <- x`. -/
def writeCommand (i : Nat) (x : Word32) (s : State) : State := { s with cs := storeAt s.cs i x }

/-- The fetch of `CS[pc]`, none when `pc ≥ CS_WORDS` (10_state.md R24, 70_reset_and_hazards.md R286). -/
def fetch (s : State) : Option Word32 :=
  if s.pc.toNat < s.params.csWords then some (readCommand s.cs s.pc.toNat) else none

end Sys2Proof.Machine
end

