-- ==== Sys2Proof/Machine/Step.lean ====
section
/-! DEFINITION. One step of the sequencer (70_reset_and_hazards.md R286). -/

namespace Sys2Proof.Machine

/-- Fetch, decode and execute the command at `pc` (70_reset_and_hazards.md R286). -/
def stepRunning (s : State) : Host.Outcome State Fault Refusal :=
  match fetch s with
  | none => .next (takeFault .pcRange s)
  | some x =>
    match decode x with
    | .error _ => .next (takeFault .illegalInstruction s)
    | .ok i => exec i s

/-- One step. "It is taken only when RUN = RUNNING; in every other run state the unit's own transition is the
identity" (70_reset_and_hazards.md R286). -/
def step (s : State) : Host.Outcome State Fault Refusal :=
  match s.run with
  | .running => stepRunning s
  | .idle => .next s
  | .halted => .next s
  | .faulted => .next s

/-- The state with a command stored where `step` fetches next, and the unit RUNNING, as a host leaves it that wrote
the word with H_WRITE_CS and issued H_START (assumption log 9). A `pc` outside CS is first set to 0. -/
def State.withFetchWord (s : State) (nbits w : Nat) : State :=
  let entry : BitVec 16 := if s.pc.toNat < s.params.csWords then s.pc else 0#16
  startAt entry (writeCommand entry.toNat (BitVec.ofNat 32 (w % 2 ^ nbits)) s)

end Sys2Proof.Machine
end

