-- ==== Sys2Proof/Machine/Driver.lean ====
section
/-! DEFINITION. The transform driver record by record (45_blockprocessor.md R200, R201): what the unit's state is while a
record is presented to the callback agent, and what accepting it changes. DRVSTAT and DRVOFF show these states to a
host that reads them while the unit waits. Nothing here is called by `step`, which takes a transform as one command. -/

namespace Sys2Proof.Machine

/-- DRVSTAT.STATE while record `k` is presented: ACCUMULATING for the whole blocks of the message, FINALIZING for
the padded tail (45_blockprocessor.md R201, R202). -/
def presentedState (r : TransformRun) : DriverState :=
  if r.k < r.whole then .accumulating else .finalizing

/-- The unit while the first pending record is presented and not yet accepted: `DRVOFF = min(k·B, len)`
(45_blockprocessor.md R201). -/
def present (r : TransformRun) (s : State) : State :=
  { s with drvstat := drvstatWord (presentedState r),
           drvoff := BitVec.ofNat 32 (min (r.k * r.blockLen) r.len) }

/-- "On "done" both registers return to 0", and the command ends (45_blockprocessor.md R201). -/
def finishRun (s : State) : State := advance { s with drvstat := drvstatWord .idle, drvoff := 0#32 }

/-- The command has passed its checks: present the first record. A run without records never leaves DRV_IDLE
(45_blockprocessor.md R201). -/
def beginRun (r : TransformRun) (s : State) : State :=
  match r.pending with
  | [] => finishRun s
  | _ :: _ => present r s

/-- The callback agent accepts the presented record: it is appended to EMIT and the next record is presented, or
the command is done (45_blockprocessor.md R200, R201). -/
def acceptRecord (r : TransformRun) (s : State) : TransformRun × State :=
  match r.pending with
  | [] => (r, s)
  | rec₀ :: rest =>
    let r' := { r with k := r.k + 1, pending := rest }
    (r', beginRun r' (emit [rec₀] s))

/-- The callback agent accepts `n` records in turn. -/
def acceptRecords : Nat → TransformRun × State → TransformRun × State
  | 0, p => p
  | n + 1, p => acceptRecords n (acceptRecord p.1 p.2)

end Sys2Proof.Machine
end

