-- ==== Sys2Proof/Machine/HostPort.lean ====
section
/-! DEFINITION. The host interface (70_reset_and_hazards.md R283 to R285, R288): what each host transaction does to a
state between two steps, and what a soft reset inside a command leaves (R281). -/

namespace Sys2Proof.Machine

/-- The transactions of 70_reset_and_hazards.md R283. -/
inductive HostTransaction where
  /-- H_RESET. -/
  | reset
  /-- H_READ_CSR(n). -/
  | readCsr (n : Nat)
  /-- H_WRITE_CSR(n, v). -/
  | writeCsr (n : Nat) (v : Word32)
  /-- H_READ_CS(i). -/
  | readCs (i : Nat)
  /-- H_WRITE_CS(i, v). -/
  | writeCs (i : Nat) (v : Word32)
  /-- H_READ_M(a). -/
  | readM (a : Nat)
  /-- H_WRITE_M(a, v). -/
  | writeM (a : Nat) (v : Byte)
  /-- H_READ_W(i). -/
  | readW (i : Nat)
  /-- H_WRITE_W(i, v). -/
  | writeW (i : Nat) (v : Word)
  /-- H_READ_B(i). -/
  | readB (i : Nat)
  /-- H_WRITE_B(i, base, len). -/
  | writeB (i : Nat) (d : Descriptor)
  /-- H_START(entry). -/
  | start (entry : Nat)
  /-- H_CLRFAULT. -/
  | clrFault
  deriving DecidableEq, Repr

/-- What a transaction returns to the host. -/
inductive HostData where
  | nothing
  | csr (v : Word32)
  | command (v : Word32)
  | byte (v : Byte)
  | word (v : Word)
  | descriptor (d : Descriptor)
  /-- The data of a refused read (U5). -/
  | unspecified (v : BitVec 64)
  deriving DecidableEq, Repr

/-- How the unit answers a transaction (70_reset_and_hazards.md R283). -/
inductive HostReply where
  /-- Accepted: the state after it, and the data it returns. -/
  | accepted (s : State) (d : HostData)
  /-- Refused: "it changes no state". The state returned differs in the model's own draw counter at most. -/
  | refused (s : State) (d : HostData)
  /-- Held while RUNNING: "it has no effect and returns nothing until the unit has left RUNNING, and is then judged
  against the state the unit is in at that moment". The host issues it again then (assumption log 7). -/
  | held
  deriving DecidableEq, Repr

/-- A refused read: "the data a refused read returns is unspecified" (70_reset_and_hazards.md R283, U5). -/
def refusedRead (s : State) : HostReply := .refused (draw s) (.unspecified (Config.refusedData s.draws))

/-- A refused transaction that is no read (70_reset_and_hazards.md R283, U19). -/
def refusedAction (s : State) : HostReply := .refused s .nothing

/-- An accepted write or action. -/
def acceptedAction (t : State) : HostReply := .accepted t .nothing

/-- H_READ_CSR, accepted in every run state for an assigned number (70_reset_and_hazards.md R283). -/
def hostReadCsr (n : Nat) (s : State) : HostReply :=
  match csrValue n s with
  | some v => .accepted s (.csr v)
  | none => refusedRead s

/-- H_START: accepted in IDLE and HALTED (70_reset_and_hazards.md R283, R284). -/
def hostStart (entry : Nat) (s : State) : HostReply :=
  if (s.run = .idle ∨ s.run = .halted) ∧ entry < 2 ^ 16 then acceptedAction (startAt (BitVec.ofNat 16 entry) s)
  else refusedAction s

/-- H_CLRFAULT: accepted for a USER fault only (60_exceptions.md R258, R259). -/
def hostClearFault (s : State) : HostReply :=
  if s.run = .faulted ∧ faultClassField s.fault = FaultClass.user.code then acceptedAction (clearFault s)
  else refusedAction s

/-- A transaction other than H_RESET and H_READ_CSR, judged in a state that is not RUNNING
(70_reset_and_hazards.md R283, third column). -/
def judged (t : HostTransaction) (s : State) : HostReply :=
  match t with
  | .reset => acceptedAction (softReset s)
  | .readCsr n => hostReadCsr n s
  | .writeCsr n v => if n = csrPadcfg then acceptedAction (setPadcfg v s) else refusedAction s
  | .readCs i =>
    if i < s.params.csWords then .accepted s (.command (readCommand s.cs i)) else refusedRead s
  | .writeCs i v =>
    if i < s.params.csWords then acceptedAction (writeCommand i v s) else refusedAction s
  | .readM a => if a < s.params.memBytes then .accepted s (.byte (readByte s.mem a)) else refusedRead s
  | .writeM a v =>
    if a < s.params.memBytes then acceptedAction (withMem (storeAt s.mem a v) s) else refusedAction s
  | .readW i => if h : i < 16 then .accepted s (.word (wreg ⟨i, h⟩ s)) else refusedRead s
  | .writeW i v => if h : i < 16 then acceptedAction (setW ⟨i, h⟩ v s) else refusedAction s
  | .readB i => if h : i < 16 then .accepted s (.descriptor s.b[i]) else refusedRead s
  | .writeB i d => if h : i < 16 then acceptedAction (setB ⟨i, h⟩ d s) else refusedAction s
  | .start entry => hostStart entry s
  | .clrFault => hostClearFault s

/-- Whether a transaction completes while the unit is RUNNING: "only H_RESET and CSR reads" (20_memory.md R63). -/
def completesWhileRunning : HostTransaction → Bool
  | .reset | .readCsr _ => true
  | .writeCsr _ _ | .readCs _ | .writeCs _ _ | .readM _ | .writeM _ _ | .readW _ | .writeW _ _ | .readB _
  | .writeB _ _ | .start _ | .clrFault => false

/-- One host transaction between two steps (70_reset_and_hazards.md R283, 20_memory.md R63). -/
def hostTransaction (t : HostTransaction) (s : State) : HostReply :=
  if s.run = .running ∧ completesWhileRunning t = false then .held else judged t s

/-- What a soft reset leaves that arrives while command `i` executes: the destination buffer of a command that
writes M holds unspecified values, and everything else is as after a soft reset (70_reset_and_hazards.md R281,
93_implementation_defined.md U4). For a transform, `softReset` of the driver's state between two accepted records
says it (Machine/Driver.lean). -/
def resetDuring (i : Instr) (s : State) : State :=
  match storeTarget i with
  | none => softReset s
  | some bd =>
    if inRange bd s then
      let garbage := (List.range (bufLen bd s)).map fun j => Config.abandonedByte s.draws (bufBase bd s + j)
      softReset (draw (withMem (writeBytes s.mem (bufBase bd s) garbage) s))
    else softReset s

end Sys2Proof.Machine
end

