-- ==== Sys2Proof/Safety.lean ====
section
/-! DEFINITION. What the statements call a consistent state, a safe step and the hi/lo view of a word. -/

namespace Sys2Proof.Machine

/-- What every state of a unit satisfies between two steps, whatever the program and the host do. -/
structure Consistent (s : State) : Prop where
  /-- The parameters are in the ranges of 00_scope.md R6. -/
  params_legal : s.params.Legal
  /-- M is in canonical form. -/
  mem_canonical : Memory.wf s.mem
  /-- Nothing is stored outside M: "An address is an integer `0 ≤ a < MEM_BYTES`" (20_memory.md R51). -/
  mem_inside : ∀ c ∈ s.mem, c.1 < s.params.memBytes
  /-- CS is in canonical form. -/
  cs_canonical : Memory.wf s.cs
  /-- Nothing is stored outside CS (10_state.md R34). -/
  cs_inside : ∀ c ∈ s.cs, c.1 < s.params.csWords
  /-- PADCFG bits 23:19 "read as 0; a write ignores these bits" (10_state.md R31). -/
  padcfg_reserved : s.padcfg &&& 0x00F80000#32 = 0#32
  /-- "STATE is not 0 only while a TBLK, TBLKMD or TBLKBC command is executing" (10_state.md R32). -/
  driver_idle : s.drvstat = 0#32 ∧ s.drvoff = 0#32
  /-- A recorded fault is one of the causes of 60_exceptions.md R251, and FAULTPC is the `pc` it was raised at
  (10_state.md R30, 60_exceptions.md R254). -/
  fault_recorded : s.run = .faulted → (∃ c, s.fault = faultWord c) ∧ s.faultpc = s.pc.setWidth 32
  /-- A unit that is not FAULTED has no recorded fault (46_system.md R236). -/
  no_fault_recorded : s.run ≠ .faulted → s.fault = 0#32 ∧ s.faultpc = 0#32

/-- A step that does not stop the model. Faults of the unit are next states, so every step should be safe. -/
def SafeStep (s : State) : Prop := ∃ t, step s = .next t

/-- The buffer of descriptor `i` holds byte `a` of M (10_state.md R23). -/
def InBuffer (i : BReg) (a : Nat) (s : State) : Prop := bufBase i s ≤ a ∧ a < bufBase i s + bufLen i s

/-- The bytes of the buffer of descriptor `i`, lowest address first. -/
def bufferBytes (i : BReg) (s : State) : List Byte := readBytes s.mem (bufBase i s) (bufLen i s)

/-- A byte-buffer command with destination `bd` and source buffers `sources` passes the checks of
43_bytearith.md R150: every descriptor in range, equal lengths, no overlap with the destination. -/
def BuffersFit (bd : BReg) (sources : List BReg) (s : State) : Prop :=
  inRange bd s = true ∧
    ∀ i ∈ sources, inRange i s = true ∧ bufLen i s = bufLen bd s ∧ overlaps i bd s = false

/-- A pack or unpack command with words of `ws` bytes passes the checks of 44_codec.md R170. -/
def CodecFits (ws : Nat) (b : BReg) (r : WReg) (s : State) : Prop :=
  inRange b s = true ∧ bufLen b s % ws = 0 ∧ r.val + bufLen b s / ws ≤ 16

/-! ### Results of the commands, as the statements say them -/

/-- `s` after a command whose only effect is `w[rd] <- v` and the advance of `pc` (10_state.md R24). -/
def afterW (rd : WReg) (v : Word) (s : State) : State :=
  { s with w := s.w.set rd.val v rd.isLt, pc := s.pc + 1#16 }

/-- The word register operand of a W-bit command, `w[i] mod 2^W` (10_state.md R22). -/
def operandBits (W : Nat) (i : WReg) (s : State) : BitVec W := (wreg i s).setWidth W

/-- A rotate or shift count, `w[rc] mod 2^32` (30_encoding.md R80). -/
def countBits (rc : WReg) (s : State) : Nat := (wreg rc s).toNat % 2 ^ 32

/-- The number the `n` bytes from address `a` spell, most significant byte first (00_scope.md R9, 20_memory.md
R55). -/
def beValue (m : Memory) (a n : Nat) : Nat :=
  ∑ j ∈ Finset.range n, (readByte m (a + j)).toNat * 256 ^ (n - 1 - j)

/-- The number the `n` bytes from address `a` spell, least significant byte first (00_scope.md R9). -/
def leValue (m : Memory) (a n : Nat) : Nat :=
  ∑ j ∈ Finset.range n, (readByte m (a + j)).toNat * 256 ^ j

/-- `val(i)`, the big-endian integer of a buffer (43_bytearith.md R150). -/
def bufferValue (i : BReg) (s : State) : Nat := beValue s.mem (bufBase i s) (bufLen i s)

/-- `t` is `s` after a command that wrote nothing but the bytes of buffer `bd`: every byte of M outside the buffer reads
as before, `pc` has moved on, and everything else but M is unchanged. -/
def WroteOnly (bd : BReg) (s t : State) : Prop :=
  (∀ a, ¬ InBuffer bd a s → readByte t.mem a = readByte s.mem a) ∧
    t = { s with mem := t.mem, pc := s.pc + 1#16 }

/-- `t` is `s` after a command that wrote `out` into buffer `bd` and nothing else. -/
def StoredBuffer (bd : BReg) (out : List Byte) (s t : State) : Prop :=
  bufferBytes bd t = out ∧ WroteOnly bd s t

/-- `t` is `s` after an unpack of words of `ws` bytes from buffer `bs` into the registers from `w[rd]`: register
`rd + k` holds word `k`, every other register and everything else but `pc` is unchanged (44_codec.md R170, R171). -/
def Unpacked (value : Memory → Nat → Nat → Nat) (ws : Nat) (rd : WReg) (bs : BReg) (s t : State) : Prop :=
  t = { s with w := t.w, pc := s.pc + 1#16 } ∧
    ∀ r : WReg, wreg r t =
      if rd.val ≤ r.val ∧ r.val < rd.val + bufLen bs s / ws then
        BitVec.ofNat 64 (value s.mem (bufBase bs s + (r.val - rd.val) * ws) ws)
      else wreg r s

/-- `t` is `s` after a pack of words of `ws` bytes from the registers from `w[rs]` into buffer `bd`: word `k` of the
buffer is register `rs + k` reduced to `ws` bytes (44_codec.md R177, R178). -/
def Packed (value : Memory → Nat → Nat → Nat) (ws : Nat) (bd : BReg) (rs : WReg) (s t : State) : Prop :=
  WroteOnly bd s t ∧
    ∀ r : WReg, rs.val ≤ r.val → r.val < rs.val + bufLen bd s / ws →
      value t.mem (bufBase bd s + (r.val - rs.val) * ws) ws = (wreg r s).toNat % 256 ^ ws

/-- The records of a transform that emits `n` blocks of `B` bytes of the byte stream `byteAt`
(45_blockprocessor.md R200). -/
def streamRecords (op : TransformOp) (B n : Nat) (offsets : Bool) (extra : Word) (byteAt : Nat → Byte) :
    List Emission :=
  (List.range n).map fun k =>
    { op := op, k := k, block := (List.range B).map fun j => byteAt (k * B + j),
      destOffset := if offsets then some (k * B) else none, extra := extra }

/-- `s` after a transform that emitted these records. -/
def afterEmit (recs : List Emission) (s : State) : State :=
  { s with emitted := s.emitted ++ recs, pc := s.pc + 1#16 }

/-- Byte `j` of what TBLK emits: the message, the marker byte, zeros (45_blockprocessor.md R202, R203). -/
def simpleStream (bs : BReg) (s : State) (j : Nat) : Byte :=
  if j < bufLen bs s then readByte s.mem (bufBase bs s + j)
  else if j = bufLen bs s then s.params.simpleMarker
  else 0#8

/-- How many blocks the padded tail of a Merkle–Damgård transform has: "with AAFB = 0 it is `B` when `t < B − S` and
`2·B` when `t ≥ B − S`, with AAFB = 1 it is `B` when `t = 0` and `2·B` when `t > 0`" (45_blockprocessor.md R204). -/
def mdTailBlocks (cfg : Word32) (B len : Nat) : Nat :=
  if cfg.getLsbD 18 then if len % B = 0 then 1 else 2
  else if len % B < B - (cfg.extractLsb' 24 8).toNat then 1 else 2

/-- Byte `j` of what TBLKMD emits in `N` bytes: the message, the padding bytes (the first is the start byte, the last has
the end byte ORed in if configured, 0 between them), and the message length in bits in the last SUFLEN bytes
(45_blockprocessor.md R202, R204). -/
def mdStream (bs : BReg) (N : Nat) (s : State) (j : Nat) : Byte :=
  let len := bufLen bs s
  let S := (s.padcfg.extractLsb' 24 8).toNat
  if j < len then readByte s.mem (bufBase bs s + j)
  else if j < N - S then
    (if j = len then s.padcfg.extractLsb' 0 8 else 0#8) |||
      (if s.padcfg.getLsbD 16 ∧ j = N - S - 1 then s.padcfg.extractLsb' 8 8 else 0#8)
  else if s.padcfg.getLsbD 17 then BitVec.ofNat 8 (8 * len / 256 ^ (j - (N - S)))
  else BitVec.ofNat 8 (8 * len / 256 ^ (N - 1 - j))

/-- Byte `j` of what TBLKBC emits: the message, then zeros (45_blockprocessor.md R208). -/
def cipherStream (bs : BReg) (s : State) (j : Nat) : Byte :=
  if j < bufLen bs s then readByte s.mem (bufBase bs s + j) else 0#8

/-! ### The hi/lo view -/

/-- The pair `(hi(v), lo(v))` of a 64-bit word (10_state.md R21, 42_widearith.md R120). -/
def pairOf (v : Word) : Word32 × Word32 := (v.extractLsb' 32 32, v.extractLsb' 0 32)

/-- `add` on pairs: the carry out of the low half goes into the high half (42_widearith.md R120). -/
def addPair (a b : Word32 × Word32) : Word32 × Word32 :=
  (a.1 + b.1 + BitVec.ofNat 32 ((a.2.toNat + b.2.toNat) / 2 ^ 32), a.2 + b.2)

/-- `sub` on pairs: the borrow of the low half is taken from the high half (42_widearith.md R120). -/
def subPair (a b : Word32 × Word32) : Word32 × Word32 :=
  (a.1 - b.1 - (if a.2.toNat < b.2.toNat then 1#32 else 0#32), a.2 - b.2)

/-- "applied to hi and to lo separately" (42_widearith.md R120). -/
def bothHalves (f : Word32 → Word32 → Word32) (a b : Word32 × Word32) : Word32 × Word32 := (f a.1 b.1, f a.2 b.2)

/-- The four cases of ROL64 on a pair, for `c < 64` (42_widearith.md R128). -/
def rolPair (c : Nat) (a : Word32 × Word32) : Word32 × Word32 :=
  let (hi, lo) := a
  if c = 0 then (hi, lo)
  else if c < 32 then (hi <<< c ||| lo >>> (32 - c), lo <<< c ||| hi >>> (32 - c))
  else if c = 32 then (lo, hi)
  else let d := c - 32; (lo <<< d ||| hi >>> (32 - d), hi <<< d ||| lo >>> (32 - d))

/-- The four cases of ROR64 on a pair, for `c < 64` (42_widearith.md R129). -/
def rorPair (c : Nat) (a : Word32 × Word32) : Word32 × Word32 :=
  let (hi, lo) := a
  if c = 0 then (hi, lo)
  else if c < 32 then (hi >>> c ||| lo <<< (32 - c), lo >>> c ||| hi <<< (32 - c))
  else if c = 32 then (lo, hi)
  else let d := c - 32; (lo >>> d ||| hi <<< (32 - d), hi >>> d ||| lo <<< (32 - d))

/-- The four cases of SHL64 on a pair, and 0 for a count of 64 or more (42_widearith.md R130). -/
def shlPair (c : Nat) (a : Word32 × Word32) : Word32 × Word32 :=
  let (hi, lo) := a
  if c = 0 then (hi, lo)
  else if c < 32 then (hi <<< c ||| lo >>> (32 - c), lo <<< c)
  else if c = 32 then (lo, 0#32)
  else if c < 64 then (lo <<< (c - 32), 0#32)
  else (0#32, 0#32)

/-- The four cases of SHR64 on a pair, and 0 for a count of 64 or more (42_widearith.md R131). -/
def shrPair (c : Nat) (a : Word32 × Word32) : Word32 × Word32 :=
  let (hi, lo) := a
  if c = 0 then (hi, lo)
  else if c < 32 then (hi >>> c, lo >>> c ||| hi <<< (32 - c))
  else if c = 32 then (0#32, hi)
  else if c < 64 then (0#32, hi >>> (c - 32))
  else (0#32, 0#32)

/-! ### Fault conditions -/

/-- A descriptor reaches past M (20_memory.md R52). -/
def OutOfRange (i : BReg) (s : State) : Prop := s.params.memBytes < s.b[i].base.toNat + s.b[i].len.toNat

/-- Two descriptors overlap (20_memory.md R53). -/
def Overlap (i j : BReg) (s : State) : Prop :=
  0 < s.b[i].len.toNat ∧ 0 < s.b[j].len.toNat ∧
    s.b[i].base.toNat < s.b[j].base.toNat + s.b[j].len.toNat ∧
    s.b[j].base.toNat < s.b[i].base.toNat + s.b[i].len.toNat

/-- The conditions of a command that writes buffer `bd` and reads `sources` (60_exceptions.md R251). -/
def BufferCondition (bd : BReg) (sources : List BReg) (s : State) (c : Cause) : Prop :=
  (c = .bufRange ∧ ∃ i ∈ bd :: sources, OutOfRange i s) ∨
    (c = .lenMismatch ∧ ∃ i ∈ sources, s.b[i].len ≠ s.b[bd].len) ∨
    (c = .bufOverlap ∧ ∃ i ∈ sources, Overlap i bd s)

/-- The conditions of UNPK* and PACK* with words of `ws` bytes (60_exceptions.md R251, 44_codec.md R170). -/
def CodecCondition (ws : Nat) (i : BReg) (r : WReg) (s : State) (c : Cause) : Prop :=
  (c = .bufRange ∧ OutOfRange i s) ∨ (c = .lenNotMultiple ∧ s.b[i].len.toNat % ws ≠ 0) ∨
    (c = .regRange ∧ 16 < r.val + s.b[i].len.toNat / ws)

/-- Condition `c` holds for command `i` in state `s`: the table of 60_exceptions.md R251. PC_RANGE and
ILLEGAL_INSTRUCTION "belong to fetch and decode" (R252), so they are conditions of no command. -/
def FaultCondition (i : Instr) (s : State) (c : Cause) : Prop :=
  match i with
  | .nop | .halt | .ldiz _ _ _ | .ldik _ _ _ | .mov _ _ | .setb _ _ _ | .rol16 _ _ _ | .ror16 _ _ _
  | .rol24 _ _ _ | .ror24 _ _ _ | .rol32 _ _ _ | .ror32 _ _ _ | .sub32 _ _ _ | .mul32 _ _ _ | .par8 _ _
  | .par32 _ _ | .sub64 _ _ _ | .not64 _ _ | .mul64 _ _ _ | .rol64 _ _ _ | .ror64 _ _ _ | .shl64 _ _ _
  | .shr64 _ _ _ | .minv32 _ _ | .minv64 _ _ => False
  | .csrr _ n => c = .csrIllegal ∧ 0x005 < n
  | .csrw _ n => c = .csrIllegal ∧ n ≠ 0x003
  | .add32 _ list | .add64 _ list | .and64 _ list | .or64 _ list | .xor64 _ list =>
    c = .tooFewTerms ∧ termCount list < 2
  | .rol48 _ _ rc | .ror48 _ _ rc => c = .rot48Range ∧ 16 < countBits rc s
  | .addb bd list | .xorb bd list =>
    (c = .tooFewTerms ∧ termCount list < 1) ∨ BufferCondition bd (terms list) s c
  | .subb bd bs | .mulb bd bs | .notb bd bs => BufferCondition bd [bs] s c
  | .addbs bd _ | .rolb bd _ | .rorb bd _ => c = .bufRange ∧ OutOfRange bd s
  | .unpk16be rd bs | .unpk16le rd bs => CodecCondition 2 bs rd s c
  | .unpk32be rd bs | .unpk32le rd bs => CodecCondition 4 bs rd s c
  | .unpk64be rd bs | .unpk64le rd bs => CodecCondition 8 bs rd s c
  | .pack16be bd rs | .pack16le bd rs => CodecCondition 2 bd rs s c
  | .pack32be bd rs | .pack32le bd rs => CodecCondition 4 bd rs s c
  | .pack64be bd rs | .pack64le bd rs => CodecCondition 8 bd rs s c
  | .splitle bd bs rc | .comble bd bs rc =>
    BufferCondition bd [bs] s c ∨
      (c = .lenNotMultiple ∧ (countBits rc s = 0 ∨ s.b[bs].len.toNat % countBits rc s ≠ 0))
  | .tblk _ bs rt => (c = .bufRange ∧ OutOfRange bs s) ∨ (c = .padInconsistent ∧ countBits rt s = 0)
  | .tblkmd _ bs rt =>
    (c = .bufRange ∧ OutOfRange bs s) ∨
      (c = .padInconsistent ∧ (countBits rt s = 0 ∨ countBits rt s ≤ (s.padcfg.extractLsb' 24 8).toNat))
  | .tblkbc _ bs rt =>
    (c = .bufRange ∧ OutOfRange bs s) ∨
      (c = .badBlockSize ∧ (countBits rt s = 0 ∨ countBits rt s % 8 ≠ 0))

/-- No fault condition of command `i` holds, so it executes normally (70_reset_and_hazards.md R286). -/
def NoFault (i : Instr) (s : State) : Prop := ∀ c, ¬ FaultCondition i s c

/-- "Which command can raise which cause", the table of 60_exceptions.md R252. -/
def possibleCauses : Instr → List Cause
  | .nop | .halt | .ldiz _ _ _ | .ldik _ _ _ | .mov _ _ | .setb _ _ _ | .rol16 _ _ _ | .ror16 _ _ _
  | .rol24 _ _ _ | .ror24 _ _ _ | .rol32 _ _ _ | .ror32 _ _ _ | .sub32 _ _ _ | .mul32 _ _ _ | .par8 _ _
  | .par32 _ _ | .sub64 _ _ _ | .not64 _ _ | .mul64 _ _ _ | .rol64 _ _ _ | .ror64 _ _ _ | .shl64 _ _ _
  | .shr64 _ _ _ | .minv32 _ _ | .minv64 _ _ => []
  | .csrr _ _ | .csrw _ _ => [.csrIllegal]
  | .add32 _ _ | .add64 _ _ | .and64 _ _ | .or64 _ _ | .xor64 _ _ => [.tooFewTerms]
  | .rol48 _ _ _ | .ror48 _ _ _ => [.rot48Range]
  | .addb _ _ | .xorb _ _ => [.tooFewTerms, .bufRange, .lenMismatch, .bufOverlap]
  | .subb _ _ | .mulb _ _ | .notb _ _ => [.bufRange, .lenMismatch, .bufOverlap]
  | .addbs _ _ | .rolb _ _ | .rorb _ _ => [.bufRange]
  | .unpk16be _ _ | .unpk16le _ _ | .unpk32be _ _ | .unpk32le _ _ | .unpk64be _ _ | .unpk64le _ _
  | .pack16be _ _ | .pack16le _ _ | .pack32be _ _ | .pack32le _ _ | .pack64be _ _ | .pack64le _ _ =>
    [.bufRange, .lenNotMultiple, .regRange]
  | .splitle _ _ _ | .comble _ _ _ => [.bufRange, .lenMismatch, .bufOverlap, .lenNotMultiple]
  | .tblk _ _ _ | .tblkmd _ _ _ => [.bufRange, .padInconsistent]
  | .tblkbc _ _ _ => [.bufRange, .badBlockSize]

/-- `s` after fault entry with class number `cl` and cause number `ca` (60_exceptions.md R254). -/
def afterFault (cl ca : Nat) (s : State) : State :=
  { s with fault := BitVec.ofNat 32 (cl * 2 ^ 8 + ca), faultpc := BitVec.ofNat 32 s.pc.toNat, run := .faulted }

end Sys2Proof.Machine
end

