-- ==== Sys2Proof/Certificates/Slice0/Obligations.lean ====
section
/-! DEFINITION. The statements about the model. Each names the rules of spec/ it rests on. The words the statements use
(`afterW`, `FaultCondition`, `streamRecords`, …) are defined in Sys2Proof/Safety.lean. -/

section

open Sys2Proof Sys2Proof.Machine

/-! ### Reset, invariant, safety -/

/-- 10_state.md R37, both columns. M and CS are unspecified after power-on: a read of
either is a free value (the model's form of it, logs 2 and 3). That `State.reset` has the default parameters is the
model's choice (log 1). -/
def Obligations.ResetValues : Prop :=
  (∀ p, (State.powerOn p).run = .idle ∧ (State.powerOn p).pc = 0#16 ∧
    (∀ i : WReg, (State.powerOn p).w[i] = 0#64) ∧
    (∀ i : BReg, (State.powerOn p).b[i] = { base := 0#32, len := 0#32 }) ∧
    (State.powerOn p).fault = 0#32 ∧ (State.powerOn p).faultpc = 0#32 ∧
    (State.powerOn p).padcfg = 0x08000080#32 ∧
    (State.powerOn p).drvstat = 0#32 ∧ (State.powerOn p).drvoff = 0#32 ∧
    (∀ a, readByte (State.powerOn p).mem a = Config.powerOnByte a) ∧
    (∀ i, readCommand (State.powerOn p).cs i = Config.powerOnCommand i) ∧
    (State.powerOn p).emitted = []) ∧
  (∀ s : State, (softReset s).run = .idle ∧ (softReset s).pc = 0#16 ∧
    (∀ i : WReg, (softReset s).w[i] = 0#64) ∧
    (∀ i : BReg, (softReset s).b[i] = { base := 0#32, len := 0#32 }) ∧
    (softReset s).fault = 0#32 ∧ (softReset s).faultpc = 0#32 ∧ (softReset s).padcfg = 0x08000080#32 ∧
    (softReset s).drvstat = 0#32 ∧ (softReset s).drvoff = 0#32 ∧ (softReset s).mem = s.mem ∧
    (softReset s).cs = s.cs ∧ (softReset s).emitted = s.emitted) ∧
  State.reset = State.powerOn Config.defaultParams

/-- The machine after power-on reset is consistent, for every legal choice of the parameters. -/
def Obligations.ResetConsistent : Prop :=
  (∀ p : Config.Params, p.Legal → Consistent (State.powerOn p)) ∧ Consistent State.reset

/-- Every step of the sequencer keeps a consistent state consistent. -/
def Obligations.StepKeepsConsistent : Prop :=
  ∀ (s t : State), Consistent s → step s = .next t → Consistent t

/-- Every host transaction, accepted or refused, and a reset inside any command, keep a consistent state
consistent. -/
def Obligations.HostKeepsConsistent : Prop :=
  (∀ (x : HostTransaction) (s t : State) (d : HostData), Consistent s →
    hostTransaction x s = .accepted t d ∨ hostTransaction x s = .refused t d → Consistent t) ∧
  (∀ (i : Instr) (s : State), Consistent s → Consistent (resetDuring i s))

/-- No command and no step stops the model: everything the spec gives an effect has a next state, a fault of the unit
included. -/
def Obligations.EveryStepHasNextState : Prop :=
  (∀ (i : Instr) (s : State), ∃ t, exec i s = .next t) ∧ ∀ s : State, SafeStep s

/-! ### Encoding -/

/-- The decoder reads every well-formed command back from its word. -/
def Obligations.DecodeEncode : Prop :=
  ∀ i : Instr, i.WellFormed → decode (encode i) = .ok i

/-- What decodes to a command is that command's word, bit for bit, and the command is well-formed. -/
def Obligations.EncodeDecode : Prop :=
  ∀ (x : Word32) (i : Instr), decode x = .ok i → encode i = x ∧ i.WellFormed

/-- 30_encoding.md R77: a word is the command of a row exactly when it agrees with the row's match under the row's
mask. Rows are told apart by their match. -/
def Obligations.RowMatchDecides : Prop :=
  ∀ (x : Word32) (i : Instr), x &&& rowMask i = rowMatch i ↔ ∃ j, decode x = .ok j ∧ rowMatch j = rowMatch i

/-- 30_encoding.md R77, R79: a word with an unassigned opcode, and a word that agrees with no row's match under the row's
mask (such as a word with a 1 in a must-be-zero bit), decodes to no command. A step that fetches a word that decodes to
no command raises ILLEGAL_INSTRUCTION, class USAGE. -/
def Obligations.UnassignedOpcodesAreIllegal : Prop :=
  ∀ x : Word32,
    let op := x.toNat / 2 ^ 24
    ((0x07 ≤ op ∧ op ≤ 0x0F ∨ 0x1B ≤ op ∧ op ≤ 0x1F ∨ 0x2F ≤ op ∧ op ≤ 0x3F ∨ 0x48 ≤ op ∧ op ≤ 0x4F ∨
      op = 0x56 ∨ op = 0x57 ∨ 0x63 ≤ op) → ∀ i, decode x ≠ .ok i) ∧
    ((∀ i, x &&& rowMask i ≠ rowMatch i) → ∀ i, decode x ≠ .ok i) ∧
    ((∀ i, decode x ≠ .ok i) →
      ∀ s : State, s.run = .running → fetch s = some x → step s = .next (afterFault 2 0x02 s))

/-- The fifteen example words of 30_encoding.md R82 decode to the commands written beside them. -/
def Obligations.ExampleWordsDecode : Prop :=
  decode 0x01000000#32 = .ok .halt ∧
  decode 0x0212FFFF#32 = .ok (.ldiz 1 0 0xFFFF#16) ∧
  decode 0x0214FFFF#32 = .ok (.ldik 1 1 0xFFFF#16) ∧
  decode 0x03310000#32 = .ok (.mov 3 1) ∧
  decode 0x04001000#32 = .ok (.setb 0 0 1) ∧
  decode 0x06400003#32 = .ok (.csrw 4 0x003) ∧
  decode 0x1A970000#32 = .ok (.par32 9 7) ∧
  decode 0x18312000#32 = .ok (.mul32 3 1 2) ∧
  decode 0x1640000E#32 = .ok (.add32 4 0x000E#16) ∧
  decode 0x40100001#32 = .ok (.addb 1 0x0001#16) ∧
  decode 0x46108000#32 = .ok (.rolb 1 8) ∧
  decode 0x52200000#32 = .ok (.unpk32be 2 0) ∧
  decode 0x5C170000#32 = .ok (.pack64be 1 7) ∧
  decode 0x5E205000#32 = .ok (.splitle 2 0 5) ∧
  decode 0x61302000#32 = .ok (.tblkmd 3 0 2)

/-! ### The step -/

/-- A step of a RUNNING unit whose `pc` is inside CS executes the command that the word at `pc` decodes to, and adds
nothing to it. -/
def Obligations.StepRunsDecodedCommand : Prop :=
  ∀ (s : State) (i : Instr), s.run = .running → s.pc.toNat < s.params.csWords →
    decode (readCommand s.cs s.pc.toNat) = .ok i →
    step s = exec i s

/-- "The sequencer takes a step only in RUNNING" (10_state.md R25). -/
def Obligations.OnlyRunningUnitSteps : Prop :=
  ∀ s : State, s.run ≠ .running → step s = .next s

/-- 10_state.md R24. -/
def Obligations.ProgramCounterRule : Prop :=
  (∀ s : State, s.run = .running → s.params.csWords ≤ s.pc.toNat → step s = .next (afterFault 2 0x01 s)) ∧
  ∀ (s t : State), s.run = .running → step s = .next t →
    (t.run = .running → t.pc.toNat = (s.pc.toNat + 1) % 2 ^ 16) ∧ (t.run ≠ .running → t.pc = s.pc) ∧
      (t.run = .running ∨ t.run = .halted ∨ t.run = .faulted)

/-- 46_system.md R238: a program "always terminates, unless … CS_WORDS = 65536". At most CS_WORDS + 1 steps are
needed: every word of CS once, and the fetch behind the last one. `step` takes a transform as one step, so the callback agent
accepts every record (the model's choice, log 8). -/
def Obligations.ProgramsTerminate : Prop :=
  ∀ s : State, s.params.csWords < 65536 →
    ∃ t, Sys2Proof.core.run (s.params.csWords + 1) s = .next t ∧ t.run ≠ .running

/-- What no command does. It writes no parameter, no CS, no DRVSTAT, no DRVOFF, and takes nothing out of EMIT. Only a
transform adds to EMIT, only SETB writes a descriptor, only CSRW writes PADCFG, and only a command with a destination
buffer writes M, inside that buffer (20_memory.md R50, R67; 10_state.md R34, R35; 60_exceptions.md R263). -/
def Obligations.CommandFrame : Prop :=
  ∀ (i : Instr) (s t : State), Memory.wf s.mem → exec i s = .next t →
    t.params = s.params ∧ t.cs = s.cs ∧ t.drvstat = s.drvstat ∧ t.drvoff = s.drvoff ∧
    s.emitted <+: t.emitted ∧
    (t.emitted ≠ s.emitted →
      ∃ rx bs rt, i = .tblk rx bs rt ∨ i = .tblkmd rx bs rt ∨ i = .tblkbc rx bs rt) ∧
    (t.b ≠ s.b → ∃ bd rs rt, i = .setb bd rs rt) ∧
    (t.padcfg ≠ s.padcfg → ∃ rs, i = .csrw rs 0x003) ∧
    ∀ a, (∀ bd, storeTarget i = some bd → ¬ InBuffer bd a s) → readByte t.mem a = readByte s.mem a

/-! ### Faults -/

/-- The causes with their classes and codes (60_exceptions.md R250, R251), as fault entry records them (R254). A unit
that has taken a fault takes no further step. -/
def Obligations.FaultEntry : Prop :=
  ∀ s : State, (∀ c, step (takeFault c s) = .next (takeFault c s)) ∧
    takeFault .pcRange s = afterFault 2 0x01 s ∧ takeFault .illegalInstruction s = afterFault 2 0x02 s ∧
    takeFault .csrIllegal s = afterFault 2 0x03 s ∧ takeFault .tooFewTerms s = afterFault 2 0x04 s ∧
    takeFault .bufRange s = afterFault 2 0x05 s ∧ takeFault .lenMismatch s = afterFault 2 0x06 s ∧
    takeFault .bufOverlap s = afterFault 2 0x07 s ∧ takeFault .lenNotMultiple s = afterFault 2 0x08 s ∧
    takeFault .regRange s = afterFault 2 0x09 s ∧ takeFault .rot48Range s = afterFault 2 0x0A s ∧
    takeFault .padInconsistent s = afterFault 2 0x0B s ∧ takeFault .badBlockSize s = afterFault 1 0x20 s

/-- 60_exceptions.md R253 with the table of R251: of the conditions of a command that hold, the one with the lowest
code is raised. If none holds, the command raises no fault. -/
def Obligations.LowestCauseIsRaised : Prop :=
  ∀ (i : Instr) (s : State),
    (∀ c, FaultCondition i s c → (∀ d, FaultCondition i s d → c.code ≤ d.code) →
      exec i s = .next (takeFault c s)) ∧
    (NoFault i s → ∃ t, exec i s = .next t ∧ t.fault = s.fault ∧ t.faultpc = s.faultpc ∧
      (t.run = s.run ∨ i = .halt))

/-- 60_exceptions.md R254, R255 and R252: a step of a RUNNING unit that ends FAULTED has written FAULT, FAULTPC and RUN
and nothing else, and the cause is PC_RANGE, ILLEGAL_INSTRUCTION, or one the table gives the command. -/
def Obligations.FaultsArePrecise : Prop :=
  ∀ (s t : State), s.run = .running → step s = .next t → t.run = .faulted →
    ∃ c, t = takeFault c s ∧
      (c = .pcRange ∧ s.params.csWords ≤ s.pc.toNat ∨
       c = .illegalInstruction ∧ (∃ x, fetch s = some x ∧ ∀ i, decode x ≠ .ok i) ∨
       ∃ x i, fetch s = some x ∧ decode x = .ok i ∧ c ∈ possibleCauses i)

/-! ### The host -/

/-- 60_exceptions.md R258, R259: H_CLRFAULT in a state that is not RUNNING. -/
def Obligations.ClearFaultRule : Prop :=
  ∀ s : State, s.run ≠ .running →
    (s.run = .faulted ∧ s.fault.toNat / 2 ^ 8 % 4 = 1 →
      hostTransaction .clrFault s =
        .accepted { s with fault := 0#32, faultpc := 0#32, run := .idle } .nothing) ∧
    (¬ (s.run = .faulted ∧ s.fault.toNat / 2 ^ 8 % 4 = 1) →
      hostTransaction .clrFault s = .refused s .nothing)

/-- 70_reset_and_hazards.md R284, R283: H_START, the states it is accepted in, what it changes, and what an entry point
outside CS leads to. `held` is the model's form of a held transaction (log 7). -/
def Obligations.StartRule : Prop :=
  ∀ (s : State) (entry : BitVec 16),
    (s.run = .idle ∨ s.run = .halted →
      hostTransaction (.start entry.toNat) s = .accepted { s with pc := entry, run := .running } .nothing ∧
      (s.params.csWords ≤ entry.toNat → ∃ t, step { s with pc := entry, run := .running } = .next t ∧
        t.run = .faulted ∧ t.fault = 0x201#32 ∧ t.faultpc.toNat = entry.toNat)) ∧
    (s.run = .faulted → hostTransaction (.start entry.toNat) s = .refused s .nothing) ∧
    (s.run = .running → hostTransaction (.start entry.toNat) s = .held)

/-- 70_reset_and_hazards.md R283, 20_memory.md R63, 60_exceptions.md R259. H_RESET and reads of the six CSRs complete in
every run state. While RUNNING every other transaction is held. H_RESET alone takes a unit out of a USAGE fault. A
refused read changes nothing but `draws`. `held` (log 7), and the counter `draws` with the free value a refused read
returns (log 6), are the model's forms. -/
def Obligations.HostExclusion : Prop :=
  ∀ s : State,
    hostTransaction .reset s = .accepted (softReset s) .nothing ∧
    (∀ n, n ≤ 0x005 → ∃ v, csrValue n s = some v ∧ hostTransaction (.readCsr n) s = .accepted s (.csr v)) ∧
    (s.run = .running →
      (∀ n v, hostTransaction (.writeCsr n v) s = .held) ∧
      (∀ i, hostTransaction (.readCs i) s = .held) ∧ (∀ i v, hostTransaction (.writeCs i v) s = .held) ∧
      (∀ a, hostTransaction (.readM a) s = .held) ∧ (∀ a v, hostTransaction (.writeM a v) s = .held) ∧
      (∀ i, hostTransaction (.readW i) s = .held) ∧ (∀ i v, hostTransaction (.writeW i v) s = .held) ∧
      (∀ i, hostTransaction (.readB i) s = .held) ∧ (∀ i d, hostTransaction (.writeB i d) s = .held) ∧
      (∀ e, hostTransaction (.start e) s = .held) ∧ hostTransaction .clrFault s = .held) ∧
    (s.run = .faulted → s.fault.toNat / 2 ^ 8 % 4 = 2 →
      (softReset s).run = .idle ∧ (softReset s).fault = 0#32 ∧
      ∀ x t d, x ≠ .reset → hostTransaction x s = .accepted t d ∨ hostTransaction x s = .refused t d →
        t.run = .faulted ∧ t.fault = s.fault ∧ t.faultpc = s.faultpc) ∧
    (∀ n, 0x005 < n → ∃ k d, hostTransaction (.readCsr n) s = .refused { s with draws := k } d) ∧
    (s.run ≠ .running →
      (∀ a, s.params.memBytes ≤ a → ∃ k d, hostTransaction (.readM a) s = .refused { s with draws := k } d) ∧
      (∀ i, s.params.csWords ≤ i → ∃ k d, hostTransaction (.readCs i) s = .refused { s with draws := k } d) ∧
      (∀ i, 16 ≤ i → ∃ k d, hostTransaction (.readW i) s = .refused { s with draws := k } d) ∧
      ∀ i, 16 ≤ i → ∃ k d, hostTransaction (.readB i) s = .refused { s with draws := k } d)

/-- What the host writes it reads back, and nothing else changes (70_reset_and_hazards.md R283): each accepted write
changes one field of the state, and in that field one place. A refused write changes no state. -/
def Obligations.HostReadsWhatItWrote : Prop :=
  ∀ s : State, Consistent s → s.run ≠ .running →
    (∀ a v, a < s.params.memBytes → ∃ m, hostTransaction (.writeM a v) s = .accepted { s with mem := m } .nothing ∧
      ∀ c, c < s.params.memBytes → hostTransaction (.readM c) { s with mem := m } =
        .accepted { s with mem := m } (.byte (if c = a then v else readByte s.mem c))) ∧
    (∀ a v, s.params.memBytes ≤ a → hostTransaction (.writeM a v) s = .refused s .nothing) ∧
    (∀ i x, i < s.params.csWords → ∃ m, hostTransaction (.writeCs i x) s = .accepted { s with cs := m } .nothing ∧
      ∀ j, j < s.params.csWords → hostTransaction (.readCs j) { s with cs := m } =
        .accepted { s with cs := m } (.command (if j = i then x else readCommand s.cs j))) ∧
    (∀ i x, s.params.csWords ≤ i → hostTransaction (.writeCs i x) s = .refused s .nothing) ∧
    (∀ i : WReg, ∀ v, ∃ t, t = { s with w := t.w } ∧ hostTransaction (.writeW i.val v) s = .accepted t .nothing ∧
      ∀ j : WReg, hostTransaction (.readW j.val) t = .accepted t (.word (if j = i then v else wreg j s))) ∧
    (∀ i v, 16 ≤ i → hostTransaction (.writeW i v) s = .refused s .nothing) ∧
    (∀ i : BReg, ∀ d, ∃ t, t = { s with b := t.b } ∧ hostTransaction (.writeB i.val d) s = .accepted t .nothing ∧
      ∀ j : BReg, hostTransaction (.readB j.val) t = .accepted t (.descriptor (if j = i then d else s.b[j]))) ∧
    (∀ i d, 16 ≤ i → hostTransaction (.writeB i d) s = .refused s .nothing) ∧
    (∀ v, ∃ t, t = { s with padcfg := v &&& 0xFF07FFFF#32 } ∧
      hostTransaction (.writeCsr 0x003 v) s = .accepted t .nothing ∧
      hostTransaction (.readCsr 0x003) t = .accepted t (.csr (v &&& 0xFF07FFFF#32))) ∧
    (∀ n v, n ≠ 0x003 → hostTransaction (.writeCsr n v) s = .refused s .nothing)

/-- 60_exceptions.md R258: recovery from BAD_BLOCK_SIZE. The host reads FAULTPC, clears the fault, writes a valid size to the
register the TBLKBC names and starts again at FAULTPC. The unit is then where it was, with the size corrected. -/
def Obligations.BadBlockSizeIsRecoverable : Prop :=
  ∀ (s : State) (rx : WReg) (bs : BReg) (rt : WReg) (v : Word), s.run = .running → s.fault = 0#32 → s.faultpc = 0#32 →
    ¬ OutOfRange bs s → countBits rt s = 0 ∨ countBits rt s % 8 ≠ 0 →
    ∃ t u x, exec (.tblkbc rx bs rt) s = .next t ∧ t.run = .faulted ∧ t.faultpc.toNat = s.pc.toNat ∧
      hostTransaction .clrFault t = .accepted u .nothing ∧
      hostTransaction (.writeW rt.val v) u = .accepted x .nothing ∧
      hostTransaction (.start t.faultpc.toNat) x =
        .accepted { s with w := s.w.set rt.val v rt.isLt } .nothing

/-- 70_reset_and_hazards.md R281: a soft reset inside a command gives every register its reset value, keeps CS and EMIT, and
leaves every byte of M outside the command's destination buffer as it was. Outside a command all of M is kept.
`resetDuring` is the model's form of a reset inside a command (log 5). -/
def Obligations.ResetInsideCommand : Prop :=
  ∀ (i : Instr) (s : State), Memory.wf s.mem →
    (∃ m d, resetDuring i s = { softReset s with mem := m, draws := d }) ∧
    ∀ a, (∀ bd, storeTarget i = some bd → ¬ InBuffer bd a s) →
      readByte (resetDuring i s).mem a = readByte s.mem a

/-! ### System commands -/

/-- 46_system.md R230, R231. -/
def Obligations.NopAndHalt : Prop :=
  decode 0x00000000#32 = .ok .nop ∧ decode 0x01000000#32 = .ok .halt ∧
  ∀ s : State, exec .nop s = .next { s with pc := s.pc + 1#16 } ∧ exec .halt s = .next { s with run := .halted }

/-- 46_system.md R232, R233, bit by bit: bits `16·pos+15 : 16·pos` become the immediate. LDIZ clears the others and
LDIK keeps them. -/
def Obligations.LoadImmediate : Prop :=
  ∀ (rd : WReg) (pos : Nat) (imm16 : BitVec 16) (s : State), pos < 4 →
    (∃ v, exec (.ldiz rd pos imm16) s = .next (afterW rd v s) ∧
      ∀ j, j < 64 → v.getLsbD j = (decide (j / 16 = pos) && imm16.getLsbD (j % 16))) ∧
    ∃ v, exec (.ldik rd pos imm16) s = .next (afterW rd v s) ∧
      ∀ j, j < 64 → v.getLsbD j = if j / 16 = pos then imm16.getLsbD (j % 16) else (wreg rd s).getLsbD j

/-- The pseudo-instruction LI of 30_encoding.md R83: LDIZ and three LDIK load any 64-bit constant. -/
def Obligations.LoadConstant : Prop :=
  ∀ (rd : WReg) (v : Word) (s : State), ∃ s₁ s₂ s₃ s₄,
    exec (.ldiz rd 0 (v.extractLsb' 0 16)) s = .next s₁ ∧
    exec (.ldik rd 1 (v.extractLsb' 16 16)) s₁ = .next s₂ ∧
    exec (.ldik rd 2 (v.extractLsb' 32 16)) s₂ = .next s₃ ∧
    exec (.ldik rd 3 (v.extractLsb' 48 16)) s₃ = .next s₄ ∧
    s₄ = { s with w := s.w.set rd.val v rd.isLt, pc := s.pc + 4#16 }

/-- 46_system.md R234: the one word of a MOV (opcode 0x03, A = rd, B = rs, every other bit 0), and what it does. -/
def Obligations.MoveRegister : Prop :=
  ∀ rd rs : WReg,
    (∀ x : Word32, decode x = .ok (.mov rd rs) ↔ x.toNat = 0x03 * 2 ^ 24 + rd.val * 2 ^ 20 + rs.val * 2 ^ 16) ∧
    ∀ s : State, exec (.mov rd rs) s = .next (afterW rd (wreg rs s) s)

/-- 46_system.md R235: the one word of a SETB (opcode 0x04, A = bd, B = rs, C = rt, every other bit 0), and what it
does. -/
def Obligations.SetDescriptor : Prop :=
  ∀ (bd : BReg) (rs rt : WReg),
    (∀ x : Word32, decode x = .ok (.setb bd rs rt) ↔
      x.toNat = 0x04 * 2 ^ 24 + bd.val * 2 ^ 20 + rs.val * 2 ^ 16 + rt.val * 2 ^ 12) ∧
    ∀ s : State, exec (.setb bd rs rt) s = .next
      { s with b := s.b.set bd.val { base := (wreg rs s).setWidth 32, len := (wreg rt s).setWidth 32 } bd.isLt,
               pc := s.pc + 1#16 }

/-- 46_system.md R236, R237 and 10_state.md R27: reading and writing the control registers, and the numbers that raise
CSR_ILLEGAL. -/
def Obligations.ControlRegisterAccess : Prop :=
  ∀ (r : WReg) (s : State),
    exec (.csrr r 0x000) s = .next (afterW r (BitVec.ofNat 64 (match s.run with
      | .idle => 0 | .running => 1 | .halted => 2 | .faulted => 3)) s) ∧
    exec (.csrr r 0x001) s = .next (afterW r (s.fault.setWidth 64) s) ∧
    exec (.csrr r 0x002) s = .next (afterW r (s.faultpc.setWidth 64) s) ∧
    exec (.csrr r 0x003) s = .next (afterW r (s.padcfg.setWidth 64) s) ∧
    exec (.csrr r 0x004) s = .next (afterW r (s.drvstat.setWidth 64) s) ∧
    exec (.csrr r 0x005) s = .next (afterW r (s.drvoff.setWidth 64) s) ∧
    (∀ n, 0x005 < n → exec (.csrr r n) s = .next (afterFault 2 0x03 s)) ∧
    exec (.csrw r 0x003) s =
      .next { s with padcfg := (wreg r s).setWidth 32 &&& 0xFF07FFFF#32, pc := s.pc + 1#16 } ∧
    ∀ n, n ≠ 0x003 → exec (.csrw r n) s = .next (afterFault 2 0x03 s)

/-- "the read has no side effect; read by the unit itself, STATUS is always 1, FAULT and FAULTPC are always 0 …, DRVSTAT
and DRVOFF are always 0" (46_system.md R236). -/
def Obligations.ProgramSeesOnlyPadcfg : Prop :=
  ∀ (rd : WReg) (s : State), Consistent s → s.run = .running →
    exec (.csrr rd 0x000) s = .next (afterW rd 1#64 s) ∧ exec (.csrr rd 0x001) s = .next (afterW rd 0#64 s) ∧
    exec (.csrr rd 0x002) s = .next (afterW rd 0#64 s) ∧ exec (.csrr rd 0x004) s = .next (afterW rd 0#64 s) ∧
    exec (.csrr rd 0x005) s = .next (afterW rd 0#64 s)

/-! ### WordArith -/

/-- 41_wordarith.md R100 to R106: rotates by `count mod W` within a W-bit field, W = 16, 24, 32. -/
def Obligations.NarrowRotates : Prop :=
  ∀ (rd rs rc : WReg) (s : State),
    exec (.rol16 rd rs rc) s =
      .next (afterW rd (((operandBits 16 rs s).rotateLeft (countBits rc s)).setWidth 64) s) ∧
    exec (.ror16 rd rs rc) s =
      .next (afterW rd (((operandBits 16 rs s).rotateRight (countBits rc s)).setWidth 64) s) ∧
    exec (.rol24 rd rs rc) s =
      .next (afterW rd (((operandBits 24 rs s).rotateLeft (countBits rc s)).setWidth 64) s) ∧
    exec (.ror24 rd rs rc) s =
      .next (afterW rd (((operandBits 24 rs s).rotateRight (countBits rc s)).setWidth 64) s) ∧
    exec (.rol32 rd rs rc) s =
      .next (afterW rd (((operandBits 32 rs s).rotateLeft (countBits rc s)).setWidth 64) s) ∧
    exec (.ror32 rd rs rc) s =
      .next (afterW rd (((operandBits 32 rs s).rotateRight (countBits rc s)).setWidth 64) s)

/-- 41_wordarith.md R107: the sum of the listed registers modulo 2^32, and TOO_FEW_TERMS for fewer than two. -/
def Obligations.Add32Sum : Prop :=
  ∀ (rd : WReg) (list : BitVec 16) (s : State),
    let n := (Finset.univ.filter fun i : WReg => list.getLsbD i).card
    (2 ≤ n → exec (.add32 rd list) s = .next (afterW rd (BitVec.ofNat 64
      ((∑ i : WReg, if list.getLsbD i then (wreg i s).toNat % 2 ^ 32 else 0) % 2 ^ 32)) s)) ∧
    (n < 2 → exec (.add32 rd list) s = .next (afterFault 2 0x04 s))

/-- 41_wordarith.md R108, R109. -/
def Obligations.Sub32AndMul32 : Prop :=
  ∀ (rd rs rt : WReg) (s : State),
    exec (.sub32 rd rs rt) s =
      .next (afterW rd ((operandBits 32 rs s - operandBits 32 rt s).setWidth 64) s) ∧
    exec (.mul32 rd rs rt) s =
      .next (afterW rd ((operandBits 32 rs s * operandBits 32 rt s).setWidth 64) s)

/-- 41_wordarith.md R110, R111: the parity of the number of 1 bits. -/
def Obligations.ParityIsBitCountParity : Prop :=
  ∀ (rd rs : WReg) (s : State),
    exec (.par8 rd rs) s = .next (afterW rd (BitVec.ofNat 64
      ((Finset.univ.filter fun j : Fin 8 => (wreg rs s).getLsbD j).card % 2)) s) ∧
    exec (.par32 rd rs) s = .next (afterW rd (BitVec.ofNat 64
      ((Finset.univ.filter fun j : Fin 32 => (wreg rs s).getLsbD j).card % 2)) s)

/-- 41_wordarith.md R112 and 42_widearith.md R136: rotating left and then right by the same count gives the operand
back, reduced to the width. So does right and then left. At 48 bits this is said of counts up to 16. -/
def Obligations.RotateRoundTrip : Prop :=
  ∀ (rd rs rc : WReg) (s : State), rd ≠ rc →
    (∃ t u, exec (.rol16 rd rs rc) s = .next t ∧ exec (.ror16 rd rd rc) t = .next u ∧
      wreg rd u = (operandBits 16 rs s).setWidth 64) ∧
    (∃ t u, exec (.ror16 rd rs rc) s = .next t ∧ exec (.rol16 rd rd rc) t = .next u ∧
      wreg rd u = (operandBits 16 rs s).setWidth 64) ∧
    (∃ t u, exec (.rol24 rd rs rc) s = .next t ∧ exec (.ror24 rd rd rc) t = .next u ∧
      wreg rd u = (operandBits 24 rs s).setWidth 64) ∧
    (∃ t u, exec (.ror24 rd rs rc) s = .next t ∧ exec (.rol24 rd rd rc) t = .next u ∧
      wreg rd u = (operandBits 24 rs s).setWidth 64) ∧
    (∃ t u, exec (.rol32 rd rs rc) s = .next t ∧ exec (.ror32 rd rd rc) t = .next u ∧
      wreg rd u = (operandBits 32 rs s).setWidth 64) ∧
    (∃ t u, exec (.ror32 rd rs rc) s = .next t ∧ exec (.rol32 rd rd rc) t = .next u ∧
      wreg rd u = (operandBits 32 rs s).setWidth 64) ∧
    (∃ t u, exec (.rol64 rd rs rc) s = .next t ∧ exec (.ror64 rd rd rc) t = .next u ∧
      wreg rd u = wreg rs s) ∧
    (∃ t u, exec (.ror64 rd rs rc) s = .next t ∧ exec (.rol64 rd rd rc) t = .next u ∧
      wreg rd u = wreg rs s) ∧
    (countBits rc s ≤ 16 →
      (∃ t u, exec (.rol48 rd rs rc) s = .next t ∧ exec (.ror48 rd rd rc) t = .next u ∧
        wreg rd u = (operandBits 48 rs s).setWidth 64) ∧
      ∃ t u, exec (.ror48 rd rs rc) s = .next t ∧ exec (.rol48 rd rd rc) t = .next u ∧
        wreg rd u = (operandBits 48 rs s).setWidth 64)

/-! ### WideArith -/

/-- 42_widearith.md R121: the sum of the listed registers modulo 2^64, and TOO_FEW_TERMS for fewer than two. -/
def Obligations.Add64Sum : Prop :=
  ∀ (rd : WReg) (list : BitVec 16) (s : State),
    let n := (Finset.univ.filter fun i : WReg => list.getLsbD i).card
    (2 ≤ n → exec (.add64 rd list) s = .next (afterW rd (BitVec.ofNat 64
      ((∑ i : WReg, if list.getLsbD i then (wreg i s).toNat else 0) % 2 ^ 64)) s)) ∧
    (n < 2 → exec (.add64 rd list) s = .next (afterFault 2 0x04 s))

/-- 42_widearith.md R123 to R125, bit by bit, for a list of at least two registers: AND has a bit when every listed
register has it, OR when one has it, XOR when an odd number have it. A shorter list raises TOO_FEW_TERMS. -/
def Obligations.LogicOverTerms : Prop :=
  ∀ (rd : WReg) (list : BitVec 16) (s : State),
    let n := (Finset.univ.filter fun i : WReg => list.getLsbD i).card
    (2 ≤ n →
      (∃ v, exec (.and64 rd list) s = .next (afterW rd v s) ∧
        ∀ j, j < 64 → (v.getLsbD j = true ↔ ∀ i : WReg, list.getLsbD i → (wreg i s).getLsbD j)) ∧
      (∃ v, exec (.or64 rd list) s = .next (afterW rd v s) ∧
        ∀ j, j < 64 → (v.getLsbD j = true ↔ ∃ i : WReg, list.getLsbD i ∧ (wreg i s).getLsbD j)) ∧
      ∃ v, exec (.xor64 rd list) s = .next (afterW rd v s) ∧
        ∀ j, j < 64 → (v.getLsbD j = true ↔
          (Finset.univ.filter fun i : WReg => list.getLsbD i ∧ (wreg i s).getLsbD j).card % 2 = 1)) ∧
    (n < 2 →
      exec (.and64 rd list) s = .next (afterFault 2 0x04 s) ∧
      exec (.or64 rd list) s = .next (afterFault 2 0x04 s) ∧
      exec (.xor64 rd list) s = .next (afterFault 2 0x04 s))

/-- 42_widearith.md R122, R126, R127. -/
def Obligations.WideArithmetic : Prop :=
  ∀ (rd rs rt : WReg) (s : State),
    exec (.sub64 rd rs rt) s = .next (afterW rd (wreg rs s - wreg rt s) s) ∧
    exec (.not64 rd rs) s = .next (afterW rd (~~~ wreg rs s) s) ∧
    exec (.mul64 rd rs rt) s = .next (afterW rd (wreg rs s * wreg rt s) s)

/-- The document's datapaths give what the commands write: the half-word formula of MUL32 (41_wordarith.md R109), the limb
form of MUL64 (42_widearith.md R127), the hi/lo form of ADD64 of two terms with its carry, of SUB64 with its borrow, of
AND64, OR64 and XOR64 of two terms and of NOT64 (R120), and the hi/lo cases of the 64-bit rotates and shifts
(R128 to R131). -/
def Obligations.HalfWordDatapaths : Prop :=
  ∀ (rd rs rt : WReg) (s : State),
    let a := wreg rs s
    let b := wreg rt s
    let c := countBits rt s
    let half (v : Word) (k : Nat) := v.toNat / 2 ^ (16 * k) % 2 ^ 16
    (∃ v, exec (.mul32 rd rs rt) s = .next (afterW rd v s) ∧
      v.toNat = (half a 0 * half b 0 + (half a 1 * half b 0 + half a 0 * half b 1) % 2 ^ 16 * 2 ^ 16) % 2 ^ 32) ∧
    (∃ v, exec (.mul64 rd rs rt) s = .next (afterW rd v s) ∧
      let s₀ := half a 0 * half b 0
      let s₁ := s₀ / 2 ^ 16 + half a 0 * half b 1 + half a 1 * half b 0
      let s₂ := s₁ / 2 ^ 16 + half a 0 * half b 2 + half a 1 * half b 1 + half a 2 * half b 0
      let s₃ := s₂ / 2 ^ 16 + half a 0 * half b 3 + half a 1 * half b 2 + half a 2 * half b 1 + half a 3 * half b 0
      half v 0 = s₀ % 2 ^ 16 ∧ half v 1 = s₁ % 2 ^ 16 ∧ half v 2 = s₂ % 2 ^ 16 ∧ half v 3 = s₃ % 2 ^ 16) ∧
    (∀ list : BitVec 16, rs ≠ rt → (∀ i : WReg, list.getLsbD i = true ↔ i = rs ∨ i = rt) →
      (∃ v, exec (.add64 rd list) s = .next (afterW rd v s) ∧ pairOf v = addPair (pairOf a) (pairOf b)) ∧
      (∃ v, exec (.and64 rd list) s = .next (afterW rd v s) ∧
        pairOf v = bothHalves (· &&& ·) (pairOf a) (pairOf b)) ∧
      (∃ v, exec (.or64 rd list) s = .next (afterW rd v s) ∧
        pairOf v = bothHalves (· ||| ·) (pairOf a) (pairOf b)) ∧
      ∃ v, exec (.xor64 rd list) s = .next (afterW rd v s) ∧
        pairOf v = bothHalves (· ^^^ ·) (pairOf a) (pairOf b)) ∧
    (∃ v, exec (.sub64 rd rs rt) s = .next (afterW rd v s) ∧ pairOf v = subPair (pairOf a) (pairOf b)) ∧
    (∃ v, exec (.not64 rd rs) s = .next (afterW rd v s) ∧ pairOf v = (~~~ (pairOf a).1, ~~~ (pairOf a).2)) ∧
    (∃ v, exec (.rol64 rd rs rt) s = .next (afterW rd v s) ∧ pairOf v = rolPair (c % 64) (pairOf a)) ∧
    (∃ v, exec (.ror64 rd rs rt) s = .next (afterW rd v s) ∧ pairOf v = rorPair (c % 64) (pairOf a)) ∧
    (∃ v, exec (.shl64 rd rs rt) s = .next (afterW rd v s) ∧ pairOf v = shlPair c (pairOf a)) ∧
    ∃ v, exec (.shr64 rd rs rt) s = .next (afterW rd v s) ∧ pairOf v = shrPair c (pairOf a)

/-- 42_widearith.md R128 to R131. A rotate count is reduced modulo 64, a shift count is not. -/
def Obligations.WideRotatesAndShifts : Prop :=
  ∀ (rd rs rc : WReg) (s : State),
    exec (.rol64 rd rs rc) s = .next (afterW rd ((wreg rs s).rotateLeft (countBits rc s)) s) ∧
    exec (.ror64 rd rs rc) s = .next (afterW rd ((wreg rs s).rotateRight (countBits rc s)) s) ∧
    exec (.shl64 rd rs rc) s = .next (afterW rd (wreg rs s <<< countBits rc s) s) ∧
    exec (.shr64 rd rs rc) s = .next (afterW rd (wreg rs s >>> countBits rc s) s)

/-- 42_widearith.md R132, R133: 48-bit rotates by up to 16, and ROT48_RANGE above. -/
def Obligations.Rotates48 : Prop :=
  ∀ (rd rs rc : WReg) (s : State),
    (countBits rc s ≤ 16 →
      exec (.rol48 rd rs rc) s =
        .next (afterW rd (((operandBits 48 rs s).rotateLeft (countBits rc s)).setWidth 64) s) ∧
      exec (.ror48 rd rs rc) s =
        .next (afterW rd (((operandBits 48 rs s).rotateRight (countBits rc s)).setWidth 64) s)) ∧
    (16 < countBits rc s →
      exec (.rol48 rd rs rc) s = .next (afterFault 2 0x0A s) ∧
      exec (.ror48 rd rs rc) s = .next (afterFault 2 0x0A s))

/-- 42_widearith.md R134, R135, odd operand: the result is the one number below 2^W whose product with the operand is 1
modulo 2^W. -/
def Obligations.ModularInverse : Prop :=
  ∀ (rd rs : WReg) (s : State), (wreg rs s).toNat % 2 = 1 →
    (∃ u, exec (.minv32 rd rs) s = .next (afterW rd u s) ∧ u.toNat < 2 ^ 32 ∧
      (wreg rs s).toNat % 2 ^ 32 * u.toNat % 2 ^ 32 = 1 ∧
      ∀ v, v < 2 ^ 32 → (wreg rs s).toNat % 2 ^ 32 * v % 2 ^ 32 = 1 → v = u.toNat) ∧
    ∃ u, exec (.minv64 rd rs) s = .next (afterW rd u s) ∧ (wreg rs s).toNat * u.toNat % 2 ^ 64 = 1 ∧
      ∀ v, v < 2 ^ 64 → (wreg rs s).toNat * v % 2 ^ 64 = 1 → v = u.toNat

/-- 42_widearith.md R134, R135, even operand: no fault. The destination receives a 32-bit or 64-bit value of which nothing
is said, and nothing else that the spec names changes. `draws` is the model's own counter of free values (log 4). -/
def Obligations.ModularInverseOfEven : Prop :=
  ∀ (rd rs : WReg) (s : State), (wreg rs s).toNat % 2 = 0 →
    (∃ (u : BitVec 32) (d : Nat),
      exec (.minv32 rd rs) s = .next { afterW rd (u.setWidth 64) s with draws := d }) ∧
    ∃ (u : BitVec 64) (d : Nat), exec (.minv64 rd rs) s = .next { afterW rd u s with draws := d }

/-! ### ByteArith -/

/-- 43_bytearith.md R151 to R154: a buffer as a big-endian integer of its own length, modulo 2^(8·L). Nothing outside the
destination buffer changes but `pc`. -/
def Obligations.BufferArithmetic : Prop :=
  ∀ (bd : BReg) (s : State), Memory.wf s.mem →
    (∀ list, NoFault (.addb bd list) s → ∃ t, exec (.addb bd list) s = .next t ∧ WroteOnly bd s t ∧
      bufferValue bd t = (bufferValue bd s + ∑ i : BReg, if list.getLsbD i then bufferValue i s else 0) %
        2 ^ (8 * bufLen bd s)) ∧
    (∀ rs, NoFault (.addbs bd rs) s → ∃ t, exec (.addbs bd rs) s = .next t ∧ WroteOnly bd s t ∧
      bufferValue bd t = (bufferValue bd s + countBits rs s) % 2 ^ (8 * bufLen bd s)) ∧
    (∀ bs, NoFault (.subb bd bs) s → ∃ t, exec (.subb bd bs) s = .next t ∧ WroteOnly bd s t ∧
      (bufferValue bd t : Int) = ((bufferValue bd s : Int) - bufferValue bs s) % (2 ^ (8 * bufLen bd s) : Nat)) ∧
    ∀ bs, NoFault (.mulb bd bs) s → ∃ t, exec (.mulb bd bs) s = .next t ∧ WroteOnly bd s t ∧
      bufferValue bd t = bufferValue bd s * bufferValue bs s % 2 ^ (8 * bufLen bd s)

/-- 43_bytearith.md R155, R156, byte by byte: NOTB writes the complement of the source, XORB flips a bit of the destination
once for every listed buffer that has it. -/
def Obligations.BufferLogic : Prop :=
  ∀ (bd : BReg) (s : State), Memory.wf s.mem →
    (∀ bs, NoFault (.notb bd bs) s → ∃ t, exec (.notb bd bs) s = .next t ∧ WroteOnly bd s t ∧
      ∀ j, j < bufLen bd s → readByte t.mem (bufBase bd s + j) = ~~~ readByte s.mem (bufBase bs s + j)) ∧
    ∀ list, NoFault (.xorb bd list) s → ∃ t, exec (.xorb bd list) s = .next t ∧ WroteOnly bd s t ∧
      ∀ j, j < bufLen bd s → ∀ k, k < 8 →
        ((readByte t.mem (bufBase bd s + j)).getLsbD k = true ↔
          ((Finset.univ.filter fun i : BReg =>
              list.getLsbD i ∧ (readByte s.mem (bufBase i s + j)).getLsbD k).card +
            (if (readByte s.mem (bufBase bd s + j)).getLsbD k then 1 else 0)) % 2 = 1)

/-- 43_bytearith.md R157, R158: the buffer, as one big-endian field of 8·L bits, rotated by `count mod 8·L`. An empty
buffer stays empty. -/
def Obligations.BufferRotates : Prop :=
  ∀ (bd : BReg) (rc : WReg) (s : State), Memory.wf s.mem →
    (NoFault (.rolb bd rc) s → ∃ t, exec (.rolb bd rc) s = .next t ∧ WroteOnly bd s t ∧
      bufferValue bd t =
        ((BitVec.ofNat (8 * bufLen bd s) (bufferValue bd s)).rotateLeft (countBits rc s)).toNat) ∧
    (NoFault (.rorb bd rc) s → ∃ t, exec (.rorb bd rc) s = .next t ∧ WroteOnly bd s t ∧
      bufferValue bd t =
        ((BitVec.ofNat (8 * bufLen bd s) (bufferValue bd s)).rotateRight (countBits rc s)).toNat)

/-- 43_bytearith.md R159: a rotate by a whole number of bytes moves the bytes. After ROLB by 8·k the byte at index `j` is the
one that was at `(j + k) mod L`. After RORB it is at `(j + k) mod L` that the byte from index `j` stands. -/
def Obligations.WholeByteRotates : Prop :=
  ∀ (bd : BReg) (rc : WReg) (s : State) (k : Nat), Memory.wf s.mem → ¬ OutOfRange bd s → countBits rc s = 8 * k →
    (∃ t, exec (.rolb bd rc) s = .next t ∧ ∀ j, j < bufLen bd s →
      readByte t.mem (bufBase bd s + j) = readByte s.mem (bufBase bd s + (j + k) % bufLen bd s)) ∧
    ∃ t, exec (.rorb bd rc) s = .next t ∧ ∀ j, j < bufLen bd s →
      readByte t.mem (bufBase bd s + (j + k) % bufLen bd s) = readByte s.mem (bufBase bd s + j)

/-- 43_bytearith.md R160: RORB after ROLB by the same count gives every byte of M back, for any length and any count. -/
def Obligations.BufferRotateRoundTrip : Prop :=
  ∀ (bd : BReg) (rc : WReg) (s : State), Memory.wf s.mem → ¬ OutOfRange bd s →
    ∃ t u, exec (.rolb bd rc) s = .next t ∧ exec (.rorb bd rc) t = .next u ∧
      ∀ a, readByte u.mem a = readByte s.mem a

/-! ### CodecUtils -/

/-- 44_codec.md R171 to R176. -/
def Obligations.UnpackWords : Prop :=
  ∀ (rd : WReg) (bs : BReg) (s : State),
    (NoFault (.unpk16be rd bs) s → ∃ t, exec (.unpk16be rd bs) s = .next t ∧ Unpacked beValue 2 rd bs s t) ∧
    (NoFault (.unpk16le rd bs) s → ∃ t, exec (.unpk16le rd bs) s = .next t ∧ Unpacked leValue 2 rd bs s t) ∧
    (NoFault (.unpk32be rd bs) s → ∃ t, exec (.unpk32be rd bs) s = .next t ∧ Unpacked beValue 4 rd bs s t) ∧
    (NoFault (.unpk32le rd bs) s → ∃ t, exec (.unpk32le rd bs) s = .next t ∧ Unpacked leValue 4 rd bs s t) ∧
    (NoFault (.unpk64be rd bs) s → ∃ t, exec (.unpk64be rd bs) s = .next t ∧ Unpacked beValue 8 rd bs s t) ∧
    (NoFault (.unpk64le rd bs) s → ∃ t, exec (.unpk64le rd bs) s = .next t ∧ Unpacked leValue 8 rd bs s t)

/-- 44_codec.md R177 to R183. -/
def Obligations.PackWords : Prop :=
  ∀ (bd : BReg) (rs : WReg) (s : State), Memory.wf s.mem →
    (NoFault (.pack16be bd rs) s → ∃ t, exec (.pack16be bd rs) s = .next t ∧ Packed beValue 2 bd rs s t) ∧
    (NoFault (.pack16le bd rs) s → ∃ t, exec (.pack16le bd rs) s = .next t ∧ Packed leValue 2 bd rs s t) ∧
    (NoFault (.pack32be bd rs) s → ∃ t, exec (.pack32be bd rs) s = .next t ∧ Packed beValue 4 bd rs s t) ∧
    (NoFault (.pack32le bd rs) s → ∃ t, exec (.pack32le bd rs) s = .next t ∧ Packed leValue 4 bd rs s t) ∧
    (NoFault (.pack64be bd rs) s → ∃ t, exec (.pack64be bd rs) s = .next t ∧ Packed beValue 8 bd rs s t) ∧
    (NoFault (.pack64le bd rs) s → ∃ t, exec (.pack64le bd rs) s = .next t ∧ Packed leValue 8 bd rs s t)

/-- 44_codec.md R177: "unpack followed by pack with the same width, byte order and registers rewrites the same
bytes". -/
def Obligations.UnpackThenPack : Prop :=
  ∀ (i : BReg) (r : WReg) (s : State), Memory.wf s.mem →
    (NoFault (.unpk16be r i) s → ∃ t u, exec (.unpk16be r i) s = .next t ∧ exec (.pack16be i r) t = .next u ∧
      ∀ a, readByte u.mem a = readByte s.mem a) ∧
    (NoFault (.unpk16le r i) s → ∃ t u, exec (.unpk16le r i) s = .next t ∧ exec (.pack16le i r) t = .next u ∧
      ∀ a, readByte u.mem a = readByte s.mem a) ∧
    (NoFault (.unpk32be r i) s → ∃ t u, exec (.unpk32be r i) s = .next t ∧ exec (.pack32be i r) t = .next u ∧
      ∀ a, readByte u.mem a = readByte s.mem a) ∧
    (NoFault (.unpk32le r i) s → ∃ t u, exec (.unpk32le r i) s = .next t ∧ exec (.pack32le i r) t = .next u ∧
      ∀ a, readByte u.mem a = readByte s.mem a) ∧
    (NoFault (.unpk64be r i) s → ∃ t u, exec (.unpk64be r i) s = .next t ∧ exec (.pack64be i r) t = .next u ∧
      ∀ a, readByte u.mem a = readByte s.mem a) ∧
    (NoFault (.unpk64le r i) s → ∃ t u, exec (.unpk64le r i) s = .next t ∧ exec (.pack64le i r) t = .next u ∧
      ∀ a, readByte u.mem a = readByte s.mem a)

/-- 44_codec.md R184, R185: the bytes of every group are reversed, the order of the groups is kept. Both commands make the
same permutation. -/
def Obligations.SplitAndCombine : Prop :=
  ∀ (bd bs : BReg) (rc : WReg) (s : State), Memory.wf s.mem → NoFault (.splitle bd bs rc) s →
    ∃ t, exec (.splitle bd bs rc) s = .next t ∧ exec (.comble bd bs rc) s = .next t ∧ WroteOnly bd s t ∧
      ∀ g j, g < bufLen bs s / countBits rc s → j < countBits rc s →
        readByte t.mem (bufBase bd s + (g * countBits rc s + j)) =
          readByte s.mem (bufBase bs s + (g * countBits rc s + (countBits rc s - 1 - j)))

/-- 44_codec.md R185: COMBLE undoes SPLITLE. The bytes of the source stand in the third buffer. -/
def Obligations.CombineUndoesSplit : Prop :=
  ∀ (x y z : BReg) (rc : WReg) (s : State), Memory.wf s.mem → NoFault (.splitle y x rc) s →
    NoFault (.comble z y rc) s →
    ∃ t u, exec (.splitle y x rc) s = .next t ∧ exec (.comble z y rc) t = .next u ∧
      ∀ j, j < bufLen x s → readByte u.mem (bufBase z s + j) = readByte s.mem (bufBase x s + j)

/-! ### BlockProcessor -/

/-- 45_blockprocessor.md R202, R203, R206: TBLK emits `floor(len/B) + 1` blocks: the message, the marker, zeros. -/
def Obligations.SimpleTransform : Prop :=
  ∀ (rx : WReg) (bs : BReg) (rt : WReg) (s : State), NoFault (.tblk rx bs rt) s →
    let B := countBits rt s
    exec (.tblk rx bs rt) s = .next (afterEmit
      (streamRecords .tblk B (bufLen bs s / B + 1) false (wreg rx s) (simpleStream bs s)) s)

/-- 45_blockprocessor.md R202, R204, R207: TBLKMD emits the whole blocks of the message and one or two blocks of padded
tail. -/
def Obligations.MerkleDamgardTransform : Prop :=
  ∀ (rx : WReg) (bs : BReg) (rt : WReg) (s : State), NoFault (.tblkmd rx bs rt) s →
    let B := countBits rt s
    let n := bufLen bs s / B + mdTailBlocks s.padcfg B (bufLen bs s)
    exec (.tblkmd rx bs rt) s = .next (afterEmit
      (streamRecords .tblkmd B n false (wreg rx s) (mdStream bs (n * B) s)) s)

/-- 45_blockprocessor.md R208: TBLKBC emits `ceil(len/B)` blocks: the message, then zeros. -/
def Obligations.CipherTransform : Prop :=
  ∀ (rx : WReg) (bs : BReg) (rt : WReg) (s : State), NoFault (.tblkbc rx bs rt) s →
    let B := countBits rt s / 8
    exec (.tblkbc rx bs rt) s = .next (afterEmit
      (streamRecords .tblkbc B ((bufLen bs s + B - 1) / B) true (wreg rx s) (cipherStream bs s)) s)

/-- The worked example of 45_blockprocessor.md R204 and R210: the padded block of "abc". -/
def Obligations.AbcBlock : Prop :=
  ∀ (rx : WReg) (bs : BReg) (rt : WReg) (s : State), ¬ OutOfRange bs s → countBits rt s = 64 →
    s.padcfg = 0x08000080#32 → bufferBytes bs s = [0x61#8, 0x62#8, 0x63#8] →
    exec (.tblkmd rx bs rt) s = .next (afterEmit
      [{ op := .tblkmd, k := 0,
         block := [0x61#8, 0x62#8, 0x63#8, 0x80#8] ++ List.replicate 52 0#8 ++ List.replicate 7 0#8 ++ [0x18#8],
         destOffset := none, extra := wreg rx s }] s)

/-- 45_blockprocessor.md R210: the blocks of a hash transform joined have the message as a prefix. Those of TBLKBC are the
message and fewer than B zeros. Every block has exactly B bytes (R209). -/
def Obligations.BlocksCarryTheMessage : Prop :=
  ∀ (rx : WReg) (bs : BReg) (rt : WReg) (s : State),
    (∀ i, i = .tblk rx bs rt ∨ i = .tblkmd rx bs rt → NoFault i s →
      ∃ recs, exec i s = .next (afterEmit recs s) ∧ (∀ e ∈ recs, e.block.length = countBits rt s) ∧
        recs.length ≠ 0 ∧ bufferBytes bs s <+: (recs.map (·.block)).flatten) ∧
    (NoFault (.tblkbc rx bs rt) s →
      ∃ recs n, exec (.tblkbc rx bs rt) s = .next (afterEmit recs s) ∧
        (∀ e ∈ recs, e.block.length = countBits rt s / 8) ∧ n < countBits rt s / 8 ∧
        (recs.map (·.block)).flatten = bufferBytes bs s ++ List.replicate n 0#8)

/-- 45_blockprocessor.md R201: the record-by-record driver. While record `n` waits to be accepted, EMIT holds the records
before it, DRVSTAT says which of the two states the driver is in and DRVOFF which byte comes next. When all are accepted,
the unit is where the one-step command puts it (the two granularities are the model's choice, log 8). -/
def Obligations.DriverRefinesCommand : Prop :=
  ∀ (rx : WReg) (bs : BReg) (rt : WReg) (s : State) (i : Instr) (r : TransformRun) (B : Nat),
    s.drvstat = 0#32 → s.drvoff = 0#32 → NoFault i s →
    (i = .tblk rx bs rt ∧ r = tblkRun rx rt (bufferBytes bs s) s ∧ B = countBits rt s ∨
     i = .tblkmd rx bs rt ∧ r = tblkmdRun rx rt (bufferBytes bs s) s ∧ B = countBits rt s ∨
     i = .tblkbc rx bs rt ∧ r = tblkbcRun rx rt (bufferBytes bs s) s ∧ B = countBits rt s / 8) →
    exec i s = .next (acceptRecords r.pending.length (r, beginRun r s)).2 ∧
    ∀ n, n < r.pending.length →
      (acceptRecords n (r, beginRun r s)).2 =
        { s with emitted := s.emitted ++ r.pending.take n,
                 drvstat := if n < bufLen bs s / B then 1#32 else 2#32,
                 drvoff := BitVec.ofNat 32 (min (n * B) (bufLen bs s)) }

end
end

