-- ==== Sys2Proof/Laws/PerInstr.lean ====
section
/-! SUPPORT. Facts about every command as syntax, one lemma per constructor. -/

namespace Sys2Proof.Laws

/-! ### The words of the five formats -/

theorem wordR_lt {op : Nat} (h : op < 256) (a b c : Fin 16) : wordR op a b c < 2 ^ 32 := by
  have := a.isLt; have := b.isLt; have := c.isLt
  simp only [wordR]; omega

theorem wordR_opcode (op : Nat) (h : op < 256) (a b c : Fin 16) : bits (wordR op a b c) 31 24 = op := by
  have := a.isLt; have := b.isLt; have := c.isLt
  simp [bits, wordR]; omega

theorem wordL_lt {op : Nat} (h : op < 256) (a : Fin 16) (list : BitVec 16) : wordL op a list < 2 ^ 32 := by
  have := a.isLt; have := list.isLt
  simp only [wordL]; omega

theorem wordL_opcode (op : Nat) (h : op < 256) (a : Fin 16) (list : BitVec 16) :
    bits (wordL op a list) 31 24 = op := by
  have := a.isLt; have := list.isLt
  simp [bits, wordL]; omega

theorem wordI_lt {pos z : Nat} (hp : pos < 4) (hz : z < 2) (a : Fin 16) (imm16 : BitVec 16) :
    wordI a pos z imm16 < 2 ^ 32 := by
  have := a.isLt; have := imm16.isLt
  simp only [wordI]; omega

theorem wordI_opcode {pos z : Nat} (hp : pos < 4) (hz : z < 2) (a : Fin 16) (imm16 : BitVec 16) :
    bits (wordI a pos z imm16) 31 24 = 2 := by
  have := a.isLt; have := imm16.isLt
  simp [bits, wordI]; omega

theorem wordS_lt {op csr : Nat} (h : op < 256) (hc : csr < 4096) (a : Fin 16) : wordS op a csr < 2 ^ 32 := by
  have := a.isLt
  simp only [wordS]; omega

theorem wordS_opcode {csr : Nat} (op : Nat) (h : op < 256) (hc : csr < 4096) (a : Fin 16) :
    bits (wordS op a csr) 31 24 = op := by
  have := a.isLt
  simp [bits, wordS]; omega

/-! ### The fields of a format R word -/

theorem wordR_fields (op : Nat) (a b c : Fin 16) :
    fieldA (wordR op a b c) = a ∧ fieldB (wordR op a b c) = b ∧ fieldC (wordR op a b c) = c ∧
      bits (wordR op a b c) 11 0 = 0 := by
  have := a.isLt; have := b.isLt; have := c.isLt
  refine ⟨Fin.ext ?_, Fin.ext ?_, Fin.ext ?_, ?_⟩ <;>
    simp [fieldA, fieldB, fieldC, regField, bits, wordR] <;> omega

theorem wordL_fields (op : Nat) (a : Fin 16) (list : BitVec 16) :
    fieldA (wordL op a list) = a ∧ field16 (wordL op a list) = list ∧ bits (wordL op a list) 19 16 = 0 := by
  have := a.isLt; have := list.isLt
  refine ⟨Fin.ext ?_, BitVec.eq_of_toNat_eq ?_, ?_⟩ <;>
    simp [fieldA, field16, regField, bits, wordL] <;> omega

/-! ### EncodeOpcode: the word of a command is its encoding, and its opcode is that of its row -/

/-- A well-formed command fits its 32-bit word, and the opcode field of the word is the one its row of
30_encoding.md R78 gives. -/
def EncodeOpcode.Statement (i : Instr) : Prop :=
  i.WellFormed →
    (encode i).toNat = encodeNat i ∧ bits (encodeNat i) 31 24 = bits (rowMatch i).toNat 31 24

theorem encode_toNat {i : Instr} (h : encodeNat i < 2 ^ 32) : (encode i).toNat = encodeNat i := by
  simp only [encode, BitVec.toNat_ofNat]
  exact Nat.mod_eq_of_lt h

theorem EncodeOpcode.nop : EncodeOpcode.Statement .nop :=
  fun _ => ⟨encode_toNat (by decide), by decide⟩

theorem EncodeOpcode.halt : EncodeOpcode.Statement .halt :=
  fun _ => ⟨encode_toNat (by decide), by decide⟩

theorem EncodeOpcode.ldiz (rd : WReg) (pos : Nat) (imm16 : BitVec 16) : EncodeOpcode.Statement (.ldiz rd pos imm16) :=
  fun h =>
  have hp : pos < 4 := of_decide_eq_true h
  ⟨encode_toNat (wordI_lt hp (z := 1) (by decide) _ _), (wordI_opcode (z := 1) hp (by decide) _ _).trans (by simp [rowMatch, bits])⟩

theorem EncodeOpcode.ldik (rd : WReg) (pos : Nat) (imm16 : BitVec 16) : EncodeOpcode.Statement (.ldik rd pos imm16) :=
  fun h =>
  have hp : pos < 4 := of_decide_eq_true h
  ⟨encode_toNat (wordI_lt hp (z := 0) (by decide) _ _), (wordI_opcode (z := 0) hp (by decide) _ _).trans (by simp [rowMatch, bits])⟩

theorem EncodeOpcode.mov (rd : WReg) (rs : WReg) : EncodeOpcode.Statement (.mov rd rs) :=
  fun _ => ⟨encode_toNat (wordR_lt (op := 0x03) (by decide) _ _ _), (wordR_opcode 0x03 (by decide) _ _ _).trans (by simp [rowMatch, bits])⟩

theorem EncodeOpcode.setb (bd : BReg) (rs : WReg) (rt : WReg) : EncodeOpcode.Statement (.setb bd rs rt) :=
  fun _ => ⟨encode_toNat (wordR_lt (op := 0x04) (by decide) _ _ _), (wordR_opcode 0x04 (by decide) _ _ _).trans (by simp [rowMatch, bits])⟩

theorem EncodeOpcode.csrr (rd : WReg) (csr : Nat) : EncodeOpcode.Statement (.csrr rd csr) :=
  fun h =>
  have hc : csr < 4096 := of_decide_eq_true h
  ⟨encode_toNat (wordS_lt (op := 0x05) (by decide) hc _), (wordS_opcode 0x05 (by decide) hc _).trans (by simp [rowMatch, bits])⟩

theorem EncodeOpcode.csrw (rs : WReg) (csr : Nat) : EncodeOpcode.Statement (.csrw rs csr) :=
  fun h =>
  have hc : csr < 4096 := of_decide_eq_true h
  ⟨encode_toNat (wordS_lt (op := 0x06) (by decide) hc _), (wordS_opcode 0x06 (by decide) hc _).trans (by simp [rowMatch, bits])⟩

theorem EncodeOpcode.rol16 (rd : WReg) (rs : WReg) (rc : WReg) : EncodeOpcode.Statement (.rol16 rd rs rc) :=
  fun _ => ⟨encode_toNat (wordR_lt (op := 0x10) (by decide) _ _ _), (wordR_opcode 0x10 (by decide) _ _ _).trans (by simp [rowMatch, bits])⟩

theorem EncodeOpcode.ror16 (rd : WReg) (rs : WReg) (rc : WReg) : EncodeOpcode.Statement (.ror16 rd rs rc) :=
  fun _ => ⟨encode_toNat (wordR_lt (op := 0x11) (by decide) _ _ _), (wordR_opcode 0x11 (by decide) _ _ _).trans (by simp [rowMatch, bits])⟩

theorem EncodeOpcode.rol24 (rd : WReg) (rs : WReg) (rc : WReg) : EncodeOpcode.Statement (.rol24 rd rs rc) :=
  fun _ => ⟨encode_toNat (wordR_lt (op := 0x12) (by decide) _ _ _), (wordR_opcode 0x12 (by decide) _ _ _).trans (by simp [rowMatch, bits])⟩

theorem EncodeOpcode.ror24 (rd : WReg) (rs : WReg) (rc : WReg) : EncodeOpcode.Statement (.ror24 rd rs rc) :=
  fun _ => ⟨encode_toNat (wordR_lt (op := 0x13) (by decide) _ _ _), (wordR_opcode 0x13 (by decide) _ _ _).trans (by simp [rowMatch, bits])⟩

theorem EncodeOpcode.rol32 (rd : WReg) (rs : WReg) (rc : WReg) : EncodeOpcode.Statement (.rol32 rd rs rc) :=
  fun _ => ⟨encode_toNat (wordR_lt (op := 0x14) (by decide) _ _ _), (wordR_opcode 0x14 (by decide) _ _ _).trans (by simp [rowMatch, bits])⟩

theorem EncodeOpcode.ror32 (rd : WReg) (rs : WReg) (rc : WReg) : EncodeOpcode.Statement (.ror32 rd rs rc) :=
  fun _ => ⟨encode_toNat (wordR_lt (op := 0x15) (by decide) _ _ _), (wordR_opcode 0x15 (by decide) _ _ _).trans (by simp [rowMatch, bits])⟩

theorem EncodeOpcode.add32 (rd : WReg) (list : BitVec 16) : EncodeOpcode.Statement (.add32 rd list) :=
  fun _ => ⟨encode_toNat (wordL_lt (op := 0x16) (by decide) _ _), (wordL_opcode 0x16 (by decide) _ _).trans (by simp [rowMatch, bits])⟩

theorem EncodeOpcode.sub32 (rd : WReg) (rs : WReg) (rt : WReg) : EncodeOpcode.Statement (.sub32 rd rs rt) :=
  fun _ => ⟨encode_toNat (wordR_lt (op := 0x17) (by decide) _ _ _), (wordR_opcode 0x17 (by decide) _ _ _).trans (by simp [rowMatch, bits])⟩

theorem EncodeOpcode.mul32 (rd : WReg) (rs : WReg) (rt : WReg) : EncodeOpcode.Statement (.mul32 rd rs rt) :=
  fun _ => ⟨encode_toNat (wordR_lt (op := 0x18) (by decide) _ _ _), (wordR_opcode 0x18 (by decide) _ _ _).trans (by simp [rowMatch, bits])⟩

theorem EncodeOpcode.par8 (rd : WReg) (rs : WReg) : EncodeOpcode.Statement (.par8 rd rs) :=
  fun _ => ⟨encode_toNat (wordR_lt (op := 0x19) (by decide) _ _ _), (wordR_opcode 0x19 (by decide) _ _ _).trans (by simp [rowMatch, bits])⟩

theorem EncodeOpcode.par32 (rd : WReg) (rs : WReg) : EncodeOpcode.Statement (.par32 rd rs) :=
  fun _ => ⟨encode_toNat (wordR_lt (op := 0x1A) (by decide) _ _ _), (wordR_opcode 0x1A (by decide) _ _ _).trans (by simp [rowMatch, bits])⟩

theorem EncodeOpcode.add64 (rd : WReg) (list : BitVec 16) : EncodeOpcode.Statement (.add64 rd list) :=
  fun _ => ⟨encode_toNat (wordL_lt (op := 0x20) (by decide) _ _), (wordL_opcode 0x20 (by decide) _ _).trans (by simp [rowMatch, bits])⟩

theorem EncodeOpcode.sub64 (rd : WReg) (rs : WReg) (rt : WReg) : EncodeOpcode.Statement (.sub64 rd rs rt) :=
  fun _ => ⟨encode_toNat (wordR_lt (op := 0x21) (by decide) _ _ _), (wordR_opcode 0x21 (by decide) _ _ _).trans (by simp [rowMatch, bits])⟩

theorem EncodeOpcode.and64 (rd : WReg) (list : BitVec 16) : EncodeOpcode.Statement (.and64 rd list) :=
  fun _ => ⟨encode_toNat (wordL_lt (op := 0x22) (by decide) _ _), (wordL_opcode 0x22 (by decide) _ _).trans (by simp [rowMatch, bits])⟩

theorem EncodeOpcode.or64 (rd : WReg) (list : BitVec 16) : EncodeOpcode.Statement (.or64 rd list) :=
  fun _ => ⟨encode_toNat (wordL_lt (op := 0x23) (by decide) _ _), (wordL_opcode 0x23 (by decide) _ _).trans (by simp [rowMatch, bits])⟩

theorem EncodeOpcode.xor64 (rd : WReg) (list : BitVec 16) : EncodeOpcode.Statement (.xor64 rd list) :=
  fun _ => ⟨encode_toNat (wordL_lt (op := 0x24) (by decide) _ _), (wordL_opcode 0x24 (by decide) _ _).trans (by simp [rowMatch, bits])⟩

theorem EncodeOpcode.not64 (rd : WReg) (rs : WReg) : EncodeOpcode.Statement (.not64 rd rs) :=
  fun _ => ⟨encode_toNat (wordR_lt (op := 0x25) (by decide) _ _ _), (wordR_opcode 0x25 (by decide) _ _ _).trans (by simp [rowMatch, bits])⟩

theorem EncodeOpcode.mul64 (rd : WReg) (rs : WReg) (rt : WReg) : EncodeOpcode.Statement (.mul64 rd rs rt) :=
  fun _ => ⟨encode_toNat (wordR_lt (op := 0x26) (by decide) _ _ _), (wordR_opcode 0x26 (by decide) _ _ _).trans (by simp [rowMatch, bits])⟩

theorem EncodeOpcode.rol64 (rd : WReg) (rs : WReg) (rc : WReg) : EncodeOpcode.Statement (.rol64 rd rs rc) :=
  fun _ => ⟨encode_toNat (wordR_lt (op := 0x27) (by decide) _ _ _), (wordR_opcode 0x27 (by decide) _ _ _).trans (by simp [rowMatch, bits])⟩

theorem EncodeOpcode.ror64 (rd : WReg) (rs : WReg) (rc : WReg) : EncodeOpcode.Statement (.ror64 rd rs rc) :=
  fun _ => ⟨encode_toNat (wordR_lt (op := 0x28) (by decide) _ _ _), (wordR_opcode 0x28 (by decide) _ _ _).trans (by simp [rowMatch, bits])⟩

theorem EncodeOpcode.shl64 (rd : WReg) (rs : WReg) (rc : WReg) : EncodeOpcode.Statement (.shl64 rd rs rc) :=
  fun _ => ⟨encode_toNat (wordR_lt (op := 0x29) (by decide) _ _ _), (wordR_opcode 0x29 (by decide) _ _ _).trans (by simp [rowMatch, bits])⟩

theorem EncodeOpcode.shr64 (rd : WReg) (rs : WReg) (rc : WReg) : EncodeOpcode.Statement (.shr64 rd rs rc) :=
  fun _ => ⟨encode_toNat (wordR_lt (op := 0x2A) (by decide) _ _ _), (wordR_opcode 0x2A (by decide) _ _ _).trans (by simp [rowMatch, bits])⟩

theorem EncodeOpcode.rol48 (rd : WReg) (rs : WReg) (rc : WReg) : EncodeOpcode.Statement (.rol48 rd rs rc) :=
  fun _ => ⟨encode_toNat (wordR_lt (op := 0x2B) (by decide) _ _ _), (wordR_opcode 0x2B (by decide) _ _ _).trans (by simp [rowMatch, bits])⟩

theorem EncodeOpcode.ror48 (rd : WReg) (rs : WReg) (rc : WReg) : EncodeOpcode.Statement (.ror48 rd rs rc) :=
  fun _ => ⟨encode_toNat (wordR_lt (op := 0x2C) (by decide) _ _ _), (wordR_opcode 0x2C (by decide) _ _ _).trans (by simp [rowMatch, bits])⟩

theorem EncodeOpcode.minv32 (rd : WReg) (rs : WReg) : EncodeOpcode.Statement (.minv32 rd rs) :=
  fun _ => ⟨encode_toNat (wordR_lt (op := 0x2D) (by decide) _ _ _), (wordR_opcode 0x2D (by decide) _ _ _).trans (by simp [rowMatch, bits])⟩

theorem EncodeOpcode.minv64 (rd : WReg) (rs : WReg) : EncodeOpcode.Statement (.minv64 rd rs) :=
  fun _ => ⟨encode_toNat (wordR_lt (op := 0x2E) (by decide) _ _ _), (wordR_opcode 0x2E (by decide) _ _ _).trans (by simp [rowMatch, bits])⟩

theorem EncodeOpcode.addb (bd : BReg) (list : BitVec 16) : EncodeOpcode.Statement (.addb bd list) :=
  fun _ => ⟨encode_toNat (wordL_lt (op := 0x40) (by decide) _ _), (wordL_opcode 0x40 (by decide) _ _).trans (by simp [rowMatch, bits])⟩

theorem EncodeOpcode.addbs (bd : BReg) (rs : WReg) : EncodeOpcode.Statement (.addbs bd rs) :=
  fun _ => ⟨encode_toNat (wordR_lt (op := 0x41) (by decide) _ _ _), (wordR_opcode 0x41 (by decide) _ _ _).trans (by simp [rowMatch, bits])⟩

theorem EncodeOpcode.subb (bd : BReg) (bs : BReg) : EncodeOpcode.Statement (.subb bd bs) :=
  fun _ => ⟨encode_toNat (wordR_lt (op := 0x42) (by decide) _ _ _), (wordR_opcode 0x42 (by decide) _ _ _).trans (by simp [rowMatch, bits])⟩

theorem EncodeOpcode.mulb (bd : BReg) (bs : BReg) : EncodeOpcode.Statement (.mulb bd bs) :=
  fun _ => ⟨encode_toNat (wordR_lt (op := 0x43) (by decide) _ _ _), (wordR_opcode 0x43 (by decide) _ _ _).trans (by simp [rowMatch, bits])⟩

theorem EncodeOpcode.notb (bd : BReg) (bs : BReg) : EncodeOpcode.Statement (.notb bd bs) :=
  fun _ => ⟨encode_toNat (wordR_lt (op := 0x44) (by decide) _ _ _), (wordR_opcode 0x44 (by decide) _ _ _).trans (by simp [rowMatch, bits])⟩

theorem EncodeOpcode.xorb (bd : BReg) (list : BitVec 16) : EncodeOpcode.Statement (.xorb bd list) :=
  fun _ => ⟨encode_toNat (wordL_lt (op := 0x45) (by decide) _ _), (wordL_opcode 0x45 (by decide) _ _).trans (by simp [rowMatch, bits])⟩

theorem EncodeOpcode.rolb (bd : BReg) (rc : WReg) : EncodeOpcode.Statement (.rolb bd rc) :=
  fun _ => ⟨encode_toNat (wordR_lt (op := 0x46) (by decide) _ _ _), (wordR_opcode 0x46 (by decide) _ _ _).trans (by simp [rowMatch, bits])⟩

theorem EncodeOpcode.rorb (bd : BReg) (rc : WReg) : EncodeOpcode.Statement (.rorb bd rc) :=
  fun _ => ⟨encode_toNat (wordR_lt (op := 0x47) (by decide) _ _ _), (wordR_opcode 0x47 (by decide) _ _ _).trans (by simp [rowMatch, bits])⟩

theorem EncodeOpcode.unpk16be (rd : WReg) (bs : BReg) : EncodeOpcode.Statement (.unpk16be rd bs) :=
  fun _ => ⟨encode_toNat (wordR_lt (op := 0x50) (by decide) _ _ _), (wordR_opcode 0x50 (by decide) _ _ _).trans (by simp [rowMatch, bits])⟩

theorem EncodeOpcode.unpk16le (rd : WReg) (bs : BReg) : EncodeOpcode.Statement (.unpk16le rd bs) :=
  fun _ => ⟨encode_toNat (wordR_lt (op := 0x51) (by decide) _ _ _), (wordR_opcode 0x51 (by decide) _ _ _).trans (by simp [rowMatch, bits])⟩

theorem EncodeOpcode.unpk32be (rd : WReg) (bs : BReg) : EncodeOpcode.Statement (.unpk32be rd bs) :=
  fun _ => ⟨encode_toNat (wordR_lt (op := 0x52) (by decide) _ _ _), (wordR_opcode 0x52 (by decide) _ _ _).trans (by simp [rowMatch, bits])⟩

theorem EncodeOpcode.unpk32le (rd : WReg) (bs : BReg) : EncodeOpcode.Statement (.unpk32le rd bs) :=
  fun _ => ⟨encode_toNat (wordR_lt (op := 0x53) (by decide) _ _ _), (wordR_opcode 0x53 (by decide) _ _ _).trans (by simp [rowMatch, bits])⟩

theorem EncodeOpcode.unpk64be (rd : WReg) (bs : BReg) : EncodeOpcode.Statement (.unpk64be rd bs) :=
  fun _ => ⟨encode_toNat (wordR_lt (op := 0x54) (by decide) _ _ _), (wordR_opcode 0x54 (by decide) _ _ _).trans (by simp [rowMatch, bits])⟩

theorem EncodeOpcode.unpk64le (rd : WReg) (bs : BReg) : EncodeOpcode.Statement (.unpk64le rd bs) :=
  fun _ => ⟨encode_toNat (wordR_lt (op := 0x55) (by decide) _ _ _), (wordR_opcode 0x55 (by decide) _ _ _).trans (by simp [rowMatch, bits])⟩

theorem EncodeOpcode.pack16be (bd : BReg) (rs : WReg) : EncodeOpcode.Statement (.pack16be bd rs) :=
  fun _ => ⟨encode_toNat (wordR_lt (op := 0x58) (by decide) _ _ _), (wordR_opcode 0x58 (by decide) _ _ _).trans (by simp [rowMatch, bits])⟩

theorem EncodeOpcode.pack16le (bd : BReg) (rs : WReg) : EncodeOpcode.Statement (.pack16le bd rs) :=
  fun _ => ⟨encode_toNat (wordR_lt (op := 0x59) (by decide) _ _ _), (wordR_opcode 0x59 (by decide) _ _ _).trans (by simp [rowMatch, bits])⟩

theorem EncodeOpcode.pack32be (bd : BReg) (rs : WReg) : EncodeOpcode.Statement (.pack32be bd rs) :=
  fun _ => ⟨encode_toNat (wordR_lt (op := 0x5A) (by decide) _ _ _), (wordR_opcode 0x5A (by decide) _ _ _).trans (by simp [rowMatch, bits])⟩

theorem EncodeOpcode.pack32le (bd : BReg) (rs : WReg) : EncodeOpcode.Statement (.pack32le bd rs) :=
  fun _ => ⟨encode_toNat (wordR_lt (op := 0x5B) (by decide) _ _ _), (wordR_opcode 0x5B (by decide) _ _ _).trans (by simp [rowMatch, bits])⟩

theorem EncodeOpcode.pack64be (bd : BReg) (rs : WReg) : EncodeOpcode.Statement (.pack64be bd rs) :=
  fun _ => ⟨encode_toNat (wordR_lt (op := 0x5C) (by decide) _ _ _), (wordR_opcode 0x5C (by decide) _ _ _).trans (by simp [rowMatch, bits])⟩

theorem EncodeOpcode.pack64le (bd : BReg) (rs : WReg) : EncodeOpcode.Statement (.pack64le bd rs) :=
  fun _ => ⟨encode_toNat (wordR_lt (op := 0x5D) (by decide) _ _ _), (wordR_opcode 0x5D (by decide) _ _ _).trans (by simp [rowMatch, bits])⟩

theorem EncodeOpcode.splitle (bd : BReg) (bs : BReg) (rc : WReg) : EncodeOpcode.Statement (.splitle bd bs rc) :=
  fun _ => ⟨encode_toNat (wordR_lt (op := 0x5E) (by decide) _ _ _), (wordR_opcode 0x5E (by decide) _ _ _).trans (by simp [rowMatch, bits])⟩

theorem EncodeOpcode.comble (bd : BReg) (bs : BReg) (rc : WReg) : EncodeOpcode.Statement (.comble bd bs rc) :=
  fun _ => ⟨encode_toNat (wordR_lt (op := 0x5F) (by decide) _ _ _), (wordR_opcode 0x5F (by decide) _ _ _).trans (by simp [rowMatch, bits])⟩

theorem EncodeOpcode.tblk (rx : WReg) (bs : BReg) (rt : WReg) : EncodeOpcode.Statement (.tblk rx bs rt) :=
  fun _ => ⟨encode_toNat (wordR_lt (op := 0x60) (by decide) _ _ _), (wordR_opcode 0x60 (by decide) _ _ _).trans (by simp [rowMatch, bits])⟩

theorem EncodeOpcode.tblkmd (rx : WReg) (bs : BReg) (rt : WReg) : EncodeOpcode.Statement (.tblkmd rx bs rt) :=
  fun _ => ⟨encode_toNat (wordR_lt (op := 0x61) (by decide) _ _ _), (wordR_opcode 0x61 (by decide) _ _ _).trans (by simp [rowMatch, bits])⟩

theorem EncodeOpcode.tblkbc (rx : WReg) (bs : BReg) (rt : WReg) : EncodeOpcode.Statement (.tblkbc rx bs rt) :=
  fun _ => ⟨encode_toNat (wordR_lt (op := 0x62) (by decide) _ _ _), (wordR_opcode 0x62 (by decide) _ _ _).trans (by simp [rowMatch, bits])⟩

end Sys2Proof.Laws
end

