-- ==== Sys2Proof/Laws/Decode.lean ====
section
/-! SUPPORT. The formats of 30_encoding.md, both ways: what a format reads from a word that the encoder writes, and
what a word is that a format accepts. -/

namespace Sys2Proof.Laws

open Sys2Proof

/-! ### A format reads back the fields of its word -/

/-- Format R with three operands. -/
theorem formatABC_word (op : Nat) (a b c : Fin 16) (f : Fin 16 → Fin 16 → Fin 16 → Instr) :
    formatABC (wordR op a b c) f = .ok (f a b c) := by
  obtain ⟨h1, h2, h3, h4⟩ := wordR_fields op a b c
  simp [formatABC, h1, h2, h3, h4, ifZero]

/-- Format R with A and B. -/
theorem formatAB_word (op : Nat) (a b : Fin 16) (f : Fin 16 → Fin 16 → Instr) :
    formatAB (wordR op a b 0) f = .ok (f a b) := by
  obtain ⟨h1, h2, h3, h4⟩ := wordR_fields op a b 0
  have : bits (wordR op a b 0) 15 0 = 0 := by
    have := a.isLt; have := b.isLt
    simp [bits, wordR]; omega
  simp [formatAB, h1, h2, this, ifZero]

/-- Format R with A and C. -/
theorem formatAC_word (op : Nat) (a c : Fin 16) (f : Fin 16 → Fin 16 → Instr) :
    formatAC (wordR op a 0 c) f = .ok (f a c) := by
  obtain ⟨h1, h2, h3, h4⟩ := wordR_fields op a 0 c
  have : bits (wordR op a 0 c) 19 16 = 0 := by
    have := a.isLt; have := c.isLt
    simp [bits, wordR]; omega
  simp [formatAC, h1, h3, h4, this, ifZero]

/-- Format L. -/
theorem formatL_word (op : Nat) (a : Fin 16) (l : BitVec 16) (f : Fin 16 → BitVec 16 → Instr) :
    formatL (wordL op a l) f = .ok (f a l) := by
  obtain ⟨h1, h2, h3⟩ := wordL_fields op a l
  simp [formatL, h1, h2, h3, ifZero]

/-- Format S. -/
theorem formatS_word (op : Nat) (a : Fin 16) (n : Nat) (f : Fin 16 → Nat → Instr) (h : n < 4096) :
    formatS (wordS op a n) f = .ok (f a n) := by
  have := a.isLt
  have h1 : bits (wordS op a n) 19 12 = 0 := by simp [bits, wordS]; omega
  have h2 : bits (wordS op a n) 11 0 = n := by simp [bits, wordS]; omega
  have h3 : fieldA (wordS op a n) = a := Fin.ext (by simp [fieldA, regField, wordS]; omega)
  simp [formatS, h1, h2, h3, ifZero]

/-- Format I. -/
theorem formatI_word (a : Fin 16) (p z : Nat) (imm : BitVec 16) (h : p < 4) (hz : z < 2) :
    formatI (wordI a p z imm) = .ok (if z = 1 then .ldiz a p imm else .ldik a p imm) := by
  have := a.isLt
  have := imm.isLt
  have h1 : bits (wordI a p z imm) 16 16 = 0 := by simp [bits, wordI]; omega
  have h2 : bits (wordI a p z imm) 17 17 = z := by simp [bits, wordI]; omega
  have h4 : bits (wordI a p z imm) 19 18 = p := by simp [bits, wordI]; omega
  have h3 : fieldA (wordI a p z imm) = a := Fin.ext (by simp [fieldA, regField, wordI]; omega)
  have h5 : field16 (wordI a p z imm) = imm := BitVec.eq_of_toNat_eq (by simp [field16, bits, wordI]; omega)
  simp [formatI, h1, h2, h3, h4, h5, ifZero]

/-! ### What a format accepts -/

/-- A word with a 1 in a must-be-zero position is no command. -/
theorem ifZero_ok {m x : Nat} {i j : Instr} (h : ifZero m x i = .ok j) : m = 0 ∧ j = i := by
  unfold ifZero at h; split at h
  · cases h; exact ⟨by assumption, rfl⟩
  · cases h

/-- A word that equals the encoding as an integer is the encoding. -/
theorem encode_of_toNat {i : Instr} {x : Word32} (h : x.toNat = encodeNat i) : encode i = x := by
  rw [encode, ← h]; simp

/-- Format N. -/
theorem formatN_ok {x : Nat} {f : Instr} {j : Instr} (op : Nat)
    (hx : x < 2 ^ 32) (ho : bits x 31 24 = op) (h : formatN x f = .ok j) :
    j = f ∧ x = wordN op := by
  obtain ⟨h1, h2⟩ := ifZero_ok h
  refine ⟨h2, ?_⟩; simp [bits, wordN] at *; omega

/-- Format R with three operands. -/
theorem formatABC_ok {x : Nat} {f : Fin 16 → Fin 16 → Fin 16 → Instr} {j : Instr} (op : Nat)
    (hx : x < 2 ^ 32) (ho : bits x 31 24 = op) (h : formatABC x f = .ok j) :
    ∃ a b c, j = f a b c ∧ x = wordR op a b c := by
  obtain ⟨h1, h2⟩ := ifZero_ok h
  refine ⟨_, _, _, h2, ?_⟩; simp [bits, wordR, fieldA, fieldB, fieldC, regField] at *; omega

/-- Format R with A and B. -/
theorem formatAB_ok {x : Nat} {f : Fin 16 → Fin 16 → Instr} {j : Instr} (op : Nat)
    (hx : x < 2 ^ 32) (ho : bits x 31 24 = op) (h : formatAB x f = .ok j) :
    ∃ a b, j = f a b ∧ x = wordR op a b 0 := by
  obtain ⟨h1, h2⟩ := ifZero_ok h
  refine ⟨_, _, h2, ?_⟩; simp [bits, wordR, fieldA, fieldB, regField] at *; omega

/-- Format R with A and C. -/
theorem formatAC_ok {x : Nat} {f : Fin 16 → Fin 16 → Instr} {j : Instr} (op : Nat)
    (hx : x < 2 ^ 32) (ho : bits x 31 24 = op) (h : formatAC x f = .ok j) :
    ∃ a b, j = f a b ∧ x = wordR op a 0 b := by
  obtain ⟨h1, h2⟩ := ifZero_ok h
  refine ⟨_, _, h2, ?_⟩; simp [bits, wordR, fieldA, fieldC, regField] at *; omega

/-- Format L. -/
theorem formatL_ok {x : Nat} {f : Fin 16 → BitVec 16 → Instr} {j : Instr} (op : Nat)
    (hx : x < 2 ^ 32) (ho : bits x 31 24 = op) (h : formatL x f = .ok j) :
    ∃ a b, j = f a b ∧ x = wordL op a b := by
  obtain ⟨h1, h2⟩ := ifZero_ok h
  refine ⟨_, _, h2, ?_⟩; simp [bits, wordL, fieldA, field16, regField] at *; omega

/-- Format S. -/
theorem formatS_ok {x : Nat} {f : Fin 16 → Nat → Instr} {j : Instr} (op : Nat)
    (hx : x < 2 ^ 32) (ho : bits x 31 24 = op) (h : formatS x f = .ok j) :
    ∃ a b, j = f a b ∧ x = wordS op a b ∧ b < 4096 := by
  obtain ⟨h1, h2⟩ := ifZero_ok h
  refine ⟨_, _, h2, ?_⟩; simp [bits, wordS, fieldA, regField] at *; omega

/-- Format I. -/
theorem formatI_ok {x : Nat} {j : Instr} (hx : x < 2 ^ 32) (ho : bits x 31 24 = 2) (h : formatI x = .ok j) :
    ∃ a p i, p < 4 ∧
      ((j = .ldiz a p i ∧ x = wordI a p 1 i) ∨ (j = .ldik a p i ∧ x = wordI a p 0 i)) := by
  obtain ⟨h1, h2⟩ := ifZero_ok h
  refine ⟨fieldA x, bits x 19 18, field16 x, by simp [bits]; omega, ?_⟩
  split at h2
  · left; refine ⟨h2, ?_⟩; simp [bits, wordI, fieldA, field16, regField] at *; omega
  · right; refine ⟨h2, ?_⟩; simp [bits, wordI, fieldA, field16, regField] at *; omega

end Sys2Proof.Laws
end

