-- ==== Sys2Proof/Laws/Memory.lean ====
section
/-! SUPPORT. The sparse stores, the memory primitives and the conversions between bytes and integers: read after write,
what a write leaves alone, and that every memory operation keeps the canonical form. -/

namespace Sys2Proof.Laws

open Sys2Proof.Machine

/-! ### Sparse stores -/

section Store
variable {α : Type}

theorem lookupAt_storeAt (m : List (Nat × α)) (a b : Nat) (v : α) (h : Memory.wf m) :
    lookupAt (storeAt m a v) b = if a = b then some v else lookupAt m b := by
  induction m with
  | nil => simp [storeAt, lookupAt]
  | cons c rest ih =>
    obtain ⟨x, u⟩ := c
    have hrest := ih (List.Pairwise.of_cons h)
    simp only [storeAt]
    split
    · simp only [lookupAt]
    · split
      · subst x
        by_cases hb : a = b <;> simp [lookupAt, hb]
      · simp only [lookupAt, hrest]
        by_cases hx : x = b <;> by_cases ha : a = b <;> simp [hx, ha]
        omega

/-- Every entry of a store after a write is the one written or one that was there. -/
theorem mem_storeAt {m : List (Nat × α)} {a : Nat} {v : α} {c : Nat × α} (h : c ∈ storeAt m a v) :
    c = (a, v) ∨ c ∈ m := by
  induction m with
  | nil => simpa [storeAt] using h
  | cons d rest ih =>
    obtain ⟨x, u⟩ := d
    simp only [storeAt] at h
    split at h
    · simpa using h
    · split at h
      · rcases List.mem_cons.1 h with h | h
        · exact .inl h
        · exact .inr (List.mem_cons_of_mem _ h)
      · rcases List.mem_cons.1 h with h | h
        · exact .inr (h ▸ List.mem_cons_self ..)
        · exact (ih h).imp_right (List.mem_cons_of_mem _)

/-- A write keeps the canonical form. -/
theorem storeAt_wf {m : List (Nat × α)} (a : Nat) (v : α) (h : Memory.wf m) : Memory.wf (storeAt m a v) := by
  induction m with
  | nil => simp [storeAt]
  | cons c rest ih =>
    obtain ⟨x, u⟩ := c
    have hx := (List.pairwise_cons.1 h).1
    have hrest := (List.pairwise_cons.1 h).2
    simp only [storeAt]
    split
    · rename_i hax
      refine List.pairwise_cons.2 ⟨fun d hd => ?_, h⟩
      rcases List.mem_cons.1 hd with rfl | hd
      · exact hax
      · exact Nat.lt_trans hax (hx d hd)
    · split
      · rename_i hax
        exact List.pairwise_cons.2 ⟨fun d hd => hax ▸ hx d hd, hrest⟩
      · refine List.pairwise_cons.2 ⟨fun d hd => ?_, ih hrest⟩
        rcases mem_storeAt hd with rfl | hd
        · show x < a
          omega
        · exact hx d hd

theorem storeAt_inside {m : List (Nat × α)} {n : Nat} (a : Nat) (v : α) (ha : a < n)
    (h : ∀ c ∈ m, c.1 < n) : ∀ c ∈ storeAt m a v, c.1 < n := by
  intro c hc
  rcases mem_storeAt hc with rfl | hc
  · exact ha
  · exact h c hc

end Store

/-! ### Bytes of M -/

@[simp] theorem readBytes_length (m : Memory) (a n : Nat) : (readBytes m a n).length = n := by
  induction n generalizing a with
  | zero => rfl
  | succ n ih => simp [readBytes, ih]

theorem readBytes_getElem (m : Memory) (a n j : Nat) (h : j < n) :
    (readBytes m a n)[j]'(by simpa using h) = readByte m (a + j) := by
  induction n generalizing a j with
  | zero => omega
  | succ n ih =>
    cases j with
    | zero => simp [readBytes]
    | succ j =>
      simp only [readBytes, List.getElem_cons_succ]
      rw [ih (a + 1) j (by omega)]
      congr 1
      omega

/-- Reading a range depends on the bytes of the range only. -/
theorem readBytes_congr {m m' : Memory} {a n : Nat}
    (h : ∀ x, a ≤ x → x < a + n → readByte m x = readByte m' x) : readBytes m a n = readBytes m' a n := by
  induction n generalizing a with
  | zero => rfl
  | succ n ih =>
    simp only [readBytes]
    rw [h a (by omega) (by omega), ih fun x h₁ h₂ => h x (by omega) (by omega)]

theorem readByte_storeAt (m : Memory) (a b : Nat) (v : Byte) (h : Memory.wf m) :
    readByte (storeAt m a v) b = if a = b then v else readByte m b := by
  simp only [readByte, lookupAt_storeAt m a b v h]
  split <;> rfl

theorem writeBytes_wf {m : Memory} (a : Nat) (l : List Byte) (h : Memory.wf m) :
    Memory.wf (writeBytes m a l) := by
  induction l generalizing m a with
  | nil => exact h
  | cons v vs ih => exact ih (a + 1) (storeAt_wf a v h)

theorem writeBytes_inside {m : Memory} {n : Nat} (a : Nat) (l : List Byte) (hl : a + l.length ≤ n)
    (h : ∀ c ∈ m, c.1 < n) : ∀ c ∈ writeBytes m a l, c.1 < n := by
  induction l generalizing m a with
  | nil => exact h
  | cons v vs ih =>
    simp only [List.length_cons] at hl
    exact ih (a + 1) (by omega) (storeAt_inside a v (by omega) h)

/-- "a write changes exactly the `n` bytes named" (20_memory.md R54). -/
theorem readByte_writeBytes (m : Memory) (a : Nat) (l : List Byte) (b : Nat) (h : Memory.wf m) :
    readByte (writeBytes m a l) b =
      if hb : a ≤ b ∧ b < a + l.length then l[b - a]'(by omega) else readByte m b := by
  induction l generalizing m a with
  | nil => simp [writeBytes]
  | cons v vs ih =>
    rw [writeBytes, ih _ _ (storeAt_wf a v h)]
    by_cases hb : a + 1 ≤ b ∧ b < a + 1 + vs.length
    · have hb' : a ≤ b ∧ b < a + (v :: vs).length := by simp only [List.length_cons]; omega
      rw [dif_pos hb, dif_pos hb']
      have : b - a = b - (a + 1) + 1 := by omega
      simp only [this, List.getElem_cons_succ]
    · rw [dif_neg hb, readByte_storeAt m a b v h]
      by_cases hab : a = b
      · subst hab
        simp
      · have hb' : ¬ (a ≤ b ∧ b < a + (v :: vs).length) := by simp only [List.length_cons]; omega
        rw [if_neg hab, dif_neg hb']

/-- Reading back what was written. -/
theorem readBytes_writeBytes (m : Memory) (a : Nat) (l : List Byte) (h : Memory.wf m) :
    readBytes (writeBytes m a l) a l.length = l := by
  refine List.ext_getElem (by simp) fun j h₁ h₂ => ?_
  rw [readBytes_getElem _ _ _ _ h₂, readByte_writeBytes m a l _ h, dif_pos ⟨by omega, by omega⟩]
  simp

/-! ### Bytes and integers -/

@[simp] theorem leBytes_length (v n : Nat) : (leBytes v n).length = n := by
  induction n generalizing v with
  | zero => rfl
  | succ n ih => simp [leBytes, ih]

@[simp] theorem beBytes_length (v n : Nat) : (beBytes v n).length = n := by simp [beBytes]

theorem leInt_lt (l : List Byte) : leInt l < 256 ^ l.length := by
  induction l with
  | nil => simp [leInt]
  | cons x xs ih =>
    have hx : x.toNat < 256 := x.isLt
    simp only [leInt, List.length_cons, Nat.pow_succ]
    omega

theorem beInt_lt (l : List Byte) : beInt l < 256 ^ l.length := by
  simpa [beInt] using leInt_lt l.reverse

theorem leInt_leBytes (v n : Nat) : leInt (leBytes v n) = v % 256 ^ n := by
  induction n generalizing v with
  | zero => simp [leBytes, leInt, Nat.mod_one]
  | succ n ih =>
    rw [leBytes, leInt, ih, Nat.pow_succ', Nat.mod_mul]
    simp

theorem beInt_beBytes (v n : Nat) : beInt (beBytes v n) = v % 256 ^ n := by
  simp [beInt, beBytes, leInt_leBytes]

theorem leBytes_leInt (l : List Byte) : leBytes (leInt l) l.length = l := by
  induction l with
  | nil => rfl
  | cons x xs ih =>
    have hx : x.toNat < 256 := x.isLt
    have h1 : (x.toNat + 256 * leInt xs) % 256 = x.toNat := by omega
    have h2 : (x.toNat + 256 * leInt xs) / 256 = leInt xs := by omega
    simp only [leInt, List.length_cons, leBytes, h1, h2, ih]
    simp

theorem beBytes_beInt (l : List Byte) : beBytes (beInt l) l.length = l := by
  have := leBytes_leInt l.reverse
  simp only [List.length_reverse] at this
  simp [beBytes, beInt, this]

/-- The modulus of a buffer of `n` bytes, in bits and in bytes. -/
theorem two_pow_bytes (n : Nat) : 2 ^ (8 * n) = 256 ^ n := by
  rw [Nat.pow_mul]

end Sys2Proof.Laws
end

