-- ==== Sys2Proof/Laws/State.lean ====
section
/-! SUPPORT. One lemma per field per update of the state, all true by `rfl`: no later proof unfolds a record
update. -/

namespace Sys2Proof.Laws

open Sys2Proof.Machine

variable (s : State)

/-! ### setW -/

@[simp] theorem setW_params (i : WReg) (v : Word) : (setW i v s).params = s.params := rfl
@[simp] theorem setW_w (i : WReg) (v : Word) : (setW i v s).w = s.w.set i.val v i.isLt := rfl
@[simp] theorem setW_b (i : WReg) (v : Word) : (setW i v s).b = s.b := rfl
@[simp] theorem setW_pc (i : WReg) (v : Word) : (setW i v s).pc = s.pc := rfl
@[simp] theorem setW_run (i : WReg) (v : Word) : (setW i v s).run = s.run := rfl
@[simp] theorem setW_fault (i : WReg) (v : Word) : (setW i v s).fault = s.fault := rfl
@[simp] theorem setW_faultpc (i : WReg) (v : Word) : (setW i v s).faultpc = s.faultpc := rfl
@[simp] theorem setW_padcfg (i : WReg) (v : Word) : (setW i v s).padcfg = s.padcfg := rfl
@[simp] theorem setW_drvstat (i : WReg) (v : Word) : (setW i v s).drvstat = s.drvstat := rfl
@[simp] theorem setW_drvoff (i : WReg) (v : Word) : (setW i v s).drvoff = s.drvoff := rfl
@[simp] theorem setW_mem (i : WReg) (v : Word) : (setW i v s).mem = s.mem := rfl
@[simp] theorem setW_cs (i : WReg) (v : Word) : (setW i v s).cs = s.cs := rfl
@[simp] theorem setW_emitted (i : WReg) (v : Word) : (setW i v s).emitted = s.emitted := rfl
@[simp] theorem setW_draws (i : WReg) (v : Word) : (setW i v s).draws = s.draws := rfl

/-! ### setB -/

@[simp] theorem setB_params (i : BReg) (d : Descriptor) : (setB i d s).params = s.params := rfl
@[simp] theorem setB_w (i : BReg) (d : Descriptor) : (setB i d s).w = s.w := rfl
@[simp] theorem setB_b (i : BReg) (d : Descriptor) : (setB i d s).b = s.b.set i.val d i.isLt := rfl
@[simp] theorem setB_pc (i : BReg) (d : Descriptor) : (setB i d s).pc = s.pc := rfl
@[simp] theorem setB_run (i : BReg) (d : Descriptor) : (setB i d s).run = s.run := rfl
@[simp] theorem setB_fault (i : BReg) (d : Descriptor) : (setB i d s).fault = s.fault := rfl
@[simp] theorem setB_faultpc (i : BReg) (d : Descriptor) : (setB i d s).faultpc = s.faultpc := rfl
@[simp] theorem setB_padcfg (i : BReg) (d : Descriptor) : (setB i d s).padcfg = s.padcfg := rfl
@[simp] theorem setB_drvstat (i : BReg) (d : Descriptor) : (setB i d s).drvstat = s.drvstat := rfl
@[simp] theorem setB_drvoff (i : BReg) (d : Descriptor) : (setB i d s).drvoff = s.drvoff := rfl
@[simp] theorem setB_mem (i : BReg) (d : Descriptor) : (setB i d s).mem = s.mem := rfl
@[simp] theorem setB_cs (i : BReg) (d : Descriptor) : (setB i d s).cs = s.cs := rfl
@[simp] theorem setB_emitted (i : BReg) (d : Descriptor) : (setB i d s).emitted = s.emitted := rfl
@[simp] theorem setB_draws (i : BReg) (d : Descriptor) : (setB i d s).draws = s.draws := rfl

/-! ### setPadcfg -/

@[simp] theorem setPadcfg_params (v : Word32) : (setPadcfg v s).params = s.params := rfl
@[simp] theorem setPadcfg_w (v : Word32) : (setPadcfg v s).w = s.w := rfl
@[simp] theorem setPadcfg_b (v : Word32) : (setPadcfg v s).b = s.b := rfl
@[simp] theorem setPadcfg_pc (v : Word32) : (setPadcfg v s).pc = s.pc := rfl
@[simp] theorem setPadcfg_run (v : Word32) : (setPadcfg v s).run = s.run := rfl
@[simp] theorem setPadcfg_fault (v : Word32) : (setPadcfg v s).fault = s.fault := rfl
@[simp] theorem setPadcfg_faultpc (v : Word32) : (setPadcfg v s).faultpc = s.faultpc := rfl
@[simp] theorem setPadcfg_padcfg (v : Word32) : (setPadcfg v s).padcfg = padcfgStored v := rfl
@[simp] theorem setPadcfg_drvstat (v : Word32) : (setPadcfg v s).drvstat = s.drvstat := rfl
@[simp] theorem setPadcfg_drvoff (v : Word32) : (setPadcfg v s).drvoff = s.drvoff := rfl
@[simp] theorem setPadcfg_mem (v : Word32) : (setPadcfg v s).mem = s.mem := rfl
@[simp] theorem setPadcfg_cs (v : Word32) : (setPadcfg v s).cs = s.cs := rfl
@[simp] theorem setPadcfg_emitted (v : Word32) : (setPadcfg v s).emitted = s.emitted := rfl
@[simp] theorem setPadcfg_draws (v : Word32) : (setPadcfg v s).draws = s.draws := rfl

/-! ### emit -/

@[simp] theorem emit_params (recs : List Emission) : (emit recs s).params = s.params := rfl
@[simp] theorem emit_w (recs : List Emission) : (emit recs s).w = s.w := rfl
@[simp] theorem emit_b (recs : List Emission) : (emit recs s).b = s.b := rfl
@[simp] theorem emit_pc (recs : List Emission) : (emit recs s).pc = s.pc := rfl
@[simp] theorem emit_run (recs : List Emission) : (emit recs s).run = s.run := rfl
@[simp] theorem emit_fault (recs : List Emission) : (emit recs s).fault = s.fault := rfl
@[simp] theorem emit_faultpc (recs : List Emission) : (emit recs s).faultpc = s.faultpc := rfl
@[simp] theorem emit_padcfg (recs : List Emission) : (emit recs s).padcfg = s.padcfg := rfl
@[simp] theorem emit_drvstat (recs : List Emission) : (emit recs s).drvstat = s.drvstat := rfl
@[simp] theorem emit_drvoff (recs : List Emission) : (emit recs s).drvoff = s.drvoff := rfl
@[simp] theorem emit_mem (recs : List Emission) : (emit recs s).mem = s.mem := rfl
@[simp] theorem emit_cs (recs : List Emission) : (emit recs s).cs = s.cs := rfl
@[simp] theorem emit_emitted (recs : List Emission) : (emit recs s).emitted = s.emitted ++ recs := rfl
@[simp] theorem emit_draws (recs : List Emission) : (emit recs s).draws = s.draws := rfl

/-! ### draw -/

@[simp] theorem draw_params : (draw s).params = s.params := rfl
@[simp] theorem draw_w : (draw s).w = s.w := rfl
@[simp] theorem draw_b : (draw s).b = s.b := rfl
@[simp] theorem draw_pc : (draw s).pc = s.pc := rfl
@[simp] theorem draw_run : (draw s).run = s.run := rfl
@[simp] theorem draw_fault : (draw s).fault = s.fault := rfl
@[simp] theorem draw_faultpc : (draw s).faultpc = s.faultpc := rfl
@[simp] theorem draw_padcfg : (draw s).padcfg = s.padcfg := rfl
@[simp] theorem draw_drvstat : (draw s).drvstat = s.drvstat := rfl
@[simp] theorem draw_drvoff : (draw s).drvoff = s.drvoff := rfl
@[simp] theorem draw_mem : (draw s).mem = s.mem := rfl
@[simp] theorem draw_cs : (draw s).cs = s.cs := rfl
@[simp] theorem draw_emitted : (draw s).emitted = s.emitted := rfl
@[simp] theorem draw_draws : (draw s).draws = s.draws + 1 := rfl

/-! ### advance -/

@[simp] theorem advance_params : (advance s).params = s.params := rfl
@[simp] theorem advance_w : (advance s).w = s.w := rfl
@[simp] theorem advance_b : (advance s).b = s.b := rfl
@[simp] theorem advance_pc : (advance s).pc = s.pc + 1#16 := rfl
@[simp] theorem advance_run : (advance s).run = s.run := rfl
@[simp] theorem advance_fault : (advance s).fault = s.fault := rfl
@[simp] theorem advance_faultpc : (advance s).faultpc = s.faultpc := rfl
@[simp] theorem advance_padcfg : (advance s).padcfg = s.padcfg := rfl
@[simp] theorem advance_drvstat : (advance s).drvstat = s.drvstat := rfl
@[simp] theorem advance_drvoff : (advance s).drvoff = s.drvoff := rfl
@[simp] theorem advance_mem : (advance s).mem = s.mem := rfl
@[simp] theorem advance_cs : (advance s).cs = s.cs := rfl
@[simp] theorem advance_emitted : (advance s).emitted = s.emitted := rfl
@[simp] theorem advance_draws : (advance s).draws = s.draws := rfl

/-! ### halt -/

@[simp] theorem halt_params : (halt s).params = s.params := rfl
@[simp] theorem halt_w : (halt s).w = s.w := rfl
@[simp] theorem halt_b : (halt s).b = s.b := rfl
@[simp] theorem halt_pc : (halt s).pc = s.pc := rfl
@[simp] theorem halt_run : (halt s).run = .halted := rfl
@[simp] theorem halt_fault : (halt s).fault = s.fault := rfl
@[simp] theorem halt_faultpc : (halt s).faultpc = s.faultpc := rfl
@[simp] theorem halt_padcfg : (halt s).padcfg = s.padcfg := rfl
@[simp] theorem halt_drvstat : (halt s).drvstat = s.drvstat := rfl
@[simp] theorem halt_drvoff : (halt s).drvoff = s.drvoff := rfl
@[simp] theorem halt_mem : (halt s).mem = s.mem := rfl
@[simp] theorem halt_cs : (halt s).cs = s.cs := rfl
@[simp] theorem halt_emitted : (halt s).emitted = s.emitted := rfl
@[simp] theorem halt_draws : (halt s).draws = s.draws := rfl

/-! ### withMem -/

@[simp] theorem withMem_params (m : Memory) : (withMem m s).params = s.params := rfl
@[simp] theorem withMem_w (m : Memory) : (withMem m s).w = s.w := rfl
@[simp] theorem withMem_b (m : Memory) : (withMem m s).b = s.b := rfl
@[simp] theorem withMem_pc (m : Memory) : (withMem m s).pc = s.pc := rfl
@[simp] theorem withMem_run (m : Memory) : (withMem m s).run = s.run := rfl
@[simp] theorem withMem_fault (m : Memory) : (withMem m s).fault = s.fault := rfl
@[simp] theorem withMem_faultpc (m : Memory) : (withMem m s).faultpc = s.faultpc := rfl
@[simp] theorem withMem_padcfg (m : Memory) : (withMem m s).padcfg = s.padcfg := rfl
@[simp] theorem withMem_drvstat (m : Memory) : (withMem m s).drvstat = s.drvstat := rfl
@[simp] theorem withMem_drvoff (m : Memory) : (withMem m s).drvoff = s.drvoff := rfl
@[simp] theorem withMem_mem (m : Memory) : (withMem m s).mem = m := rfl
@[simp] theorem withMem_cs (m : Memory) : (withMem m s).cs = s.cs := rfl
@[simp] theorem withMem_emitted (m : Memory) : (withMem m s).emitted = s.emitted := rfl
@[simp] theorem withMem_draws (m : Memory) : (withMem m s).draws = s.draws := rfl

/-! ### writeCommand -/

@[simp] theorem writeCommand_params (i : Nat) (x : Word32) : (writeCommand i x s).params = s.params := rfl
@[simp] theorem writeCommand_w (i : Nat) (x : Word32) : (writeCommand i x s).w = s.w := rfl
@[simp] theorem writeCommand_b (i : Nat) (x : Word32) : (writeCommand i x s).b = s.b := rfl
@[simp] theorem writeCommand_pc (i : Nat) (x : Word32) : (writeCommand i x s).pc = s.pc := rfl
@[simp] theorem writeCommand_run (i : Nat) (x : Word32) : (writeCommand i x s).run = s.run := rfl
@[simp] theorem writeCommand_fault (i : Nat) (x : Word32) : (writeCommand i x s).fault = s.fault := rfl
@[simp] theorem writeCommand_faultpc (i : Nat) (x : Word32) : (writeCommand i x s).faultpc = s.faultpc := rfl
@[simp] theorem writeCommand_padcfg (i : Nat) (x : Word32) : (writeCommand i x s).padcfg = s.padcfg := rfl
@[simp] theorem writeCommand_drvstat (i : Nat) (x : Word32) : (writeCommand i x s).drvstat = s.drvstat := rfl
@[simp] theorem writeCommand_drvoff (i : Nat) (x : Word32) : (writeCommand i x s).drvoff = s.drvoff := rfl
@[simp] theorem writeCommand_mem (i : Nat) (x : Word32) : (writeCommand i x s).mem = s.mem := rfl
@[simp] theorem writeCommand_cs (i : Nat) (x : Word32) : (writeCommand i x s).cs = storeAt s.cs i x := rfl
@[simp] theorem writeCommand_emitted (i : Nat) (x : Word32) : (writeCommand i x s).emitted = s.emitted := rfl
@[simp] theorem writeCommand_draws (i : Nat) (x : Word32) : (writeCommand i x s).draws = s.draws := rfl

/-! ### takeFault -/

@[simp] theorem takeFault_params (c : Cause) : (takeFault c s).params = s.params := rfl
@[simp] theorem takeFault_w (c : Cause) : (takeFault c s).w = s.w := rfl
@[simp] theorem takeFault_b (c : Cause) : (takeFault c s).b = s.b := rfl
@[simp] theorem takeFault_pc (c : Cause) : (takeFault c s).pc = s.pc := rfl
@[simp] theorem takeFault_run (c : Cause) : (takeFault c s).run = .faulted := rfl
@[simp] theorem takeFault_fault (c : Cause) : (takeFault c s).fault = faultWord c := rfl
@[simp] theorem takeFault_faultpc (c : Cause) : (takeFault c s).faultpc = s.pc.setWidth 32 := rfl
@[simp] theorem takeFault_padcfg (c : Cause) : (takeFault c s).padcfg = s.padcfg := rfl
@[simp] theorem takeFault_drvstat (c : Cause) : (takeFault c s).drvstat = s.drvstat := rfl
@[simp] theorem takeFault_drvoff (c : Cause) : (takeFault c s).drvoff = s.drvoff := rfl
@[simp] theorem takeFault_mem (c : Cause) : (takeFault c s).mem = s.mem := rfl
@[simp] theorem takeFault_cs (c : Cause) : (takeFault c s).cs = s.cs := rfl
@[simp] theorem takeFault_emitted (c : Cause) : (takeFault c s).emitted = s.emitted := rfl
@[simp] theorem takeFault_draws (c : Cause) : (takeFault c s).draws = s.draws := rfl

/-! ### clearFault -/

@[simp] theorem clearFault_params : (clearFault s).params = s.params := rfl
@[simp] theorem clearFault_w : (clearFault s).w = s.w := rfl
@[simp] theorem clearFault_b : (clearFault s).b = s.b := rfl
@[simp] theorem clearFault_pc : (clearFault s).pc = s.pc := rfl
@[simp] theorem clearFault_run : (clearFault s).run = .idle := rfl
@[simp] theorem clearFault_fault : (clearFault s).fault = 0#32 := rfl
@[simp] theorem clearFault_faultpc : (clearFault s).faultpc = 0#32 := rfl
@[simp] theorem clearFault_padcfg : (clearFault s).padcfg = s.padcfg := rfl
@[simp] theorem clearFault_drvstat : (clearFault s).drvstat = s.drvstat := rfl
@[simp] theorem clearFault_drvoff : (clearFault s).drvoff = s.drvoff := rfl
@[simp] theorem clearFault_mem : (clearFault s).mem = s.mem := rfl
@[simp] theorem clearFault_cs : (clearFault s).cs = s.cs := rfl
@[simp] theorem clearFault_emitted : (clearFault s).emitted = s.emitted := rfl
@[simp] theorem clearFault_draws : (clearFault s).draws = s.draws := rfl

/-! ### startAt -/

@[simp] theorem startAt_params (entry : BitVec 16) : (startAt entry s).params = s.params := rfl
@[simp] theorem startAt_w (entry : BitVec 16) : (startAt entry s).w = s.w := rfl
@[simp] theorem startAt_b (entry : BitVec 16) : (startAt entry s).b = s.b := rfl
@[simp] theorem startAt_pc (entry : BitVec 16) : (startAt entry s).pc = entry := rfl
@[simp] theorem startAt_run (entry : BitVec 16) : (startAt entry s).run = .running := rfl
@[simp] theorem startAt_fault (entry : BitVec 16) : (startAt entry s).fault = s.fault := rfl
@[simp] theorem startAt_faultpc (entry : BitVec 16) : (startAt entry s).faultpc = s.faultpc := rfl
@[simp] theorem startAt_padcfg (entry : BitVec 16) : (startAt entry s).padcfg = s.padcfg := rfl
@[simp] theorem startAt_drvstat (entry : BitVec 16) : (startAt entry s).drvstat = s.drvstat := rfl
@[simp] theorem startAt_drvoff (entry : BitVec 16) : (startAt entry s).drvoff = s.drvoff := rfl
@[simp] theorem startAt_mem (entry : BitVec 16) : (startAt entry s).mem = s.mem := rfl
@[simp] theorem startAt_cs (entry : BitVec 16) : (startAt entry s).cs = s.cs := rfl
@[simp] theorem startAt_emitted (entry : BitVec 16) : (startAt entry s).emitted = s.emitted := rfl
@[simp] theorem startAt_draws (entry : BitVec 16) : (startAt entry s).draws = s.draws := rfl

/-! ### softReset -/

@[simp] theorem softReset_params : (softReset s).params = s.params := rfl
@[simp] theorem softReset_w : (softReset s).w = Vector.replicate 16 0#64 := rfl
@[simp] theorem softReset_b : (softReset s).b = Vector.replicate 16 { base := 0#32, len := 0#32 } := rfl
@[simp] theorem softReset_pc : (softReset s).pc = 0#16 := rfl
@[simp] theorem softReset_run : (softReset s).run = .idle := rfl
@[simp] theorem softReset_fault : (softReset s).fault = 0#32 := rfl
@[simp] theorem softReset_faultpc : (softReset s).faultpc = 0#32 := rfl
@[simp] theorem softReset_padcfg : (softReset s).padcfg = 0x08000080#32 := rfl
@[simp] theorem softReset_drvstat : (softReset s).drvstat = 0#32 := rfl
@[simp] theorem softReset_drvoff : (softReset s).drvoff = 0#32 := rfl
@[simp] theorem softReset_mem : (softReset s).mem = s.mem := rfl
@[simp] theorem softReset_cs : (softReset s).cs = s.cs := rfl
@[simp] theorem softReset_emitted : (softReset s).emitted = s.emitted := rfl
@[simp] theorem softReset_draws : (softReset s).draws = s.draws := rfl

/-! ### Reading registers after an update -/

@[simp] theorem wreg_setW (i j : WReg) (v : Word) :
    wreg j (setW i v s) = if i = j then v else wreg j s := by
  simp only [wreg, setW_w, Fin.getElem_fin, Vector.getElem_set, Fin.ext_iff]

theorem wreg_eq_of_w {s t : State} (h : t.w = s.w) (i : WReg) : wreg i t = wreg i s := by
  simp only [wreg, h]

@[simp] theorem wreg_withMem (m : Memory) (i : WReg) : wreg i (withMem m s) = wreg i s := rfl

@[simp] theorem wreg_advance (i : WReg) : wreg i (advance s) = wreg i s := rfl

@[simp] theorem wreg_draw (i : WReg) : wreg i (draw s) = wreg i s := rfl

@[simp] theorem wreg_emit (recs : List Emission) (i : WReg) : wreg i (emit recs s) = wreg i s := rfl

@[simp] theorem wreg_setB (i : BReg) (d : Descriptor) (j : WReg) : wreg j (setB i d s) = wreg j s := rfl

@[simp] theorem wreg_setPadcfg (v : Word32) (i : WReg) : wreg i (setPadcfg v s) = wreg i s := rfl

@[simp] theorem wreg_takeFault (c : Cause) (i : WReg) : wreg i (takeFault c s) = wreg i s := rfl

/-- A descriptor after SETB. -/
theorem b_setB (i j : BReg) (d : Descriptor) :
    (setB i d s).b[j] = if i = j then d else s.b[j] := by
  simp only [setB_b, Fin.getElem_fin, Vector.getElem_set, Fin.ext_iff]

end Sys2Proof.Laws
end

