-- ==== Sys2Proof/Laws/Ops.lean ====
section
/-! SUPPORT. One lemma for each shared operation of Machine/Ops.lean and the checks of Machine/Operands.lean: what it
answers and when. Later proofs cite these instead of unfolding the operation. -/

namespace Sys2Proof.Laws

open Sys2Proof.Machine

/-! ### The fault that is raised -/

theorem lowestCause_none {conds : List (Cause × Bool)} :
    lowestCause conds = none ↔ ∀ p ∈ conds, p.2 = false := by
  induction conds with
  | nil => simp [lowestCause]
  | cons p rest ih =>
    obtain ⟨c, holds⟩ := p
    cases holds with
    | false => simp [lowestCause, ih]
    | true =>
      simp only [lowestCause, List.mem_cons, forall_eq_or_imp]
      cases lowestCause rest
      · simp
      · simp only [Bool.true_eq_false, false_and, iff_false]
        split <;> simp

/-- The cause raised holds, and no condition that holds has a lower code (60_exceptions.md R253). -/
theorem lowestCause_some {conds : List (Cause × Bool)} {c : Cause} (h : lowestCause conds = some c) :
    (c, true) ∈ conds ∧ ∀ p ∈ conds, p.2 = true → c.code ≤ p.1.code := by
  induction conds generalizing c with
  | nil => simp [lowestCause] at h
  | cons p rest ih =>
    obtain ⟨d, holds⟩ := p
    cases holds with
    | false =>
      have := ih (by simpa [lowestCause] using h)
      exact ⟨List.mem_cons_of_mem _ this.1, fun q hq hq' => by
        rcases List.mem_cons.1 hq with rfl | hq
        · simp at hq'
        · exact this.2 q hq hq'⟩
    | true =>
      simp only [lowestCause] at h
      cases hr : lowestCause rest with
      | none =>
        rw [hr] at h
        obtain rfl : d = c := by simpa using h
        refine ⟨List.mem_cons_self .., fun q hq hq' => ?_⟩
        rcases List.mem_cons.1 hq with rfl | hq
        · exact Nat.le_refl _
        · simp [lowestCause_none.1 hr q hq] at hq'
      | some e =>
        rw [hr] at h
        have he := ih hr
        simp only at h
        split at h
        · rename_i hle
          obtain rfl : d = c := by simpa using h
          refine ⟨List.mem_cons_self .., fun q hq hq' => ?_⟩
          rcases List.mem_cons.1 hq with rfl | hq
          · exact Nat.le_refl _
          · exact Nat.le_trans hle (he.2 q hq hq')
        · rename_i hle
          obtain rfl : e = c := by simpa using h
          refine ⟨List.mem_cons_of_mem _ he.1, fun q hq hq' => ?_⟩
          rcases List.mem_cons.1 hq with rfl | hq
          · exact Nat.le_of_not_le hle
          · exact he.2 q hq hq'

/-- What a checked command can do: take the fault with the lowest code, or perform its operation. -/
theorem checked_next {conds : List (Cause × Bool)} {s t : State} {op : Except Fault State}
    (h : checked conds s op = .next t) :
    (∃ c, lowestCause conds = some c ∧ t = takeFault c s) ∨
      (lowestCause conds = none ∧ ∃ u, op = .ok u ∧ t = advance u) := by
  unfold checked at h
  split at h
  · rename_i c hc
    exact .inl ⟨c, hc, by simpa using h.symm⟩
  · rename_i hc
    split at h
    · exact .inr ⟨hc, _, rfl, by simpa [complete] using h.symm⟩
    · simp at h

/-- A checked command whose conditions all fail performs its operation. -/
theorem checked_pass {conds : List (Cause × Bool)} {s u : State} {op : Except Fault State}
    (h : ∀ p ∈ conds, p.2 = false) (hop : op = .ok u) : checked conds s op = .next (advance u) := by
  simp [checked, lowestCause_none.2 h, hop, complete]

/-- A checked command one of whose conditions holds takes a fault. -/
theorem checked_fault {conds : List (Cause × Bool)} {s : State} {op : Except Fault State} {c : Cause}
    (h : lowestCause conds = some c) : checked conds s op = .next (takeFault c s) := by
  simp [checked, h]

/-! ### Memory primitives -/

theorem inRange_iff {i : BReg} {s : State} :
    inRange i s = true ↔ bufBase i s + bufLen i s ≤ s.params.memBytes := by
  simp [inRange]

theorem bufRead_ok {i : BReg} {s : State} (h : inRange i s = true) :
    bufRead i s = .ok (bufferBytes i s) := by
  simp [bufRead, memRead, bufferBytes, inRange_iff.1 h]

theorem bufWrite_ok {i : BReg} {v : List Byte} {s : State} (h : inRange i s = true)
    (hv : v.length = bufLen i s) : bufWrite i v s = .ok (withMem (writeBytes s.mem (bufBase i s) v) s) := by
  simp [bufWrite, memWrite, hv, inRange_iff.1 h]

/-- What a buffer write can do: the bytes land in the buffer's place inside M, and nothing else changes. -/
theorem bufWrite_cases {i : BReg} {v : List Byte} {s t : State} (h : bufWrite i v s = .ok t) :
    bufBase i s + v.length ≤ s.params.memBytes ∧ t = withMem (writeBytes s.mem (bufBase i s) v) s := by
  simp only [bufWrite, memWrite] at h
  split at h
  · rename_i hle
    exact ⟨hle, by simpa using h.symm⟩
  · simp at h

theorem bufReadAll_ok {is : List BReg} {s : State} (h : ∀ i ∈ is, inRange i s = true) :
    bufReadAll is s = .ok (is.map (bufferBytes · s)) := by
  induction is with
  | nil => rfl
  | cons i is ih =>
    rw [bufReadAll, bufRead_ok (h i (List.mem_cons_self ..)), ih fun j hj => h j (List.mem_cons_of_mem _ hj)]
    rfl

@[simp] theorem bufferBytes_length (i : BReg) (s : State) : (bufferBytes i s).length = bufLen i s := by
  simp [bufferBytes]

theorem updateBuffer_ok {bd : BReg} {f : List Byte → List Byte} {s : State} (h : inRange bd s = true)
    (hf : (f (bufferBytes bd s)).length = bufLen bd s) :
    updateBuffer bd f s = .ok (withMem (writeBytes s.mem (bufBase bd s) (f (bufferBytes bd s))) s) := by
  rw [updateBuffer, bufRead_ok h]
  exact bufWrite_ok h hf

theorem updateWith_ok {bd bs : BReg} {f : List Byte → List Byte → List Byte} {s : State}
    (h : inRange bd s = true) (hs : inRange bs s = true)
    (hf : (f (bufferBytes bd s) (bufferBytes bs s)).length = bufLen bd s) :
    updateWith bd bs f s =
      .ok (withMem (writeBytes s.mem (bufBase bd s) (f (bufferBytes bd s) (bufferBytes bs s))) s) := by
  rw [updateWith, bufRead_ok h, bufRead_ok hs]
  exact bufWrite_ok h hf

theorem updateFrom_ok {bd : BReg} {is : List BReg} {f : List Byte → List (List Byte) → List Byte} {s : State}
    (h : inRange bd s = true) (hs : ∀ i ∈ is, inRange i s = true)
    (hf : (f (bufferBytes bd s) (is.map (bufferBytes · s))).length = bufLen bd s) :
    updateFrom bd is f s =
      .ok (withMem (writeBytes s.mem (bufBase bd s) (f (bufferBytes bd s) (is.map (bufferBytes · s)))) s) := by
  rw [updateFrom, bufRead_ok h, bufReadAll_ok hs]
  exact bufWrite_ok h hf

/-- A command that ends in a buffer write of the right length has stored that buffer and nothing else. -/
theorem storedBuffer_of_write {bd : BReg} {out : List Byte} {s : State} (hwf : Memory.wf s.mem)
    (hout : out.length = bufLen bd s) :
    StoredBuffer bd out s (advance (withMem (writeBytes s.mem (bufBase bd s) out) s)) := by
  refine ⟨?_, fun a ha => ?_, rfl⟩
  · have := readBytes_writeBytes s.mem (bufBase bd s) out hwf
    rw [hout] at this
    exact this
  · show readByte (writeBytes s.mem (bufBase bd s) out) a = _
    rw [readByte_writeBytes _ _ _ _ hwf, dif_neg]
    intro hb
    exact ha ⟨hb.1, by rw [← hout]; exact hb.2⟩

/-! ### Register runs -/

/-- A register run writes word registers only. -/
theorem setRun_eq (r : Nat) (vs : List Nat) (s : State) : setRun r vs s = { s with w := (setRun r vs s).w } := by
  induction vs generalizing r s with
  | nil => rfl
  | cons v vs ih =>
    simp only [setRun]
    rw [ih]
    split <;> rfl

/-- "registers outside `w[rd] … w[rd+n−1]` are unchanged" (44_codec.md R171). -/
theorem wreg_setRun (r : Nat) (vs : List Nat) (s : State) (i : WReg) :
    wreg i (setRun r vs s) =
      if h : r ≤ i.val ∧ i.val < r + vs.length then zext64 (vs[i.val - r]'(by omega)) else wreg i s := by
  induction vs generalizing r s with
  | nil => simp [setRun]
  | cons v vs ih =>
    rw [setRun, ih]
    by_cases h : r + 1 ≤ i.val ∧ i.val < r + 1 + vs.length
    · have h' : r ≤ i.val ∧ i.val < r + (v :: vs).length := by simp only [List.length_cons]; omega
      rw [dif_pos h, dif_pos h']
      have : i.val - r = i.val - (r + 1) + 1 := by omega
      simp only [this, List.getElem_cons_succ]
    · rw [dif_neg h]
      by_cases hi : r = i.val
      · have h' : r ≤ i.val ∧ i.val < r + (v :: vs).length := by simp only [List.length_cons]; omega
        rw [dif_pos h', dif_pos (by omega), wreg_setW, if_pos (Fin.ext hi)]
        simp [hi]
      · have h' : ¬ (r ≤ i.val ∧ i.val < r + (v :: vs).length) := by simp only [List.length_cons]; omega
        rw [dif_neg h']
        split
        · rw [wreg_setW, if_neg (fun e => hi (Fin.ext_iff.1 e))]
        · rfl

/-! ### Checks -/

/-- No buffer check holds exactly when the buffers fit. -/
theorem bufferChecks_pass {bd : BReg} {is : List BReg} {s : State} :
    (∀ p ∈ bufferChecks bd is s, p.2 = false) ↔ BuffersFit bd is s := by
  simp only [bufferChecks, List.mem_cons, List.not_mem_nil, or_false, forall_eq_or_imp, forall_eq,
    Bool.not_eq_eq_eq_not, Bool.not_false, Bool.and_eq_true, List.all_eq_true, List.any_eq_false,
    bne_iff_ne, ne_eq, Decidable.not_not, Bool.not_eq_true, BuffersFit]
  constructor
  · rintro ⟨⟨h₁, h₂⟩, h₃, h₄⟩
    exact ⟨h₁, fun i hi => ⟨h₂ i hi, h₃ i hi, h₄ i hi⟩⟩
  · rintro ⟨h₁, h₂⟩
    exact ⟨⟨h₁, fun i hi => (h₂ i hi).1⟩, fun i hi => (h₂ i hi).2.1, fun i hi => (h₂ i hi).2.2⟩

/-- No codec check holds exactly when the buffer and the register run fit. -/
theorem codecChecks_pass {ws : Nat} {b : BReg} {r : WReg} {s : State} :
    (∀ p ∈ codecChecks ws b r s, p.2 = false) ↔ CodecFits ws b r s := by
  simp [codecChecks, CodecFits]

theorem rangeCheck_pass {b : BReg} {s : State} :
    (∀ p ∈ rangeCheck b s, p.2 = false) ↔ inRange b s = true := by
  simp [rangeCheck]

end Sys2Proof.Laws
end

