-- ==== Sys2Proof/Laws/Faults.lean ====
section
/-! SUPPORT. The checks of the commands and the fault conditions of Sys2Proof/Safety.lean say the same thing: one lemma for
each list of checks, and what a checked command answers in terms of the conditions. -/

namespace Sys2Proof.Laws

open Sys2Proof.Machine

/-! ### The checks as conditions -/

theorem not_inRange_iff {i : BReg} {s : State} : inRange i s = false ↔ OutOfRange i s := by
  rw [inRange, decide_eq_false_iff_not, Nat.not_le]
  rfl

theorem inRange_iff_not {i : BReg} {s : State} : inRange i s = true ↔ ¬ OutOfRange i s := by
  rw [← not_inRange_iff, Bool.not_eq_false]

theorem overlaps_iff {i j : BReg} {s : State} : overlaps i j s = true ↔ Overlap i j s := by
  rw [overlaps, decide_eq_true_iff]
  rfl

theorem bufLen_ne_iff {i j : BReg} {s : State} : bufLen i s ≠ bufLen j s ↔ s.b[i].len ≠ s.b[j].len := by
  simp only [bufLen, ne_eq, BitVec.toNat_inj]

theorem countOperand_eq (i : WReg) (s : State) : countOperand i s = countBits i s := rfl

theorem mem_rangeCheck {b : BReg} {s : State} {c : Cause} :
    (c, true) ∈ rangeCheck b s ↔ c = .bufRange ∧ OutOfRange b s := by
  simp [rangeCheck, not_inRange_iff]

theorem mem_bufferChecks {bd : BReg} {is : List BReg} {s : State} {c : Cause} :
    (c, true) ∈ bufferChecks bd is s ↔ BufferCondition bd is s c := by
  have hr : (!(inRange bd s && is.all (inRange · s))) = true ↔ ∃ i ∈ bd :: is, OutOfRange i s := by
    rw [Bool.not_eq_true', Bool.and_eq_false_iff, List.all_eq_false]
    simp only [Bool.not_eq_true, not_inRange_iff, List.mem_cons, exists_eq_or_imp]
  have hl : (is.any fun i => bufLen i s != bufLen bd s) = true ↔ ∃ i ∈ is, s.b[i].len ≠ s.b[bd].len := by
    simp only [List.any_eq_true, bne_iff_ne, bufLen_ne_iff]
  have ho : (is.any fun i => overlaps i bd s) = true ↔ ∃ i ∈ is, Overlap i bd s := by
    simp only [List.any_eq_true, overlaps_iff]
  simp only [bufferChecks, List.mem_cons, Prod.mk.injEq, List.not_mem_nil, or_false, BufferCondition,
    eq_comm (a := true), hr, hl, ho]

theorem mem_codecChecks {ws : Nat} {b : BReg} {r : WReg} {s : State} {c : Cause} :
    (c, true) ∈ codecChecks ws b r s ↔ CodecCondition ws b r s c := by
  simp only [codecChecks, List.mem_cons, Prod.mk.injEq, List.not_mem_nil, or_false, CodecCondition,
    eq_comm (a := true), Bool.not_eq_true', not_inRange_iff, bne_iff_ne, decide_eq_true_iff]
  rfl

/-! ### What a checked command answers -/

/-- A checked command takes the fault of the lowest condition that holds. If none holds it performs its operation. -/
theorem checked_spec {conds : List (Cause × Bool)} {s u : State} {op : Except Fault State} {P : Cause → Prop}
    (hP : ∀ c, (c, true) ∈ conds ↔ P c) (hop : (∀ c, ¬ P c) → op = .ok u) :
    (∃ c, P c ∧ (∀ d, P d → c.code ≤ d.code) ∧ checked conds s op = .next (takeFault c s)) ∨
      ((∀ c, ¬ P c) ∧ checked conds s op = .next (advance u)) := by
  cases h : lowestCause conds with
  | some c =>
    obtain ⟨hm, hmin⟩ := lowestCause_some h
    exact .inl ⟨c, (hP c).1 hm, fun d hd => hmin (d, true) ((hP d).2 hd) rfl, checked_fault h⟩
  | none =>
    have hno : ∀ c, ¬ P c := fun c hc => by
      have := lowestCause_none.1 h (c, true) ((hP c).2 hc)
      simp at this
    exact .inr ⟨hno, checked_pass (lowestCause_none.1 h) (hop hno)⟩

/-- A checked command none of whose conditions holds. -/
theorem checked_noFault {conds : List (Cause × Bool)} {s u : State} {op : Except Fault State} {P : Cause → Prop}
    (hP : ∀ c, (c, true) ∈ conds ↔ P c) (hno : ∀ c, ¬ P c) (hop : op = .ok u) :
    checked conds s op = .next (advance u) := by
  rcases checked_spec (s := s) hP (fun _ => hop) with ⟨c, hc, -⟩ | ⟨-, h⟩
  · exact absurd hc (hno c)
  · exact h

/-! ### Commands whose conditions do not hold -/

theorem buffersFit_of_noCondition {bd : BReg} {is : List BReg} {s : State}
    (h : ∀ c, ¬ BufferCondition bd is s c) : BuffersFit bd is s := by
  refine bufferChecks_pass.1 fun p hp => ?_
  obtain ⟨c, b⟩ := p
  cases b with
  | false => rfl
  | true => exact absurd (mem_bufferChecks.1 hp) (h c)

theorem codecFits_of_noCondition {ws : Nat} {b : BReg} {r : WReg} {s : State}
    (h : ∀ c, ¬ CodecCondition ws b r s c) : CodecFits ws b r s := by
  refine codecChecks_pass.1 fun p hp => ?_
  obtain ⟨c, v⟩ := p
  cases v with
  | false => rfl
  | true => exact absurd (mem_codecChecks.1 hp) (h c)

end Sys2Proof.Laws
end

