-- ==== Sys2Proof/Laws/Operands.lean ====
section
/-! SUPPORT. What the operand operations of Machine/Operands.lean are: rotations as bit-vector rotations, term lists as
finite sums, byte lists as the numbers they spell. -/

namespace Sys2Proof.Laws

open Sys2Proof Sys2Proof.Machine

/-! ### Words -/

/-- The bits that a left shift keeps. -/
theorem mul_mod_two_pow (x w c : Nat) (h : c ≤ w) : (x * 2^c) % 2^w = (x % 2^(w-c)) * 2^c := by
  have : 2^w = 2^(w-c) * 2^c := by rw [← Nat.pow_add]; congr 1; omega
  rw [this, Nat.mul_mod_mul_right]

/-- Adding below the shifted part is OR. -/
theorem or_of_mul_add (a b c : Nat) (h : b < 2^c) : a * 2^c + b = (a * 2^c) ||| b := by
  rw [← Nat.shiftLeft_eq, Nat.shiftLeft_add_eq_or_of_lt h]

/-- `rotl_W` of 41_wordarith.md R100 is the rotation of a W-bit vector. -/
theorem rotl_eq (W : Nat) (x : BitVec W) (c : Nat) : rotl W x.toNat (c % W) = (x.rotateLeft c).toNat := by
  rw [BitVec.toNat_rotateLeft, rotl]
  have hx := x.isLt
  rcases Nat.eq_zero_or_pos W with rfl | hW
  · simp at hx; simp [hx]
  have hc : c % W < W := Nat.mod_lt _ hW
  generalize c % W = c at *
  split
  · rename_i h; subst h
    simp only [Nat.shiftLeft_zero, Nat.sub_zero, Nat.shiftRight_eq_div_pow]
    rw [Nat.mod_eq_of_lt hx, Nat.div_eq_of_lt hx]; simp
  · rw [Nat.shiftLeft_eq, Nat.shiftRight_eq_div_pow, mul_mod_two_pow _ _ _ (by omega)]
    apply or_of_mul_add
    rw [Nat.div_lt_iff_lt_mul (Nat.two_pow_pos _), ← Nat.pow_add]
    rw [show c + (W - c) = W by omega]; exact hx

/-- `rotr_W` of 41_wordarith.md R100 is the rotation of a W-bit vector. -/
theorem rotr_eq (W : Nat) (x : BitVec W) (c : Nat) : rotr W x.toNat (c % W) = (x.rotateRight c).toNat := by
  rw [BitVec.toNat_rotateRight, rotr]
  have hx := x.isLt
  rcases Nat.eq_zero_or_pos W with rfl | hW
  · simp at hx; simp [hx]
  have hc : c % W < W := Nat.mod_lt _ hW
  generalize c % W = c at *
  split
  · rename_i h; subst h
    simp only [Nat.shiftRight_zero, Nat.sub_zero, Nat.shiftLeft_eq, Nat.mul_mod_left]; simp
  · rw [Nat.shiftLeft_eq, Nat.shiftRight_eq_div_pow, mul_mod_two_pow _ _ _ (by omega)]
    rw [Nat.add_comm, Nat.or_comm]
    apply or_of_mul_add
    rw [Nat.div_lt_iff_lt_mul (Nat.two_pow_pos _), ← Nat.pow_add]
    rw [show (W - c) + c = W by omega]; exact hx

/-- `zext_64` is zero extension. -/
theorem zext64_toNat {W : Nat} (x : BitVec W) : zext64 x.toNat = x.setWidth 64 := by
  apply BitVec.eq_of_toNat_eq
  simp [zext64]

/-- `w[i] mod 2^W` is the truncation to W bits. -/
theorem wordOperand_eq (W : Nat) (i : WReg) (s : State) :
    wordOperand W i s = (operandBits W i s).toNat := by simp [wordOperand, operandBits]

/-- The number of terms is the number of 1 bits of the list (30_encoding.md R74). -/
theorem termCount_eq_card (l : BitVec 16) :
    termCount l = (Finset.univ.filter fun i : Fin 16 => l.getLsbD i).card := by
  simp only [termCount, terms]
  rw [← List.toFinset_card_of_nodup ((List.nodup_finRange 16).filter _)]
  congr 1
  ext i; simp

/-- A sum over a term list. -/
theorem sum_terms (l : BitVec 16) (f : Fin 16 → Nat) :
    ((terms l).map f).sum = ∑ i : Fin 16, if l.getLsbD i then f i else 0 := by
  rw [← Finset.sum_filter]
  have : (Finset.univ.filter fun i : Fin 16 => l.getLsbD i) = (terms l).toFinset := by
    ext i; simp [terms]
  rw [this, List.sum_toFinset _ (by unfold terms; exact (List.nodup_finRange 16).filter _)]

/-- Bit `j` of an XOR-shift, the step of `xorFold`. -/
theorem xor_div_bit (a d : Nat) (j : Nat) : (a ^^^ (a / 2^d)) / 2^j % 2 = (a / 2^j % 2 + a / 2^(d+j) % 2) % 2 := by
  have h1 := Nat.testBit_xor a (a / 2^d) j
  rw [Nat.testBit_div_two_pow] at h1
  simp only [Nat.testBit_eq_decide_div_mod_eq] at h1
  have := Nat.mod_two_eq_zero_or_one (a / 2^j)
  have := Nat.mod_two_eq_zero_or_one (a / 2^(d+j))
  have := Nat.mod_two_eq_zero_or_one ((a ^^^ (a / 2^d)) / 2^j)
  rw [Nat.add_comm d j] at *
  rcases ‹(a / 2^j) % 2 = 0 ∨ _› with h | h <;> rcases ‹(a / 2^(j+d)) % 2 = 0 ∨ _› with h' | h' <;>
    simp [h, h'] at h1 ⊢ <;> omega

/-! ### Byte lists as numbers -/

/-- What `le_int` reads from M. -/
theorem leInt_readBytes (m : Memory) (a n : Nat) : leInt (readBytes m a n) = leValue m a n := by
  induction n generalizing a with
  | zero => rfl
  | succ n ih =>
    rw [readBytes, leInt, ih, leValue, leValue, Finset.sum_range_succ', Finset.mul_sum]
    simp only [Nat.add_zero, pow_zero, mul_one]
    rw [Nat.add_comm]; congr 1
    apply Finset.sum_congr rfl; intro j _
    rw [show a + 1 + j = a + (j+1) by omega]; ring

/-- `le_int` of a concatenation. -/
theorem leInt_append (x y : List Byte) : leInt (x ++ y) = leInt x + 256^x.length * leInt y := by
  induction x with
  | nil => simp [leInt]
  | cons a x ih => simp only [List.cons_append, leInt, ih, List.length_cons]; ring

/-- `be_int` of a list with one byte in front. -/
theorem beInt_cons (x : Byte) (l : List Byte) : beInt (x :: l) = x.toNat * 256^l.length + beInt l := by
  simp only [beInt, List.reverse_cons, leInt_append, leInt, List.length_reverse]; ring

/-- What `be_int` reads from M. -/
theorem beInt_readBytes (m : Memory) (a n : Nat) : beInt (readBytes m a n) = beValue m a n := by
  induction n generalizing a with
  | zero => rfl
  | succ n ih =>
    rw [readBytes, beInt_cons, ih, readBytes_length, beValue, beValue, Finset.sum_range_succ']
    simp only [Nat.add_zero, Nat.sub_zero, Nat.add_sub_cancel]
    rw [Nat.add_comm]; congr 1
    apply Finset.sum_congr rfl; intro j hj
    have := Finset.mem_range.1 hj
    rw [show a + 1 + j = a + (j+1) by omega]; congr 2; omega

/-- `val(i)` is `be_int` of the bytes of the buffer. -/
theorem bufferValue_eq (i : BReg) (s : State) : bufferValue i s = beInt (bufferBytes i s) :=
  (beInt_readBytes _ _ _).symm

/-- The integer a command has stored into its destination buffer. -/
theorem storedBuffer_value {bd : BReg} {s t : State} {out : List Byte} (h : StoredBuffer bd out s t) :
    bufferValue bd t = beInt out ∧ WroteOnly bd s t := by
  rw [bufferValue_eq, h.1]; exact ⟨rfl, h.2⟩

end Sys2Proof.Laws
end

