-- ==== Sys2Proof/Tests/Slice0.lean ====
section
/-! SUPPORT. Tests. Words are written out from the formats and the opcode map of 30_encoding.md, expected results are the
examples of the command's rule. The last part has a witness for the hypotheses of every statement that has some. -/

namespace Sys2Proof.Tests

open Sys2Proof Sys2Proof.Machine

/-! ### Well-formedness: each check refuses an ill-formed command and accepts the bound -/

theorem test_ldiz_pos : ¬ (Instr.ldiz 0 4 0#16).WellFormed ∧ (Instr.ldiz 0 3 0#16).WellFormed := by decide
theorem test_ldik_pos : ¬ (Instr.ldik 0 4 0#16).WellFormed ∧ (Instr.ldik 0 3 0#16).WellFormed := by decide
theorem test_csrr_number : ¬ (Instr.csrr 0 4096).WellFormed ∧ (Instr.csrr 0 4095).WellFormed := by decide
theorem test_csrw_number : ¬ (Instr.csrw 0 4096).WellFormed ∧ (Instr.csrw 0 4095).WellFormed := by decide

/-! ### Decoding: op in bits 31:24, A in 23:20, B in 19:16, C in 15:12, list, immediate or csr below -/


/-- A word of its own for every command, part 1. -/
def words1 : List (Word32 × Instr) :=
  [(0x00000000#32, .nop), (0x01000000#32, .halt), (0x029AA5C3#32, .ldiz 9 2 0xA5C3#16), (0x0298A5C3#32, .ldik 9 2 0xA5C3#16),
   (0x03960000#32, .mov 9 6), (0x04963000#32, .setb 9 6 3), (0x059000A5#32, .csrr 9 0x0A5), (0x069000A5#32, .csrw 9 0x0A5),
   (0x10963000#32, .rol16 9 6 3), (0x11963000#32, .ror16 9 6 3), (0x12963000#32, .rol24 9 6 3), (0x13963000#32, .ror24 9 6 3),
   (0x14963000#32, .rol32 9 6 3), (0x15963000#32, .ror32 9 6 3), (0x1690A5C3#32, .add32 9 0xA5C3#16), (0x17963000#32, .sub32 9 6 3),
   (0x18963000#32, .mul32 9 6 3), (0x19960000#32, .par8 9 6), (0x1A960000#32, .par32 9 6), (0x2090A5C3#32, .add64 9 0xA5C3#16)]

/-- A word of its own for every command, part 2. -/
def words2 : List (Word32 × Instr) :=
  [(0x21963000#32, .sub64 9 6 3), (0x2290A5C3#32, .and64 9 0xA5C3#16), (0x2390A5C3#32, .or64 9 0xA5C3#16), (0x2490A5C3#32, .xor64 9 0xA5C3#16),
   (0x25960000#32, .not64 9 6), (0x26963000#32, .mul64 9 6 3), (0x27963000#32, .rol64 9 6 3), (0x28963000#32, .ror64 9 6 3),
   (0x29963000#32, .shl64 9 6 3), (0x2A963000#32, .shr64 9 6 3), (0x2B963000#32, .rol48 9 6 3), (0x2C963000#32, .ror48 9 6 3),
   (0x2D960000#32, .minv32 9 6), (0x2E960000#32, .minv64 9 6), (0x4090A5C3#32, .addb 9 0xA5C3#16), (0x41960000#32, .addbs 9 6),
   (0x42960000#32, .subb 9 6), (0x43960000#32, .mulb 9 6), (0x44960000#32, .notb 9 6), (0x4590A5C3#32, .xorb 9 0xA5C3#16)]

/-- A word of its own for every command, part 3. -/
def words3 : List (Word32 × Instr) :=
  [(0x46903000#32, .rolb 9 3), (0x47903000#32, .rorb 9 3), (0x50960000#32, .unpk16be 9 6), (0x51960000#32, .unpk16le 9 6),
   (0x52960000#32, .unpk32be 9 6), (0x53960000#32, .unpk32le 9 6), (0x54960000#32, .unpk64be 9 6), (0x55960000#32, .unpk64le 9 6),
   (0x58960000#32, .pack16be 9 6), (0x59960000#32, .pack16le 9 6), (0x5A960000#32, .pack32be 9 6), (0x5B960000#32, .pack32le 9 6),
   (0x5C960000#32, .pack64be 9 6), (0x5D960000#32, .pack64le 9 6), (0x5E963000#32, .splitle 9 6 3), (0x5F963000#32, .comble 9 6 3),
   (0x60963000#32, .tblk 9 6 3), (0x61963000#32, .tblkmd 9 6 3), (0x62963000#32, .tblkbc 9 6 3)]

/-- A word of its own for every command. -/
def words : List (Word32 × Instr) := words1 ++ (words2 ++ words3)

theorem test_words_all : words.length = 59 := rfl

theorem test_decode_words : (words.all fun p => match decode p.1 with
    | .ok i => decide (i = p.2)
    | .error _ => false) = true := by decide

theorem test_encode_words : (words.all fun p => decide (encode p.2 = p.1)) = true := by decide

/-- Words with a 1 in a must-be-zero bit of each format (30_encoding.md R72 to R77). -/
theorem test_reserved_bits : ([0x00000001#32, 0x10123001#32, 0x03121000#32, 0x46112000#32, 0x16110003#32, 0x02210000#32,
    0x05010003#32].all fun x => match decode x with
    | .ok _ => false
    | .error _ => true) = true := by decide

theorem test_table_word : decodeTableWord 32 0x61302000 = some (.tblkmd 3 0 2) := by decide

/-! ### One step of a small unit -/

/-- Bytes, written as numbers. -/
def bytes (l : List Nat) : List Byte := l.map (BitVec.ofNat 8)

/-- The words `x`, `y`, `z` of 42_widearith.md and the buffer `S8` of 44_codec.md, as the examples name them. -/
def x : Word := 0x0123456789ABCDEF#64
/-- See `x`. -/
def y : Word := 0xFEDCBA9876543210#64
/-- See `x`. -/
def z : Word := 0x0F0F0F0F0F0F0F0F#64
/-- See `x`. -/
def s8 : List Byte := bytes [0x01, 0x23, 0x45, 0x67, 0x89, 0xAB, 0xCD, 0xEF]

/-- A RUNNING unit with these word registers, descriptors and first bytes of M. -/
def unit (ws : List (WReg × Word)) (ds : List (BReg × Descriptor)) (bytes : List Byte) : State :=
  let s := ws.foldl (fun s p => setW p.1 p.2 s) { State.reset with run := .running }
  withMem (writeBytes [] 0 bytes) (ds.foldl (fun s p => setB p.1 p.2 s) s)

/-- A unit with one register. -/
def unit1 (a : Word) : State := unit [(1, a)] [] []

/-- A unit with the registers w1 and w2. -/
def unit2 (a b : Word) : State := unit [(1, a), (2, b)] [] []

/-- A unit with the registers w1, w2 and w3. -/
def unit3 (a b c : Word) : State := unit [(1, a), (2, b), (3, c)] [] []

/-- A unit with `n` bytes in buffer 0, then `n` bytes in buffer 1 (and 2). -/
def buffers (n : Nat) (a : Word) (bytes : List Byte) : State :=
  let len : Word32 := BitVec.ofNat 32 n
  unit [(1, a)] [(0, ⟨0#32, len⟩), (1, ⟨len, len⟩), (2, ⟨len + len, len⟩)] bytes

/-- Register `w0` after a command. -/
def w0 (r : Result) : Option Word :=
  match r with
  | .next s => some (wreg 0 s)
  | .fault _ | .refused _ => none

/-- The registers w2, w3, w4, w5 after a command. -/
def wRun (r : Result) : Option (List Word) :=
  match r with
  | .next s => some [wreg 2 s, wreg 3 s, wreg 4 s, wreg 5 s]
  | .fault _ | .refused _ => none

/-- The bytes of buffer 0 after a command. -/
def buf0 (r : Result) : Option (List Byte) :=
  match r with
  | .next s => some (bufferBytes 0 s)
  | .fault _ | .refused _ => none

/-- FAULT after a command. -/
def faultOf (r : Result) : Option Word32 :=
  match r with
  | .next s => some s.fault
  | .fault _ | .refused _ => none

/-- The blocks emitted by a command. -/
def blocks (r : Result) : Option (List (List Byte)) :=
  match r with
  | .next s => some (s.emitted.map (·.block))
  | .fault _ | .refused _ => none

theorem test_nop : exec .nop (unit1 5#64) = .next (advance (unit1 5#64)) := rfl
theorem test_halt : exec .halt (unit1 5#64) = .next (halt (unit1 5#64)) := rfl
theorem test_ldiz : w0 (exec (.ldiz 0 2 0x8001#16) (unit1 0#64)) = some 0x0000800100000000#64 := by decide
theorem test_ldik : w0 (exec (.ldik 0 0 0x0203#16) (unit [(0, 0x8001#64)] [] [])) = some 0x203#64 := by decide
theorem test_mov : w0 (exec (.mov 0 1) (unit1 0xFFFF0000FFFFFFFF#64)) = some 0xFFFF0000FFFFFFFF#64 := by decide
theorem test_setb : (match exec (.setb 0 1 2) (unit2 0#64 0x100000003#64) with | .next s => some s.b[0] | _ => none) =
    some ⟨0#32, 3#32⟩ := by decide
theorem test_csrr : w0 (exec (.csrr 0 0x003) (unit1 0#64)) = some 0x0000000008000080#64 := by decide
theorem test_csrr_unassigned : faultOf (exec (.csrr 0 0x006) (unit1 0#64)) = some 0x203#32 := by decide
theorem test_csrw : (match exec (.csrw 1 0x003) (unit1 0xFFFFFFFF#64) with | .next s => some s.padcfg | _ => none) =
    some 0xFF07FFFF#32 := by decide
theorem test_csrw_status : faultOf (exec (.csrw 1 0x000) (unit1 0#64)) = some 0x203#32 := by decide
theorem test_rol16 : w0 (exec (.rol16 0 1 2) (unit2 0x1234#64 20#64)) = some 0x2341#64 := by decide
theorem test_ror16 : w0 (exec (.ror16 0 1 2) (unit2 0x8001#64 1#64)) = some 0xC000#64 := by decide
theorem test_rol24 : w0 (exec (.rol24 0 1 2) (unit2 0x123456#64 28#64)) = some 0x234561#64 := by decide
theorem test_ror24 : w0 (exec (.ror24 0 1 2) (unit2 0x123456#64 8#64)) = some 0x561234#64 := by decide
theorem test_rol32 : w0 (exec (.rol32 0 1 2) (unit2 0x12345678#64 0xFFFFFFFF#64)) = some 0x091A2B3C#64 := by decide
theorem test_ror32 : w0 (exec (.ror32 0 1 2) (unit2 0x12345678#64 40#64)) = some 0x78123456#64 := by decide
theorem test_add32 : w0 (exec (.add32 0 0b1110#16) (unit3 0xFFFFFFFF#64 0xFFFFFFFF#64 0xFFFFFFFF#64)) =
    some 0xFFFFFFFD#64 := by decide
theorem test_add32_one_term : faultOf (exec (.add32 0 0b10#16) (unit1 1#64)) = some 0x204#32 := by decide
theorem test_sub32 : w0 (exec (.sub32 0 1 2) (unit2 0x12345678#64 0x9ABCDEF0#64)) = some 0x77777788#64 := by decide
theorem test_mul32 : w0 (exec (.mul32 0 1 2) (unit2 0x12345678#64 0x9ABCDEF0#64)) = some 0x242D2080#64 := by decide
theorem test_par8 : w0 (exec (.par8 0 1) (unit1 0x17F#64)) = some 1#64 := by decide
theorem test_par32 : w0 (exec (.par32 0 1) (unit1 0x12345678#64)) = some 1#64 := by decide
theorem test_add64 : w0 (exec (.add64 0 0b1110#16) (unit3 x y 1#64)) = some 0#64 := by decide
theorem test_sub64 : w0 (exec (.sub64 0 1 2) (unit2 x y)) = some 0x02468ACF13579BDF#64 := by decide
theorem test_and64 : w0 (exec (.and64 0 0b110#16) (unit2 x z)) = some 0x01030507090B0D0F#64 := by decide
theorem test_or64 : w0 (exec (.or64 0 0b110#16) (unit2 x z)) = some 0x0F2F4F6F8FAFCFEF#64 := by decide
theorem test_xor64 : w0 (exec (.xor64 0 0b1110#16) (unit3 x y z)) = some 0xF0F0F0F0F0F0F0F0#64 := by decide
theorem test_not64 : w0 (exec (.not64 0 1) (unit1 x)) = some y := by decide
theorem test_mul64 : w0 (exec (.mul64 0 1 2) (unit2 x y)) = some 0x2236D88FE5618CF0#64 := by decide
theorem test_rol64 : w0 (exec (.rol64 0 1 2) (unit2 x 100#64)) = some 0x9ABCDEF012345678#64 := by decide
theorem test_ror64 : w0 (exec (.ror64 0 1 2) (unit2 x 33#64)) = some 0xC4D5E6F78091A2B3#64 := by decide
theorem test_shl64 : w0 (exec (.shl64 0 1 2) (unit2 x 33#64)) = some 0x13579BDE00000000#64 := by decide
theorem test_shl64_by_64 : w0 (exec (.shl64 0 1 2) (unit2 x 64#64)) = some 0#64 := by decide
theorem test_shr64 : w0 (exec (.shr64 0 1 2) (unit2 x 31#64)) = some 0x0000000002468ACF#64 := by decide
theorem test_shr64_by_64 : w0 (exec (.shr64 0 1 2) (unit2 x 64#64)) = some 0#64 := by decide
theorem test_rol48 : w0 (exec (.rol48 0 1 2) (unit2 0xFFFF800000000001#64 1#64)) = some 3#64 := by decide
theorem test_rol48_by_17 : faultOf (exec (.rol48 0 1 2) (unit2 1#64 17#64)) = some 0x20A#32 := by decide
theorem test_ror48 : w0 (exec (.ror48 0 1 2) (unit2 0x123456789ABC#64 16#64)) = some 0x9ABC12345678#64 := by decide
theorem test_minv32 : w0 (exec (.minv32 0 1) (unit1 0x12345679#64)) = some 0xF19E33C9#64 := by decide
theorem test_minv64 : w0 (exec (.minv64 0 1) (unit1 x)) = some 0x010FEF010FEF010F#64 := by decide
theorem test_minv64_even : faultOf (exec (.minv64 0 1) (unit1 2#64)) = some 0#32 := by decide
theorem test_addb : buf0 (exec (.addb 0 0b110#16) (buffers 3 0#64 (bytes [0x12, 0x34, 0x56, 0xF0, 0xF0, 0xF0, 0x01, 0x02, 0x03]))) =
    some (bytes [0x04, 0x27, 0x49]) := by decide
theorem test_addb_empty_list : faultOf (exec (.addb 0 0#16) (buffers 1 0#64 [0x01#8])) = some 0x204#32 := by decide
theorem test_addbs : buf0 (exec (.addbs 0 1) (buffers 2 0x12345678#64 (bytes [0x00, 0x10]))) =
    some (bytes [0x56, 0x88]) := by decide
theorem test_subb : buf0 (exec (.subb 0 1) (buffers 3 0#64 (bytes [0x12, 0x34, 0x56, 0x01, 0xFF, 0x57]))) =
    some (bytes [0x10, 0x34, 0xFF]) := by decide
theorem test_subb_itself : faultOf (exec (.subb 0 0) (buffers 1 0#64 [0x01#8])) = some 0x207#32 := by decide
theorem test_mulb : buf0 (exec (.mulb 0 1) (buffers 3 0#64 (bytes [0x12, 0x34, 0x56, 0x01, 0x02, 0x03]))) =
    some (bytes [0xF5, 0x49, 0x02]) := by decide
theorem test_notb : buf0 (exec (.notb 0 1) (buffers 3 0#64 (bytes [0x00, 0x00, 0x00, 0x00, 0xFF, 0x5A]))) =
    some (bytes [0xFF, 0x00, 0xA5]) := by decide
theorem test_xorb : buf0 (exec (.xorb 0 0b110#16) (buffers 3 0#64 (bytes [0x01, 0x02, 0x03, 0x10, 0x20, 0x30, 0xFF, 0xFF, 0xFF]))) =
    some (bytes [0xEE, 0xDD, 0xCC]) := by decide
theorem test_rolb : buf0 (exec (.rolb 0 1) (buffers 5 12#64 (bytes [0x12, 0x34, 0x56, 0x78, 0x9A]))) =
    some (bytes [0x45, 0x67, 0x89, 0xA1, 0x23]) := by decide
theorem test_rorb : buf0 (exec (.rorb 0 1) (buffers 6 19#64 (bytes [0x01, 0x02, 0x03, 0x04, 0x05, 0x06]))) =
    some (bytes [0x80, 0xA0, 0xC0, 0x20, 0x40, 0x60]) := by decide
theorem test_unpk16be : wRun (exec (.unpk16be 2 0) (buffers 8 0#64 s8)) =
    some [0x0123#64, 0x4567#64, 0x89AB#64, 0xCDEF#64] := by decide
theorem test_unpk16le : wRun (exec (.unpk16le 2 0) (buffers 8 0#64 s8)) =
    some [0x2301#64, 0x6745#64, 0xAB89#64, 0xEFCD#64] := by decide
theorem test_unpk32be : wRun (exec (.unpk32be 2 0) (buffers 8 0#64 s8)) =
    some [0x01234567#64, 0x89ABCDEF#64, 0#64, 0#64] := by decide
theorem test_unpk32le : wRun (exec (.unpk32le 2 0) (buffers 8 0#64 s8)) =
    some [0x67452301#64, 0xEFCDAB89#64, 0#64, 0#64] := by decide
theorem test_unpk64be : wRun (exec (.unpk64be 2 0) (buffers 8 0#64 s8)) =
    some [0x0123456789ABCDEF#64, 0#64, 0#64, 0#64] := by decide
theorem test_unpk64le : wRun (exec (.unpk64le 2 0) (buffers 8 0#64 s8)) =
    some [0xEFCDAB8967452301#64, 0#64, 0#64, 0#64] := by decide
theorem test_unpk32be_past_w15 : faultOf (exec (.unpk32be 15 0) (buffers 8 0#64 [])) = some 0x209#32 := by decide
theorem test_pack16be : buf0 (exec (.pack16be 0 2) (unit [(2, 0xABCD0123#64), (3, 0x4567#64), (4, 0x89AB#64), (5, 0xCDEF#64)] [(0, ⟨0#32, 8#32⟩)] [])) =
    some s8 := by decide
theorem test_pack16le : buf0 (exec (.pack16le 0 2) (unit [(2, 0x2301#64), (3, 0x6745#64), (4, 0xAB89#64), (5, 0xEFCD#64)] [(0, ⟨0#32, 8#32⟩)] [])) =
    some s8 := by decide
theorem test_pack32be : buf0 (exec (.pack32be 0 2) (unit [(2, 0x01234567#64), (3, 0x89ABCDEF#64)] [(0, ⟨0#32, 8#32⟩)] [])) =
    some s8 := by decide
theorem test_pack32le : buf0 (exec (.pack32le 0 2) (unit [(2, 0x67452301#64), (3, 0xEFCDAB89#64)] [(0, ⟨0#32, 8#32⟩)] [])) =
    some s8 := by decide
theorem test_pack64be : buf0 (exec (.pack64be 0 2) (unit [(2, 0x0123456789ABCDEF#64)] [(0, ⟨0#32, 8#32⟩)] [])) =
    some s8 := by decide
theorem test_pack64le : buf0 (exec (.pack64le 0 2) (unit [(2, 0xEFCDAB8967452301#64)] [(0, ⟨0#32, 8#32⟩)] [])) =
    some s8 := by decide
theorem test_splitle : buf0 (exec (.splitle 0 1 1) (buffers 6 3#64 (bytes [0x00, 0x00, 0x00, 0x00, 0x00, 0x00, 0x01, 0x02, 0x03, 0x04, 0x05, 0x06]))) =
    some (bytes [0x03, 0x02, 0x01, 0x06, 0x05, 0x04]) := by decide
theorem test_splitle_length : faultOf (exec (.splitle 0 1 1) (buffers 6 4#64 [])) = some 0x208#32 := by decide
theorem test_comble : buf0 (exec (.comble 0 1 1) (buffers 8 4#64 (bytes [0x00, 0x00, 0x00, 0x00, 0x00, 0x00, 0x00, 0x00, 0x04, 0x03, 0x02, 0x01, 0x08, 0x07, 0x06, 0x05]))) =
    some (bytes [0x01, 0x02, 0x03, 0x04, 0x05, 0x06, 0x07, 0x08]) := by decide
theorem test_tblk : blocks (exec (.tblk 3 0 1) (buffers 2 1#64 (bytes [0x05, 0x06]))) =
    some [bytes [0x05], bytes [0x06], bytes [0x01]] := by decide
theorem test_tblkmd : blocks (exec (.tblkmd 3 0 1) (setPadcfg 0x02038001#32 (buffers 5 8#64 (bytes [0xA0, 0xA1, 0xA2, 0xA3, 0xA4])))) =
    some [(bytes [0xA0, 0xA1, 0xA2, 0xA3, 0xA4, 0x81, 0x28, 0x00])] := by decide
theorem test_tblkmd_inconsistent : faultOf (exec (.tblkmd 3 0 1) (buffers 0 8#64 [])) = some 0x20B#32 := by decide
theorem test_tblkbc : blocks (exec (.tblkbc 3 0 1) (buffers 10 64#64 (bytes [0xA0, 0xA1, 0xA2, 0xA3, 0xA4, 0xA5, 0xA6, 0xA7, 0xA8, 0xA9]))) =
    some [bytes [0xA0, 0xA1, 0xA2, 0xA3, 0xA4, 0xA5, 0xA6, 0xA7], bytes [0xA8, 0xA9, 0x00, 0x00, 0x00, 0x00, 0x00, 0x00]] := by decide
theorem test_tblkbc_size : faultOf (exec (.tblkbc 3 0 1) (buffers 1 60#64 [])) = some 0x120#32 := by decide

/-- A word stored by `withFetchWord` is the one the next step runs. -/
theorem test_first_step : (match step (State.reset.withFetchWord 32 0x01000000) with
    | .next s => s.run
    | _ => .idle) = .halted := by decide

/-! ### Witnesses: concrete states and operands that meet the hypotheses of the statements -/

/-- A RUNNING unit: buffers of 8 bytes at 0, 8, 32 and at the end of M, one of 16 bytes at 0, one of 3 bytes ("abc") at
16, an empty one behind M, and one that reaches past M. Counts 8, 64, 3, 16, 17, 0, 65 and 2^32 - 8 in w1 to w8. NOP is at index 0 of CS. -/
def wit : State :=
  writeCommand 0 0#32 (unit
    [(1, 8#64), (2, 64#64), (3, 3#64), (4, 16#64), (5, 17#64), (7, 65#64), (8, 0xFFFFFFF8#64)]
    [(0, ⟨0#32, 8#32⟩), (1, ⟨8#32, 8#32⟩), (2, ⟨65528#32, 8#32⟩), (3, ⟨16#32, 3#32⟩), (4, ⟨65536#32, 0#32⟩),
     (5, ⟨32#32, 8#32⟩), (6, ⟨65529#32, 8#32⟩), (7, ⟨0#32, 16#32⟩)]
    [0#8, 1#8, 2#8, 3#8, 4#8, 5#8, 6#8, 7#8, 8#8, 9#8, 10#8, 11#8, 12#8, 13#8, 14#8, 15#8, 0x61#8, 0x62#8, 0x63#8])

/-- The same unit, HALTED. -/
def witHalted : State := { wit with run := .halted }

/-- The same unit after a USER fault. -/
def witFaulted : State := takeFault .badBlockSize wit

/-- The same unit with word `x` at index 0 of CS. -/
def witAt (x : Word32) : State := writeCommand 0 x wit

theorem wit_consistent : Consistent wit where
  params_legal := by decide
  mem_canonical := by decide
  mem_inside := by decide
  cs_canonical := by decide
  cs_inside := by decide
  padcfg_reserved := by decide
  driver_idle := by decide
  fault_recorded := fun h => absurd h (by decide)
  no_fault_recorded := fun _ => by decide

theorem witHalted_consistent : Consistent witHalted :=
  ⟨wit_consistent.1, wit_consistent.2, wit_consistent.3, wit_consistent.4, wit_consistent.5, wit_consistent.6,
    wit_consistent.7, fun h => absurd h (by decide), fun _ => by decide⟩

theorem wit_memory : Memory.wf wit.mem := wit_consistent.mem_canonical

theorem witness_ResetConsistent :
    ({ memBytes := 1, csWords := 1, simpleMarker := 0#8 } : Config.Params).Legal ∧
      ({ memBytes := 2 ^ 28, csWords := 65536, simpleMarker := 0#8 } : Config.Params).Legal := by decide

theorem witness_StepKeepsConsistent : Consistent wit ∧ ∃ t, step wit = .next t := ⟨wit_consistent, _, rfl⟩

theorem witness_HostKeepsConsistent : Consistent witHalted ∧
    (∃ t d, hostTransaction (.writeM 65535 1#8) witHalted = .accepted t d) ∧
    ∃ t d, hostTransaction (.readM 65536) witHalted = .refused t d :=
  ⟨witHalted_consistent, ⟨_, _, rfl⟩, _, _, rfl⟩

theorem witness_DecodeEncode : (Instr.ldik 15 3 0xFFFF#16).WellFormed ∧ (Instr.csrw 15 4095).WellFormed := by decide

theorem witness_EncodeDecode : decode 0x06F00FFF#32 = .ok (.csrw 15 4095) := rfl

theorem witness_RowMatchDecides : decode 0x61302000#32 = .ok (.tblkmd 3 0 2) ∧
    0x61302000#32 &&& rowMask (.tblkmd 0 0 0) = rowMatch (.tblkmd 0 0 0) := ⟨rfl, rfl⟩

theorem test_reserved_bit_refused : decode 0x10123001#32 = .error (.reservedBits 0x10) := rfl

theorem test_reserved_bit_no_row (i : Instr) : 0x10123001#32 &&& rowMask i ≠ rowMatch i := by
  cases i <;> dsimp only [rowMask, rowMatch] <;> decide

/-- The opcodes at the ends of the unassigned ranges, and a word with a must-be-zero bit set, fetched by a RUNNING unit. -/
theorem witness_UnassignedOpcodesAreIllegal :
    (∀ op ∈ [0x07, 0x0F, 0x1B, 0x1F, 0x2F, 0x3F, 0x48, 0x4F, 0x56, 0x57, 0x63, 0xFF],
      (witAt (BitVec.ofNat 32 (op * 2 ^ 24))).run = .running ∧
        fetch (witAt (BitVec.ofNat 32 (op * 2 ^ 24))) = some (BitVec.ofNat 32 (op * 2 ^ 24)) ∧
        (0x07 ≤ op ∧ op ≤ 0x0F ∨ 0x1B ≤ op ∧ op ≤ 0x1F ∨ 0x2F ≤ op ∧ op ≤ 0x3F ∨ 0x48 ≤ op ∧ op ≤ 0x4F ∨
          op = 0x56 ∨ op = 0x57 ∨ 0x63 ≤ op)) ∧
    (∀ i, 0x10123001#32 &&& rowMask i ≠ rowMatch i) ∧ (∀ i, decode 0x10123001#32 ≠ .ok i) ∧
    (witAt 0x10123001#32).run = .running ∧ fetch (witAt 0x10123001#32) = some 0x10123001#32 :=
  ⟨by decide, test_reserved_bit_no_row, by simp [test_reserved_bit_refused], rfl, rfl⟩

theorem witness_StepRunsDecodedCommand : wit.run = .running ∧ wit.pc.toNat < wit.params.csWords ∧
    decode (readCommand wit.cs wit.pc.toNat) = .ok .nop := ⟨rfl, by decide, rfl⟩

theorem witness_OnlyRunningUnitSteps : State.reset.run ≠ .running ∧ witFaulted.run ≠ .running := by decide

/-- A fetch just behind CS, a step that goes on, a step that halts, a step that faults. -/
theorem witness_ProgramCounterRule :
    (({ wit with pc := 1024#16 } : State).run = .running ∧
      ({ wit with pc := 1024#16 } : State).params.csWords ≤ ({ wit with pc := 1024#16 } : State).pc.toNat) ∧
    (∃ t, step wit = .next t ∧ t.run = .running) ∧
    (∃ t, step (witAt 0x01000000#32) = .next t ∧ t.run = .halted) ∧
    ∃ t, step (witAt 0xFF000000#32) = .next t ∧ t.run = .faulted :=
  ⟨by decide, ⟨_, rfl, rfl⟩, ⟨_, rfl, rfl⟩, _, rfl, rfl⟩

theorem witness_ProgramsTerminate : wit.params.csWords < 65536 ∧
    ({ wit with params := { wit.params with csWords := 65535 } } : State).params.csWords < 65536 := by decide

/-- Commands that write EMIT, a descriptor, PADCFG and M, and a byte behind the buffer of the last. -/
theorem witness_CommandFrame : Memory.wf wit.mem ∧
    (∃ t, exec (.tblk 1 3 1) wit = .next t ∧ t.emitted.length = 1 ∧ wit.emitted.length = 0) ∧
    (∃ t, exec (.setb 0 1 2) wit = .next t ∧ t.b[0] ≠ wit.b[0]) ∧
    (∃ t, exec (.csrw 1 0x003) wit = .next t ∧ t.padcfg ≠ wit.padcfg) ∧
    (∃ t, exec (.notb 0 1) wit = .next t ∧ readByte t.mem 0 ≠ readByte wit.mem 0) ∧ ¬ InBuffer 0 8 wit :=
  ⟨wit_memory, ⟨_, rfl, by decide⟩, ⟨_, rfl, by decide⟩, ⟨_, rfl, by decide⟩,
    ⟨_, rfl, by decide⟩, fun h => absurd h.2 (by decide)⟩

/-- Three conditions at once, and none. -/
theorem witness_LowestCauseIsRaised :
    (FaultCondition (.addb 6 0b1001000#16) wit .bufRange ∧ FaultCondition (.addb 6 0b1001000#16) wit .lenMismatch ∧
      FaultCondition (.addb 6 0b1001000#16) wit .bufOverlap ∧
      ∀ d, FaultCondition (.addb 6 0b1001000#16) wit d → Cause.bufRange.code ≤ d.code) ∧
    NoFault .nop wit := by
  refine ⟨⟨.inr (.inl ⟨rfl, 6, by unfold OutOfRange; decide⟩), .inr (.inr (.inl ⟨rfl, 3, by decide⟩)),
    .inr (.inr (.inr ⟨rfl, 6, by unfold Overlap; decide⟩)), fun d hd => ?_⟩, fun _ h => h⟩
  rcases hd with ⟨_, h⟩ | ⟨rfl, _⟩ | ⟨rfl, _⟩ | ⟨rfl, _⟩
  · exact absurd h (by decide)
  all_goals decide

/-- PC_RANGE, ILLEGAL_INSTRUCTION, and a cause of the command. -/
theorem witness_FaultsArePrecise :
    (∃ t, step { wit with pc := 1024#16 } = .next t ∧ t.run = .faulted) ∧
    (∃ t, step (witAt 0x00000001#32) = .next t ∧ t.run = .faulted) ∧
    ∃ t, step (witAt 0x46601000#32) = .next t ∧ t.run = .faulted :=
  ⟨⟨_, rfl, rfl⟩, ⟨_, rfl, rfl⟩, _, rfl, rfl⟩

theorem witness_ClearFaultRule : witFaulted.run ≠ .running ∧
    (witFaulted.run = .faulted ∧ witFaulted.fault.toNat / 2 ^ 8 % 4 = 1) ∧
    ¬ ((takeFault .pcRange wit).run = .faulted ∧ (takeFault .pcRange wit).fault.toNat / 2 ^ 8 % 4 = 1) ∧
    ¬ (witHalted.run = .faulted ∧ witHalted.fault.toNat / 2 ^ 8 % 4 = 1) := by decide

theorem witness_StartRule : State.reset.run = .idle ∧ witHalted.run = .halted ∧ witFaulted.run = .faulted ∧
    wit.run = .running ∧ State.reset.params.csWords ≤ (1024#16).toNat := by decide

/-- RUNNING, a USAGE fault with an accepted and a refused transaction, and indices just out of range. -/
theorem witness_HostExclusion : wit.run = .running ∧
    ((takeFault .pcRange wit).run = .faulted ∧ (takeFault .pcRange wit).fault.toNat / 2 ^ 8 % 4 = 2) ∧
    (∃ t d, hostTransaction (.readW 15) (takeFault .pcRange wit) = .accepted t d) ∧
    (∃ t d, hostTransaction .clrFault (takeFault .pcRange wit) = .refused t d) ∧
    0x005 < 0x006 ∧ witHalted.run ≠ .running ∧ witHalted.params.memBytes ≤ 65536 ∧ witHalted.params.csWords ≤ 1024 :=
  ⟨rfl, by decide, ⟨_, _, rfl⟩, ⟨_, _, rfl⟩, by decide⟩

theorem witness_HostReadsWhatItWrote : Consistent witHalted ∧ witHalted.run ≠ .running ∧
    65535 < witHalted.params.memBytes ∧ witHalted.params.memBytes ≤ 65536 ∧ 1023 < witHalted.params.csWords ∧
    witHalted.params.csWords ≤ 1024 ∧ 15 < 16 ∧ 0x002 ≠ 0x003 := ⟨witHalted_consistent, by decide⟩

/-- Sizes 0 (w0) and 65 (w7). -/
theorem witness_BadBlockSizeIsRecoverable : wit.run = .running ∧ wit.fault = 0#32 ∧ wit.faultpc = 0#32 ∧
    ¬ OutOfRange 2 wit ∧ countBits 0 wit = 0 ∧ countBits 7 wit % 8 ≠ 0 := by unfold OutOfRange; decide

theorem witness_ResetInsideCommand : Memory.wf wit.mem ∧ storeTarget (.notb 0 1) = some 0 ∧ ¬ InBuffer 0 8 wit :=
  ⟨wit_memory, rfl, fun h => absurd h.2 (by decide)⟩

theorem witness_LoadImmediate : 3 < 4 ∧ 0 < 4 := by decide

theorem witness_ProgramSeesOnlyPadcfg : Consistent wit ∧ wit.run = .running := ⟨wit_consistent, rfl⟩

/-- The last assigned number and the first unassigned one, numbers beside PADCFG's. -/
theorem witness_ControlRegisterAccess : 0x005 < 0x006 ∧ 0x002 ≠ 0x003 ∧ 0x004 ≠ 0x003 := by decide

/-- Lists of two terms and of one. -/
theorem witness_Add32Sum : 2 ≤ (Finset.univ.filter fun i : WReg => (0x8001#16).getLsbD i).card ∧
    (Finset.univ.filter fun i : WReg => (0x8000#16).getLsbD i).card < 2 := by decide

theorem witness_Add64Sum : 2 ≤ (Finset.univ.filter fun i : WReg => (0xC000#16).getLsbD i).card ∧
    (Finset.univ.filter fun i : WReg => (0x0001#16).getLsbD i).card < 2 := by decide

theorem witness_LogicOverTerms : 2 ≤ (Finset.univ.filter fun i : WReg => (0x0003#16).getLsbD i).card ∧
    (Finset.univ.filter fun i : WReg => (0x0000#16).getLsbD i).card < 2 := by decide

theorem witness_RotateRoundTrip : (0 : WReg) ≠ 4 ∧ countBits 4 wit ≤ 16 := by decide

/-- The list of w1 and w2. -/
theorem witness_HalfWordDatapaths : (1 : WReg) ≠ 2 ∧
    ∀ i : WReg, (0b110#16).getLsbD i = true ↔ i = 1 ∨ i = 2 := by decide

theorem witness_Rotates48 : countBits 4 wit ≤ 16 ∧ 16 < countBits 5 wit := by decide

theorem witness_ModularInverse : (wreg 3 wit).toNat % 2 = 1 := by decide

theorem witness_ModularInverseOfEven : (wreg 0 wit).toNat % 2 = 0 ∧ (wreg 1 wit).toNat % 2 = 0 := by decide

/-- Buffers that touch each other and the end of M, and an empty buffer that is its own source. -/
theorem witness_BufferArithmetic : Memory.wf wit.mem ∧
    NoFault (.addb 0 0b100100#16) wit ∧
    NoFault (.addb 4 0b10000#16) wit ∧
    NoFault (.addbs 2 7) wit ∧
    NoFault (.subb 2 0) wit ∧
    NoFault (.mulb 0 1) wit := by
  refine ⟨wit_memory, ?_, ?_, ?_, ?_, ?_⟩
  all_goals intro c; cases c
  all_goals
    dsimp only [FaultCondition, BufferCondition, CodecCondition, OutOfRange, Overlap]
    decide

theorem witness_BufferLogic : Memory.wf wit.mem ∧
    NoFault (.notb 0 1) wit ∧
    NoFault (.xorb 2 0b11#16) wit := by
  refine ⟨wit_memory, ?_, ?_⟩
  all_goals intro c; cases c
  all_goals
    dsimp only [FaultCondition, BufferCondition, CodecCondition, OutOfRange, Overlap]
    decide

theorem witness_BufferRotates : Memory.wf wit.mem ∧
    NoFault (.rolb 2 7) wit ∧
    NoFault (.rorb 3 8) wit ∧
    NoFault (.rolb 4 1) wit := by
  refine ⟨wit_memory, ?_, ?_, ?_⟩
  all_goals intro c; cases c
  all_goals
    dsimp only [FaultCondition, BufferCondition, CodecCondition, OutOfRange, Overlap]
    decide

/-- A count of 8 on an empty buffer, on three bytes, and at the end of M. -/
theorem witness_WholeByteRotates : Memory.wf wit.mem ∧ ¬ OutOfRange 2 wit ∧ ¬ OutOfRange 3 wit ∧ ¬ OutOfRange 4 wit ∧
    countBits 1 wit = 8 * 1 ∧ countBits 0 wit = 8 * 0 := by
  refine ⟨wit_memory, ?_⟩
  unfold OutOfRange
  decide

theorem witness_BufferRotateRoundTrip : Memory.wf wit.mem ∧ ¬ OutOfRange 2 wit ∧ ¬ OutOfRange 4 wit := by
  refine ⟨wit_memory, ?_⟩
  unfold OutOfRange
  decide

/-- Register runs that end at w15. -/
theorem witness_UnpackWords : Memory.wf wit.mem ∧
    NoFault (.unpk16be 12 2) wit ∧
    NoFault (.unpk16le 12 2) wit ∧
    NoFault (.unpk32be 14 2) wit ∧
    NoFault (.unpk32le 14 2) wit ∧
    NoFault (.unpk64be 15 2) wit ∧
    NoFault (.unpk64le 15 2) wit := by
  refine ⟨wit_memory, ?_, ?_, ?_, ?_, ?_, ?_⟩
  all_goals intro c; cases c
  all_goals
    dsimp only [FaultCondition, BufferCondition, CodecCondition, OutOfRange, Overlap]
    decide

theorem witness_UnpackThenPack : Memory.wf wit.mem ∧
    NoFault (.unpk16be 12 2) wit ∧
    NoFault (.unpk16le 12 2) wit ∧
    NoFault (.unpk32be 14 2) wit ∧
    NoFault (.unpk32le 14 2) wit ∧
    NoFault (.unpk64be 15 2) wit ∧
    NoFault (.unpk64le 15 2) wit := witness_UnpackWords

/-- Register runs that end at w15. -/
theorem witness_PackWords : Memory.wf wit.mem ∧
    NoFault (.pack16be 2 12) wit ∧
    NoFault (.pack16le 2 12) wit ∧
    NoFault (.pack32be 2 14) wit ∧
    NoFault (.pack32le 2 14) wit ∧
    NoFault (.pack64be 2 15) wit ∧
    NoFault (.pack64le 2 15) wit := by
  refine ⟨wit_memory, ?_, ?_, ?_, ?_, ?_, ?_⟩
  all_goals intro c; cases c
  all_goals
    dsimp only [FaultCondition, BufferCondition, CodecCondition, OutOfRange, Overlap]
    decide

/-- One group, and no group. -/
theorem witness_SplitAndCombine : Memory.wf wit.mem ∧
    NoFault (.splitle 0 2 1) wit ∧
    NoFault (.splitle 4 4 7) wit := by
  refine ⟨wit_memory, ?_, ?_⟩
  all_goals intro c; cases c
  all_goals
    dsimp only [FaultCondition, BufferCondition, CodecCondition, OutOfRange, Overlap]
    decide

theorem witness_CombineUndoesSplit : Memory.wf wit.mem ∧
    NoFault (.splitle 1 0 1) wit ∧
    NoFault (.comble 2 1 1) wit := by
  refine ⟨wit_memory, ?_, ?_⟩
  all_goals intro c; cases c
  all_goals
    dsimp only [FaultCondition, BufferCondition, CodecCondition, OutOfRange, Overlap]
    decide

/-- A message of one whole block, and an empty one. -/
theorem witness_SimpleTransform : Memory.wf wit.mem ∧
    NoFault (.tblk 1 2 1) wit ∧
    NoFault (.tblk 1 4 3) wit := by
  refine ⟨wit_memory, ?_, ?_⟩
  all_goals intro c; cases c
  all_goals
    dsimp only [FaultCondition, BufferCondition, CodecCondition, OutOfRange, Overlap]
    decide

/-- The unit with always-adds-a-full-block configured. -/
def witFullBlock : State := setPadcfg 0x08040080#32 wit

/-- Block lengths 64 and 16 with an 8-byte suffix: tails of one and of two blocks, under both policies. -/
theorem witness_MerkleDamgardTransform : NoFault (.tblkmd 1 2 2) wit ∧ NoFault (.tblkmd 1 2 4) wit ∧
    NoFault (.tblkmd 1 7 4) witFullBlock ∧ NoFault (.tblkmd 1 2 4) witFullBlock ∧
    mdTailBlocks wit.padcfg 64 8 = 1 ∧ mdTailBlocks wit.padcfg 16 8 = 2 ∧
    mdTailBlocks witFullBlock.padcfg 16 16 = 1 ∧ mdTailBlocks witFullBlock.padcfg 16 8 = 2 := by
  refine ⟨?_, ?_, ?_, ?_, by decide⟩
  all_goals intro c; cases c
  all_goals
    dsimp only [FaultCondition, OutOfRange]
    decide

/-- Block sizes of 64 and 8 bits, an empty message. -/
theorem witness_CipherTransform : Memory.wf wit.mem ∧
    NoFault (.tblkbc 1 2 2) wit ∧
    NoFault (.tblkbc 1 4 1) wit := by
  refine ⟨wit_memory, ?_, ?_⟩
  all_goals intro c; cases c
  all_goals
    dsimp only [FaultCondition, BufferCondition, CodecCondition, OutOfRange, Overlap]
    decide

theorem witness_AbcBlock : ¬ OutOfRange 3 wit ∧ countBits 2 wit = 64 ∧ wit.padcfg = 0x08000080#32 ∧
    bufferBytes 3 wit = [0x61#8, 0x62#8, 0x63#8] := by unfold OutOfRange; decide

theorem witness_BlocksCarryTheMessage : Memory.wf wit.mem ∧
    NoFault (.tblk 1 3 1) wit ∧
    NoFault (.tblkmd 1 3 2) wit ∧
    NoFault (.tblkbc 1 3 2) wit := by
  refine ⟨wit_memory, ?_, ?_, ?_⟩
  all_goals intro c; cases c
  all_goals
    dsimp only [FaultCondition, BufferCondition, CodecCondition, OutOfRange, Overlap]
    decide

/-- The three commands with their runs, each with a record in ACCUMULATING (number 0). TBLK and TBLKMD have one in
FINALIZING too, and so has TBLKBC on three bytes. -/
theorem witness_DriverRefinesCommand : wit.drvstat = 0#32 ∧ wit.drvoff = 0#32 ∧
    NoFault (.tblk 1 2 1) wit ∧ NoFault (.tblkmd 1 7 4) wit ∧ NoFault (.tblkbc 1 2 2) wit ∧
    NoFault (.tblkbc 1 3 2) wit ∧
    (1 < (tblkRun 1 1 (bufferBytes 2 wit) wit).pending.length ∧ 0 < bufLen 2 wit / countBits 1 wit) ∧
    (1 < (tblkmdRun 1 4 (bufferBytes 7 wit) wit).pending.length ∧ 0 < bufLen 7 wit / countBits 4 wit) ∧
    (0 < (tblkbcRun 1 2 (bufferBytes 2 wit) wit).pending.length ∧ 0 < bufLen 2 wit / (countBits 2 wit / 8)) ∧
    0 < (tblkbcRun 1 2 (bufferBytes 3 wit) wit).pending.length ∧ bufLen 3 wit / (countBits 2 wit / 8) = 0 := by
  refine ⟨rfl, rfl, ?_, ?_, ?_, ?_, by decide, by decide, by decide⟩
  all_goals intro c; cases c
  all_goals
    dsimp only [FaultCondition, OutOfRange]
    decide

end Sys2Proof.Tests
end

