-- ==== Sys2Proof/Proofs/Commands.lean ====
section
/-! SUPPORT. What one command can do, said once: `Operation` is what a command that completes may change before `pc`
moves on, `Answers` is the three ways `exec` can answer, and `exec_answers` says that every command answers in one of
them. Statements about every command are derived from `exec_answers`. -/

namespace Sys2Proof.Proofs

open Sys2Proof Sys2Proof.Machine Sys2Proof.Laws

/-- What the operation of command `i` may make of state `s` before `pc` moves on (20_memory.md R67 for the buffers,
46_system.md R235 and R237 for the descriptors and PADCFG, 45_blockprocessor.md R200 for EMIT). -/
inductive Operation (i : Instr) (s : State) : State → Prop
  /-- Word registers are written, and free values may be drawn (log 4). -/
  | words (w : Vector Word 16) (draws : Nat) : Operation i s { s with w := w, draws := draws }
  | descriptor {bd : BReg} {rs rt : WReg} (d : Descriptor) (hi : i = .setb bd rs rt) : Operation i s (setB bd d s)
  | padcfg {rs : WReg} (v : Word32) (hi : i = .csrw rs csrPadcfg) : Operation i s (setPadcfg v s)
  /-- The whole destination buffer is written, and it lies inside M. -/
  | buffer {bd : BReg} {out : List Byte} (hi : storeTarget i = some bd) (hin : inRange bd s = true)
      (hout : out.length = bufLen bd s) : Operation i s (withMem (writeBytes s.mem (bufBase bd s) out) s)
  | records (recs : List Emission)
      (hi : ∃ rx bs rt, i = .tblk rx bs rt ∨ i = .tblkmd rx bs rt ∨ i = .tblkbc rx bs rt) :
      Operation i s (emit recs s)

/-- What command `i` may answer in state `s`: the fault with the lowest code among the conditions that hold
(60_exceptions.md R253), the end of the program, or its operation and the move to the next command. -/
inductive Answers (i : Instr) (s : State) : Result → Prop
  | fault {c : Cause} (hc : FaultCondition i s c) (hmin : ∀ d, FaultCondition i s d → c.code ≤ d.code) :
      Answers i s (.next (takeFault c s))
  | halted (hi : i = .halt) : Answers i s (.next (halt s))
  | completed {u : State} (hno : NoFault i s) (hu : Operation i s u) : Answers i s (.next (advance u))

/-! ### What an operation leaves alone -/

section Operation
variable {i : Instr} {s u : State} (h : Operation i s u)
include h

theorem Operation.pc_eq : u.pc = s.pc := by cases h <;> rfl
theorem Operation.run_eq : u.run = s.run := by cases h <;> rfl

end Operation

/-! ### Lengths of the bytes that are stored -/

@[simp] theorem wrapBytes_length (v : Nat) (x : List Byte) : (wrapBytes v x).length = x.length := by simp [wrapBytes]

@[simp] theorem rotateBytes_length (rot : Nat → Nat → Nat → Nat) (count : Nat) (x : List Byte) :
    (rotateBytes rot count x).length = x.length := by
  unfold rotateBytes
  split <;> simp

/-- XORing lists of one length into a list of that length. -/
theorem foldl_xor_length {ys : List (List Byte)} {x : List Byte} (h : ∀ y ∈ ys, y.length = x.length) :
    (ys.foldl (List.zipWith (· ^^^ ·)) x).length = x.length := by
  induction ys generalizing x with
  | nil => rfl
  | cons y ys ih =>
    obtain ⟨hy, hys⟩ := List.forall_mem_cons.1 h
    have hx : (List.zipWith (· ^^^ ·) x y).length = x.length := by simp [hy]
    rw [List.foldl_cons, ih fun z hz => by rw [hx, hys z hz], hx]

theorem packedBytes_length {toBytes : Nat → Nat → List Byte} (h : ∀ v n, (toBytes v n).length = n) (ws r n : Nat)
    (s : State) : (packedBytes toBytes ws r n s).length = n * ws := by
  simp [packedBytes, List.length_flatMap, h]

/-- Reversing whole groups keeps the length. -/
theorem reverseGroups_length {ws : Nat} {x : List Byte} (h : x.length % ws = 0) :
    (reverseGroups ws x).length = x.length := by
  have hmul : x.length / ws * ws = x.length := Nat.div_mul_cancel (Nat.dvd_of_mod_eq_zero h)
  have hgroup : ∀ g ∈ List.range (x.length / ws), (group ws g x).reverse.length = ws := fun g hg => by
    have hg' : g + 1 ≤ x.length / ws := List.mem_range.1 hg
    have : (g + 1) * ws ≤ x.length := hmul ▸ Nat.mul_le_mul_right ws hg'
    rw [Nat.succ_mul] at this
    simp only [group, List.length_reverse, List.length_take, List.length_drop]
    omega
  rw [reverseGroups, List.length_flatMap, List.map_congr_left hgroup]
  simpa using hmul

/-! ### Commands without checks -/

theorem answers_complete_setW {i : Instr} {s : State} (hno : NoFault i s) (rd : WReg) (v : Word) :
    Answers i s (complete (setW rd v s)) :=
  .completed hno (.words _ _)

theorem answers_complete_draw {i : Instr} {s : State} (hno : NoFault i s) (rd : WReg) (v : Word) :
    Answers i s (complete (setW rd v (draw s))) :=
  .completed hno (.words _ _)

theorem execMinv32_answers (rd rs : WReg) (s : State) : Answers (.minv32 rd rs) s (execMinv32 rd rs s) := by
  simp only [execMinv32]
  split
  · exact answers_complete_setW (fun _ => id) ..
  · exact answers_complete_draw (fun _ => id) ..

theorem execMinv64_answers (rd rs : WReg) (s : State) : Answers (.minv64 rd rs) s (execMinv64 rd rs s) := by
  simp only [execMinv64]
  split
  · exact answers_complete_setW (fun _ => id) ..
  · exact answers_complete_draw (fun _ => id) ..

/-- The assigned numbers are 0x000 to 0x005 (10_state.md R27). -/
theorem csrValue_eq_none_iff {n : Nat} {s : State} : csrValue n s = none ↔ 0x005 < n := by
  match n with
  | 0 | 1 | 2 | 3 | 4 | 5 => simp [csrValue]
  | n + 6 => simp [csrValue]

theorem execCsrr_answers (rd : WReg) (n : Nat) (s : State) : Answers (.csrr rd n) s (execCsrr rd n s) := by
  unfold execCsrr
  cases hv : csrValue n s with
  | none =>
    refine .fault ⟨rfl, csrValue_eq_none_iff.1 hv⟩ ?_
    rintro d ⟨rfl, -⟩
    exact Nat.le_refl _
  | some v =>
    refine answers_complete_setW ?_ ..
    rintro c ⟨-, hn⟩
    simp [csrValue_eq_none_iff.2 hn] at hv

/-! ### Commands with checks -/

/-- The frame of the commands with checks: the conditions checked are those of the command, and the operation has an
answer when none of them holds. -/
theorem checked_answers {i : Instr} {s : State} {conds : List (Cause × Bool)} {op : Except Fault State}
    (hP : ∀ c, (c, true) ∈ conds ↔ FaultCondition i s c)
    (hop : NoFault i s → ∃ u, op = .ok u ∧ Operation i s u) : Answers i s (checked conds s op) := by
  by_cases hno : NoFault i s
  · obtain ⟨u, rfl, hu⟩ := hop hno
    rw [checked_noFault hP hno rfl]
    exact .completed hno hu
  · rcases checked_spec (u := s) (op := op) hP (fun h => absurd h hno) with ⟨c, hc, hmin, h⟩ | ⟨h, -⟩
    · rw [h]
      exact .fault hc hmin
    · exact absurd h hno

/-- A list with one check. -/
theorem mem_singleton_check {c d : Cause} {p : Prop} [Decidable p] :
    (c, true) ∈ [(d, decide p)] ↔ c = d ∧ p := by
  simp [eq_comm (a := true)]

theorem mem_append_check {c d : Cause} {conds : List (Cause × Bool)} {p : Prop} [Decidable p] :
    (c, true) ∈ conds ++ [(d, decide p)] ↔ (c, true) ∈ conds ∨ c = d ∧ p := by
  rw [List.mem_append, mem_singleton_check]

/-- A checked command that writes one word register. -/
theorem answers_checked_setW {i : Instr} {s : State} {conds : List (Cause × Bool)} {rd : WReg} {v : Word}
    (hP : ∀ c, (c, true) ∈ conds ↔ FaultCondition i s c) : Answers i s (checked conds s (.ok (setW rd v s))) :=
  checked_answers hP fun _ => ⟨_, rfl, .words _ _⟩

theorem execCsrw_answers (rs : WReg) (n : Nat) (s : State) : Answers (.csrw rs n) s (execCsrw rs n s) := by
  refine checked_answers (fun c => ?_) fun hno => ⟨_, rfl, ?_⟩
  · simp [FaultCondition, csrPadcfg, eq_comm (a := true)]
  · have hn : n = csrPadcfg := by
      by_contra hn
      exact hno _ ⟨rfl, hn⟩
    exact .padcfg _ (by rw [hn])

/-! ### Byte buffers -/

theorem mem_oneTerm_bufferChecks {bd : BReg} {list : BitVec 16} {s : State} {c : Cause} :
    (c, true) ∈ oneTerm list ++ bufferChecks bd (terms list) s ↔
      (c = .tooFewTerms ∧ termCount list < 1) ∨ BufferCondition bd (terms list) s c := by
  rw [List.mem_append, oneTerm, mem_singleton_check, mem_bufferChecks]

/-- A command on one buffer that stores bytes computed from the old ones (43_bytearith.md R152, R157, R158). -/
theorem answers_updateBuffer {i : Instr} {bd : BReg} {s : State} {f : List Byte → List Byte}
    (hi : storeTarget i = some bd) (hP : ∀ c, FaultCondition i s c ↔ c = .bufRange ∧ OutOfRange bd s)
    (hf : ∀ x, (f x).length = x.length) : Answers i s (checked (rangeCheck bd s) s (updateBuffer bd f s)) := by
  refine checked_answers (fun c => mem_rangeCheck.trans (hP c).symm) fun hno => ?_
  have hin : inRange bd s = true := inRange_iff_not.2 fun h => hno _ ((hP _).2 ⟨rfl, h⟩)
  have hout : (f (bufferBytes bd s)).length = bufLen bd s := by rw [hf, bufferBytes_length]
  exact ⟨_, updateBuffer_ok hin hout, .buffer hi hin hout⟩

/-- ADDB and XORB: the new bytes come from the old ones and the listed buffers, all of one length (43_bytearith.md
R150). -/
theorem answers_updateFrom {i : Instr} {bd : BReg} {list : BitVec 16} {s : State}
    {f : List Byte → List (List Byte) → List Byte} (hi : storeTarget i = some bd)
    (hP : ∀ c, FaultCondition i s c ↔
      (c = .tooFewTerms ∧ termCount list < 1) ∨ BufferCondition bd (terms list) s c)
    (hf : ∀ x ys, (∀ y ∈ ys, y.length = x.length) → (f x ys).length = x.length) :
    Answers i s (checked (oneTerm list ++ bufferChecks bd (terms list) s) s (updateFrom bd (terms list) f s)) := by
  refine checked_answers (fun c => mem_oneTerm_bufferChecks.trans (hP c).symm) fun hno => ?_
  obtain ⟨hin, hsrc⟩ := buffersFit_of_noCondition fun c hc => hno c ((hP c).2 (.inr hc))
  have hout : (f (bufferBytes bd s) ((terms list).map (bufferBytes · s))).length = bufLen bd s := by
    rw [hf, bufferBytes_length]
    intro y hy
    obtain ⟨j, hj, rfl⟩ := List.mem_map.1 hy
    obtain ⟨-, hlen, -⟩ := hsrc j hj
    rw [bufferBytes_length, bufferBytes_length, hlen]
  exact ⟨_, updateFrom_ok hin (fun j hj => (hsrc j hj).1) hout, .buffer hi hin hout⟩

/-- SUBB and MULB: the new bytes come from the old ones and one other buffer. -/
theorem answers_updateWith {i : Instr} {bd bs : BReg} {s : State} {f : List Byte → List Byte → List Byte}
    (hi : storeTarget i = some bd) (hP : ∀ c, FaultCondition i s c ↔ BufferCondition bd [bs] s c)
    (hf : ∀ x y, (f x y).length = x.length) :
    Answers i s (checked (bufferChecks bd [bs] s) s (updateWith bd bs f s)) := by
  refine checked_answers (fun c => mem_bufferChecks.trans (hP c).symm) fun hno => ?_
  obtain ⟨hin, hsrc⟩ := buffersFit_of_noCondition fun c hc => hno c ((hP c).2 hc)
  obtain ⟨hbs, -, -⟩ := hsrc bs (List.mem_singleton.2 rfl)
  have hout : (f (bufferBytes bd s) (bufferBytes bs s)).length = bufLen bd s := by rw [hf, bufferBytes_length]
  exact ⟨_, updateWith_ok hin hbs hout, .buffer hi hin hout⟩

/-- NOTB, SPLITLE, COMBLE: another buffer of the same length is read, and its bytes are stored transformed. -/
theorem operation_copy {i : Instr} {bd bs : BReg} {s : State} {f : List Byte → List Byte}
    (hi : storeTarget i = some bd) (hfit : BuffersFit bd [bs] s)
    (hf : (f (bufferBytes bs s)).length = bufLen bs s) :
    ∃ u, ((bufRead bs s).bind fun y => bufWrite bd (f y) s) = .ok u ∧ Operation i s u := by
  obtain ⟨hin, hsrc⟩ := hfit
  obtain ⟨hbs, hlen, -⟩ := hsrc bs (List.mem_singleton.2 rfl)
  have hout : (f (bufferBytes bs s)).length = bufLen bd s := hf.trans hlen
  rw [bufRead_ok hbs]
  exact ⟨_, bufWrite_ok hin hout, .buffer hi hin hout⟩

theorem execNotb_answers (bd bs : BReg) (s : State) : Answers (.notb bd bs) s (execNotb bd bs s) :=
  checked_answers (fun _ => mem_bufferChecks) fun hno =>
    operation_copy rfl (buffersFit_of_noCondition hno) (by simp)

/-- SPLITLE and COMBLE have the same meaning (44_codec.md R185) and the same conditions. -/
theorem regroup_answers {i : Instr} {bd bs : BReg} {rc : WReg} {s : State} (hi : storeTarget i = some bd)
    (hP : ∀ c, FaultCondition i s c ↔ BufferCondition bd [bs] s c ∨
      (c = .lenNotMultiple ∧ (countOperand rc s = 0 ∨ bufLen bs s % countOperand rc s ≠ 0))) :
    Answers i s (regroup bd bs rc s) := by
  refine checked_answers (fun c => ?_) fun hno => ?_
  · rw [mem_append_check, mem_bufferChecks, hP]
  · have hfit := buffersFit_of_noCondition fun c hc => hno c ((hP c).2 (.inl hc))
    have hmod : bufLen bs s % countOperand rc s = 0 := by
      by_contra h
      exact hno _ ((hP _).2 (.inr ⟨rfl, .inr h⟩))
    refine operation_copy hi hfit ?_
    rw [reverseGroups_length (by rwa [bufferBytes_length]), bufferBytes_length]

/-! ### Packing and unpacking -/

theorem operation_setRun (i : Instr) (s : State) (r : Nat) (vs : List Nat) : Operation i s (setRun r vs s) := by
  rw [setRun_eq]
  exact .words _ _

theorem unpack_answers {i : Instr} {toInt : List Byte → Nat} {ws : Nat} {rd : WReg} {bs : BReg} {s : State}
    (hP : ∀ c, FaultCondition i s c ↔ CodecCondition ws bs rd s c) : Answers i s (unpack toInt ws rd bs s) := by
  refine checked_answers (fun c => mem_codecChecks.trans (hP c).symm) fun hno => ?_
  obtain ⟨hin, -, -⟩ := codecFits_of_noCondition fun c hc => hno c ((hP c).2 hc)
  rw [bufRead_ok hin]
  exact ⟨_, rfl, operation_setRun ..⟩

theorem pack_answers {i : Instr} {toBytes : Nat → Nat → List Byte} {ws : Nat} {bd : BReg} {rs : WReg} {s : State}
    (hi : storeTarget i = some bd) (hP : ∀ c, FaultCondition i s c ↔ CodecCondition ws bd rs s c)
    (hlen : ∀ v n, (toBytes v n).length = n) : Answers i s (pack toBytes ws bd rs s) := by
  refine checked_answers (fun c => mem_codecChecks.trans (hP c).symm) fun hno => ?_
  obtain ⟨hin, hmod, -⟩ := codecFits_of_noCondition fun c hc => hno c ((hP c).2 hc)
  have hout : (packedBytes toBytes ws rs.val (bufLen bd s / ws) s).length = bufLen bd s := by
    rw [packedBytes_length hlen, Nat.div_mul_cancel (Nat.dvd_of_mod_eq_zero hmod)]
  exact ⟨_, bufWrite_ok hin hout, .buffer hi hin hout⟩

/-! ### Transforms -/

/-- A transform with a range check and one more condition, whose operation appends records to EMIT. -/
theorem transform_answers {i : Instr} {bs : BReg} {s : State} {d : Cause} {p : Prop} [Decidable p]
    {recs : List Byte → List Emission}
    (hi : ∃ rx bs rt, i = .tblk rx bs rt ∨ i = .tblkmd rx bs rt ∨ i = .tblkbc rx bs rt)
    (hP : ∀ c, FaultCondition i s c ↔ (c = .bufRange ∧ OutOfRange bs s) ∨ (c = d ∧ p)) :
    Answers i s
      (checked (rangeCheck bs s ++ [(d, decide p)]) s ((bufRead bs s).map fun msg => emit (recs msg) s)) := by
  refine checked_answers (fun c => ?_) fun hno => ?_
  · rw [mem_append_check, mem_rangeCheck, hP]
  · have hin : inRange bs s = true := inRange_iff_not.2 fun h => hno _ ((hP _).2 (.inl ⟨rfl, h⟩))
    rw [bufRead_ok hin]
    exact ⟨_, rfl, .records _ hi⟩

/-! ### Every command -/

/-- Every command answers in one of the three ways, in every state. -/
theorem exec_answers (i : Instr) (s : State) : Answers i s (exec i s) := by
  cases i with
  | nop => exact .completed (fun _ => id) (.words s.w s.draws)
  | halt => exact .halted rfl
  | setb => exact .completed (fun _ => id) (.descriptor _ rfl)
  | csrr => exact execCsrr_answers ..
  | csrw => exact execCsrw_answers ..
  | ldiz | ldik | mov | sub32 | mul32 | par8 | par32 | sub64 | not64 | mul64 | shl64 | shr64
  | rol16 | ror16 | rol24 | ror24 | rol32 | ror32 | rol64 | ror64 => exact answers_complete_setW (fun _ => id) ..
  | minv32 => exact execMinv32_answers ..
  | minv64 => exact execMinv64_answers ..
  | add32 | add64 | and64 | or64 | xor64 | rol48 | ror48 => exact answers_checked_setW fun _ => mem_singleton_check
  | addb => exact answers_updateFrom rfl (fun _ => .rfl) fun _ _ _ => wrapBytes_length ..
  | xorb => exact answers_updateFrom rfl (fun _ => .rfl) fun _ _ => foldl_xor_length
  | addbs => exact answers_updateBuffer rfl (fun _ => .rfl) fun _ => wrapBytes_length ..
  | rolb | rorb => exact answers_updateBuffer rfl (fun _ => .rfl) (rotateBytes_length _ _)
  | subb | mulb => exact answers_updateWith rfl (fun _ => .rfl) fun _ _ => wrapBytes_length ..
  | notb => exact execNotb_answers ..
  | splitle | comble => exact regroup_answers rfl fun _ => .rfl
  | unpk16be | unpk16le | unpk32be | unpk32le | unpk64be | unpk64le => exact unpack_answers fun _ => .rfl
  | pack16be | pack32be | pack64be => exact pack_answers rfl (fun _ => .rfl) beBytes_length
  | pack16le | pack32le | pack64le => exact pack_answers rfl (fun _ => .rfl) leBytes_length
  | tblk rx bs rt => exact transform_answers ⟨rx, bs, rt, .inl rfl⟩ fun _ => .rfl
  | tblkmd rx bs rt => exact transform_answers ⟨rx, bs, rt, .inr (.inl rfl)⟩ fun _ => .rfl
  | tblkbc rx bs rt => exact transform_answers ⟨rx, bs, rt, .inr (.inr rfl)⟩ fun _ => .rfl

/-- The three ways of a command that answers `t`. -/
theorem exec_next {i : Instr} {s t : State} (h : exec i s = .next t) :
    (∃ c, FaultCondition i s c ∧ (∀ d, FaultCondition i s d → c.code ≤ d.code) ∧ t = takeFault c s) ∨
      (i = .halt ∧ t = halt s) ∨ ∃ u, NoFault i s ∧ Operation i s u ∧ t = advance u := by
  have ha := exec_answers i s
  rw [h] at ha
  cases ha with
  | fault hc hmin => exact .inl ⟨_, hc, hmin, rfl⟩
  | halted hi => exact .inr (.inl ⟨hi, rfl⟩)
  | completed hno hu => exact .inr (.inr ⟨_, hno, hu, rfl⟩)

end Sys2Proof.Proofs
end

