-- ==== Sys2Proof/Proofs/State.lean ====
section
/-! The statements about the state: its value at reset, what one step of the sequencer can do, the program counter,
and the invariant `Consistent`. -/

namespace Sys2Proof.Proofs

open Sys2Proof Sys2Proof.Machine Sys2Proof.Laws

/-! ### What a step can do -/

theorem step_of_running {s : State} (hr : s.run = .running) : step s = stepRunning s := by
  simp only [step, hr]

theorem step_of_not_running {s : State} (hr : s.run ≠ .running) : step s = .next s := by
  unfold step
  split
  · exact absurd ‹_› hr
  all_goals rfl

/-- Fault entry with the class and code numbers of the cause (60_exceptions.md R254). -/
theorem takeFault_eq_afterFault (c : Cause) (s : State) : takeFault c s = afterFault c.cls.code c.code s := by
  simp only [takeFault, afterFault, faultWord, BitVec.ofNat_toNat]

theorem fetch_eq_none_iff {s : State} : fetch s = none ↔ s.params.csWords ≤ s.pc.toNat := by
  simp [fetch]

/-- A step of a RUNNING unit ends at the fetch, at the decoder, or runs the command at `pc`
(70_reset_and_hazards.md R286). -/
theorem step_cases {s t : State} (hr : s.run = .running) (h : step s = .next t) :
    (fetch s = none ∧ t = takeFault .pcRange s) ∨
      (∃ x e, fetch s = some x ∧ decode x = .error e ∧ t = takeFault .illegalInstruction s) ∨
      ∃ x i, fetch s = some x ∧ decode x = .ok i ∧ exec i s = .next t := by
  rw [step_of_running hr, stepRunning] at h
  cases hx : fetch s with
  | none => exact .inl ⟨rfl, by simpa [hx] using h.symm⟩
  | some x =>
    cases hd : decode x with
    | error e => exact .inr (.inl ⟨x, e, rfl, hd, by simpa [hx, hd] using h.symm⟩)
    | ok i => exact .inr (.inr ⟨x, i, rfl, hd, by simpa [hx, hd] using h⟩)

/-- A step of a RUNNING unit takes a fault, halts, or performs an operation and moves to the next command. -/
theorem step_running_next {s t : State} (hr : s.run = .running) (h : step s = .next t) :
    (∃ c, t = takeFault c s) ∨ t = halt s ∨ ∃ i u, Operation i s u ∧ t = advance u := by
  rcases step_cases hr h with ⟨-, ht⟩ | ⟨_, _, -, -, ht⟩ | ⟨_, i, -, -, he⟩
  · exact .inl ⟨_, ht⟩
  · exact .inl ⟨_, ht⟩
  · rcases exec_next he with ⟨c, -, -, ht⟩ | ⟨-, ht⟩ | ⟨u, -, hu, ht⟩
    · exact .inl ⟨c, ht⟩
    · exact .inr (.inl ht)
    · exact .inr (.inr ⟨i, u, hu, ht⟩)

/-! ### The invariant -/

/-- Power-on reset lists nothing in M and CS, so only the legality of the parameters is asked for. -/
theorem powerOn_consistent {p : Config.Params} (hp : p.Legal) : Consistent (State.powerOn p) where
  params_legal := hp
  mem_canonical := .nil
  mem_inside := fun _ hc => absurd hc List.not_mem_nil
  cs_canonical := .nil
  cs_inside := fun _ hc => absurd hc List.not_mem_nil
  padcfg_reserved := by simp [State.powerOn]
  driver_idle := ⟨rfl, rfl⟩
  fault_recorded := nofun
  no_fault_recorded := fun _ => ⟨rfl, rfl⟩

/-- The mask of a PADCFG write clears bits 23:19 (10_state.md R31). -/
theorem padcfgStored_reserved (v : Word32) : padcfgStored v &&& 0x00F80000#32 = 0#32 := by
  have hmask : 0xFF07FFFF#32 &&& 0x00F80000#32 = 0#32 := rfl
  rw [padcfgStored, BitVec.and_assoc, hmask, BitVec.and_zero]

section Consistent
variable {s u : State} (hs : Consistent s)
include hs

theorem takeFault_keeps_consistent (c : Cause) : Consistent (takeFault c s) :=
  { hs with
    fault_recorded := fun _ => ⟨⟨c, rfl⟩, rfl⟩
    no_fault_recorded := fun h => absurd rfl h }

theorem halt_keeps_consistent (hr : s.run ≠ .faulted) : Consistent (halt s) :=
  { hs with
    fault_recorded := nofun
    no_fault_recorded := fun _ => hs.no_fault_recorded hr }

/-- `pc` may move only when no fault is recorded, or FAULTPC would differ from it. -/
theorem advance_keeps_consistent (hr : s.run ≠ .faulted) : Consistent (advance s) :=
  { hs with fault_recorded := fun h => absurd h hr }

/-- Of the invariant an operation touches PADCFG, whose write is masked, and M, whose write keeps the canonical form
and stays inside M. -/
theorem Operation.keeps_consistent {i : Instr} (h : Operation i s u) : Consistent u := by
  cases h with
  | words | descriptor | records => exact { hs with }
  | padcfg v => exact { hs with padcfg_reserved := padcfgStored_reserved v }
  | buffer _ hin hout =>
    exact { hs with
      mem_canonical := writeBytes_wf _ _ hs.mem_canonical
      mem_inside := writeBytes_inside _ _ (hout ▸ inRange_iff.1 hin) hs.mem_inside }

end Consistent

/-! ### The statements -/

/-- Settles O12. -/
theorem onlyRunningUnitSteps : Obligations.OnlyRunningUnitSteps := fun _ => step_of_not_running

/-- Settles O1. The registers are read through their reset value; a read of M or CS finds nothing listed. -/
theorem resetValues : Obligations.ResetValues := by
  refine ⟨fun p => ?_, fun s => ?_, rfl⟩
  · refine ⟨rfl, rfl, fun i => ?_, fun i => ?_, rfl, rfl, rfl, rfl, rfl, fun _ => rfl, fun _ => rfl, rfl⟩ <;>
      simp [State.powerOn]
  · refine ⟨rfl, rfl, fun i => ?_, fun i => ?_, rfl, rfl, rfl, rfl, rfl, rfl, rfl, rfl⟩ <;> simp

/-- Settles O2. -/
theorem resetConsistent : Obligations.ResetConsistent :=
  ⟨fun _ => powerOn_consistent, powerOn_consistent (by decide)⟩

/-- Settles O13: `pc` moves in the completing case of a step only, and that case leaves RUN as it was. -/
theorem programCounterRule : Obligations.ProgramCounterRule := by
  refine ⟨fun s hr hpc => ?_, fun s t hr h => ?_⟩
  · rw [step_of_running hr, stepRunning, fetch_eq_none_iff.2 hpc]
    exact congrArg _ (takeFault_eq_afterFault .pcRange s)
  · rcases step_running_next hr h with ⟨c, rfl⟩ | rfl | ⟨i, u, hu, rfl⟩
    · exact ⟨nofun, fun _ => rfl, .inr (.inr rfl)⟩
    · exact ⟨nofun, fun _ => rfl, .inr (.inl rfl)⟩
    · have hrun : (advance u).run = .running := hu.run_eq.trans hr
      exact ⟨fun _ => by simp [hu.pc_eq, BitVec.toNat_add], fun hn => absurd hrun hn, .inl hrun⟩

/-- Settles O3, case by case over what a step can do. -/
theorem stepKeepsConsistent : Obligations.StepKeepsConsistent := by
  intro s t hs h
  by_cases hr : s.run = .running
  · have hnf : s.run ≠ .faulted := by simp [hr]
    rcases step_running_next hr h with ⟨c, rfl⟩ | rfl | ⟨i, u, hu, rfl⟩
    · exact takeFault_keeps_consistent hs c
    · exact halt_keeps_consistent hs hnf
    · exact advance_keeps_consistent (hu.keeps_consistent hs) (hu.run_eq ▸ hnf)
  · obtain rfl : s = t := by simpa [step_of_not_running hr] using h
    exact hs

end Sys2Proof.Proofs
end

