-- ==== Sys2Proof/Proofs/Memory.lean ====
section
/-! What no command changes, and which command may change what (20_memory.md R50, R67). A command that faults or halts
changes nothing but the registers of the sequencer, so every command is an operation as far as the rest of the state
goes, and the frame is read off the constructors of `Operation`. -/

namespace Sys2Proof.Proofs

open Sys2Proof Sys2Proof.Machine Sys2Proof.Laws

/-! ### A command as an operation -/

theorem Operation.refl (i : Instr) (s : State) : Operation i s s := .words s.w s.draws

/-- In everything but the sequencer's own registers `pc`, RUN, FAULT and FAULTPC, a command does what its operation
does. -/
theorem exec_operation {i : Instr} {s t : State} (h : exec i s = .next t) :
    ∃ u, Operation i s u ∧ t = { u with pc := t.pc, run := t.run, fault := t.fault, faultpc := t.faultpc } := by
  rcases exec_next h with ⟨c, -, -, rfl⟩ | ⟨-, rfl⟩ | ⟨u, -, hu, rfl⟩
  · exact ⟨s, .refl i s, rfl⟩
  · exact ⟨s, .refl i s, rfl⟩
  · exact ⟨u, hu, rfl⟩

/-! ### What an operation may change -/

section Operation
variable {i : Instr} {s u : State} (h : Operation i s u)
include h

theorem Operation.params_eq : u.params = s.params := by cases h <;> rfl
theorem Operation.cs_eq : u.cs = s.cs := by cases h <;> rfl
theorem Operation.drvstat_eq : u.drvstat = s.drvstat := by cases h <;> rfl
theorem Operation.drvoff_eq : u.drvoff = s.drvoff := by cases h <;> rfl

/-- EMIT only grows at its end (10_state.md R35). -/
theorem Operation.emitted_grows : s.emitted <+: u.emitted := by
  cases h with
  | records recs => exact ⟨recs, rfl⟩
  | words | descriptor | padcfg | buffer => exact ⟨[], List.append_nil _⟩

theorem Operation.transform_of_emitted_ne (hne : u.emitted ≠ s.emitted) :
    ∃ rx bs rt, i = .tblk rx bs rt ∨ i = .tblkmd rx bs rt ∨ i = .tblkbc rx bs rt := by
  cases h with
  | records _ hi => exact hi
  | words | descriptor | padcfg | buffer => exact absurd rfl hne

theorem Operation.setb_of_b_ne (hne : u.b ≠ s.b) : ∃ bd rs rt, i = .setb bd rs rt := by
  cases h with
  | descriptor _ hi => exact ⟨_, _, _, hi⟩
  | words | padcfg | buffer | records => exact absurd rfl hne

theorem Operation.csrw_of_padcfg_ne (hne : u.padcfg ≠ s.padcfg) : ∃ rs, i = .csrw rs csrPadcfg := by
  cases h with
  | padcfg _ hi => exact ⟨_, hi⟩
  | words | descriptor | buffer | records => exact absurd rfl hne

/-- A byte of M outside the destination buffer, if the command has one, reads as before (20_memory.md R67). -/
theorem Operation.readByte_eq (hwf : Memory.wf s.mem) {a : Nat}
    (ha : ∀ bd, storeTarget i = some bd → ¬ InBuffer bd a s) : readByte u.mem a = readByte s.mem a := by
  cases h with
  | buffer hi _ hout =>
    obtain ⟨-, houtside, -⟩ := storedBuffer_of_write hwf hout
    exact houtside a (ha _ hi)
  | words | descriptor | padcfg | records => rfl

end Operation

/-! ### The statement -/

/-- Settles O15, field by field from the operation that the command performs. -/
theorem commandFrame : Obligations.CommandFrame := by
  intro i s t hwf h
  obtain ⟨u, hu, ht⟩ := exec_operation h
  rw [ht]
  exact ⟨hu.params_eq, hu.cs_eq, hu.drvstat_eq, hu.drvoff_eq, hu.emitted_grows, hu.transform_of_emitted_ne,
    hu.setb_of_b_ne, hu.csrw_of_padcfg_ne, fun _ => hu.readByte_eq hwf⟩

end Sys2Proof.Proofs
end

