-- ==== Sys2Proof/Proofs/Rows.lean ====
section
/-! SUPPORT. The match and mask test of 30_encoding.md R77 as a test of fields, and what each row of R78 says of words:
`row_holds` says it of every command, by the command's format. The statements about the encoding are read off it. -/

namespace Sys2Proof.Proofs

open Sys2Proof Sys2Proof.Machine Sys2Proof.Laws

/-! ### Masked words -/

/-- The mask with a 1 in the bits `hi` to `lo`. -/
def fieldMask (hi lo : Nat) : Word32 := BitVec.ofNat 32 ((2 ^ (hi + 1 - lo) - 1) * 2 ^ lo)

theorem bits_shifted_lt (v : Nat) {hi lo : Nat} (hlo : lo ≤ hi) : bits v hi lo * 2 ^ lo < 2 ^ (hi + 1) := by
  have hwidth : 2 ^ (hi + 1) = 2 ^ (hi + 1 - lo) * 2 ^ lo := by
    rw [← Nat.pow_add]
    congr 1
    omega
  rw [hwidth]
  exact Nat.mul_lt_mul_of_pos_right (Nat.mod_lt _ (Nat.two_pow_pos _)) (Nat.two_pow_pos _)

theorem fieldMask_toNat {hi lo : Nat} (hlo : lo ≤ hi) (hhi : hi < 32) :
    (fieldMask hi lo).toNat = (2 ^ (hi + 1 - lo) - 1) * 2 ^ lo := by
  have hpow : 2 ^ (hi + 1 - lo) * 2 ^ lo ≤ 2 ^ 32 := by
    rw [← Nat.pow_add]
    exact Nat.pow_le_pow_right (by decide) (by omega)
  have hlow := Nat.two_pow_pos lo
  rw [fieldMask, BitVec.toNat_ofNat, Nat.mod_eq_of_lt]
  rw [Nat.sub_one_mul]
  omega

/-- Masking with one field leaves that field in its place. -/
theorem and_fieldMask (x : Word32) {hi lo : Nat} (hlo : lo ≤ hi) (hhi : hi < 32) :
    (x &&& fieldMask hi lo).toNat = bits x.toNat hi lo * 2 ^ lo := by
  rw [BitVec.toNat_and, fieldMask_toNat hlo hhi, ← Nat.div_add_mod' (x.toNat &&& _) (2 ^ lo), Nat.and_div_two_pow,
    Nat.and_mod_two_pow, Nat.mul_div_cancel _ (Nat.two_pow_pos lo), Nat.mul_mod_left, Nat.and_zero, Nat.add_zero,
    Nat.and_two_pow_sub_one_eq_mod, bits]

/-- A mask with a field below its other 1 bits keeps that field too. -/
theorem and_or_fieldMask (x m : Word32) {hi lo : Nat} (hlo : lo ≤ hi) (hhi : hi < 32)
    (hm : m.toNat % 2 ^ (hi + 1) = 0) :
    (x &&& (m ||| fieldMask hi lo)).toNat = (x &&& m).toNat + bits x.toNat hi lo * 2 ^ lo := by
  have habove : (x &&& m).toNat % 2 ^ (hi + 1) = 0 := by rw [BitVec.toNat_and, Nat.and_mod_two_pow, hm, Nat.and_zero]
  rw [BitVec.and_or_distrib_left, BitVec.toNat_or, and_fieldMask x hlo hhi,
    ← Nat.div_mul_cancel (Nat.dvd_of_mod_eq_zero habove), or_of_mul_add _ _ _ (bits_shifted_lt _ hlo)]

/-- The match and mask test of a row whose bits that must be zero are one field. -/
theorem and_field_eq_opcode_iff (x : Word32) {op hi lo : Nat} (hop : op < 256) (hlo : lo ≤ hi) (hhi : hi < 24) :
    x &&& (fieldMask 31 24 ||| fieldMask hi lo) = BitVec.ofNat 32 (op * 2 ^ 24) ↔
      bits x.toNat 31 24 = op ∧ bits x.toNat hi lo = 0 := by
  have hsum : (x &&& (fieldMask 31 24 ||| fieldMask hi lo)).toNat =
      bits x.toNat 31 24 * 2 ^ 24 + bits x.toNat hi lo * 2 ^ lo := by
    rw [and_or_fieldMask x _ hlo (by omega), and_fieldMask x (by decide) (by decide)]
    exact Nat.mod_eq_zero_of_dvd ((Nat.pow_dvd_pow 2 (show hi + 1 ≤ 24 from hhi)).trans (by decide))
  have hlow : bits x.toNat hi lo * 2 ^ lo < 2 ^ 24 :=
    (bits_shifted_lt _ hlo).trans_le (Nat.pow_le_pow_right (by decide) hhi)
  have hzero : bits x.toNat hi lo * 2 ^ lo = 0 ↔ bits x.toNat hi lo = 0 := by
    rw [Nat.mul_eq_zero, or_iff_left (Nat.two_pow_pos lo).ne']
  rw [← BitVec.toNat_inj, hsum, BitVec.toNat_ofNat]
  omega

/-- The match and mask test of ROLB and RORB, which use fields A and C. -/
theorem and_twoFields_eq_opcode_iff (x : Word32) {op : Nat} (hop : op < 256) :
    x &&& (fieldMask 31 24 ||| fieldMask 19 16 ||| fieldMask 11 0) = BitVec.ofNat 32 (op * 2 ^ 24) ↔
      bits x.toNat 31 24 = op ∧ bits x.toNat 19 16 + bits x.toNat 11 0 = 0 := by
  have hsum : (x &&& (fieldMask 31 24 ||| fieldMask 19 16 ||| fieldMask 11 0)).toNat =
      bits x.toNat 31 24 * 2 ^ 24 + bits x.toNat 19 16 * 2 ^ 16 + bits x.toNat 11 0 * 2 ^ 0 := by
    rw [and_or_fieldMask, and_or_fieldMask, and_fieldMask] <;> decide
  have hB := bits_shifted_lt x.toNat (show 16 ≤ 19 by decide)
  have hlow := bits_shifted_lt x.toNat (show 0 ≤ 11 by decide)
  rw [← BitVec.toNat_inj, hsum, BitVec.toNat_ofNat]
  omega

/-- The match and mask test of LDIZ (`z` = 1) and LDIK (`z` = 0): bit 17 tells them apart (30_encoding.md R75). -/
theorem and_eq_formatI_iff (x : Word32) {z : Nat} (hz : z < 2) :
    x &&& (fieldMask 31 24 ||| fieldMask 17 17 ||| fieldMask 16 16) = BitVec.ofNat 32 (0x02 * 2 ^ 24 + z * 2 ^ 17) ↔
      bits x.toNat 31 24 = 0x02 ∧ bits x.toNat 16 16 = 0 ∧ bits x.toNat 17 17 = z := by
  have hsum : (x &&& (fieldMask 31 24 ||| fieldMask 17 17 ||| fieldMask 16 16)).toNat =
      bits x.toNat 31 24 * 2 ^ 24 + bits x.toNat 17 17 * 2 ^ 17 + bits x.toNat 16 16 * 2 ^ 16 := by
    rw [and_or_fieldMask, and_or_fieldMask, and_fieldMask] <;> decide
  have hZ := bits_shifted_lt x.toNat (show 17 ≤ 17 by decide)
  have hlow := bits_shifted_lt x.toNat (show 16 ≤ 16 by decide)
  rw [← BitVec.toNat_inj, hsum, BitVec.toNat_ofNat]
  omega

/-! ### Rows -/

/-- The opcode of a command's row of 30_encoding.md R78. -/
def rowOpcode (i : Instr) : Nat := bits (rowMatch i).toNat 31 24

/-- A word that decodes to a command has the opcode of that command's row. -/
theorem decodeNat_opcode {x : Nat} {i : Instr} (h : decodeNat x = .ok i) : bits x 31 24 = rowOpcode i := by
  unfold decodeNat at h
  split at h
  case h_3 ho => -- format I, where bit 17 chooses the command
    obtain ⟨-, rfl⟩ := ifZero_ok h
    split <;> simpa [rowOpcode, rowMatch, bits] using ho
  case h_59 => cases h -- an unassigned opcode
  all_goals
    obtain ⟨-, rfl⟩ := ifZero_ok h
    simpa [rowOpcode, rowMatch, bits]

/-- What is claimed of a command's word, and of the words of its row. -/
structure Row (i : Instr) : Prop where
  decode_encode : i.WellFormed → decode (encode i) = .ok i
  encode_of_decode : ∀ {x : Word32}, decode x = .ok i → encode i = x ∧ i.WellFormed
  agrees_iff : ∀ x : Word32, x &&& rowMask i = rowMatch i ↔ ∃ j, decode x = .ok j ∧ rowMatch j = rowMatch i

theorem exists_ifZero_ok_iff {m x : Nat} {i : Instr} {P : Instr → Prop} :
    (∃ j, ifZero m x i = .ok j ∧ P j) ↔ m = 0 ∧ P i := by
  unfold ifZero
  split <;> simp [*]

/-- A row whose format reads the command `cmd x` from the word `x` when the bits `zero x` are all 0. -/
theorem row_of_format {i : Instr} {op : Nat} {zero : Nat → Nat} {cmd : Nat → Instr} (hop : rowOpcode i = op)
    (hread : ∀ x, bits x 31 24 = op → decodeNat x = ifZero (zero x) x (cmd x))
    (hword : i.WellFormed → encodeNat i < 2 ^ 32 ∧ bits (encodeNat i) 31 24 = op ∧
      ifZero (zero (encodeNat i)) (encodeNat i) (cmd (encodeNat i)) = .ok i)
    (hback : ∀ x, x < 2 ^ 32 → bits x 31 24 = op → ifZero (zero x) x (cmd x) = .ok i →
      x = encodeNat i ∧ i.WellFormed)
    (hagree : ∀ x : Word32, x &&& rowMask i = rowMatch i ↔
      bits x.toNat 31 24 = op ∧ zero x.toNat = 0 ∧ rowMatch (cmd x.toNat) = rowMatch i) : Row i where
  decode_encode hwf := by
    obtain ⟨hlt, hopcode, hok⟩ := hword hwf
    rw [decode, encode_toNat hlt, hread _ hopcode, hok]
  encode_of_decode {x} h := by
    have hopcode := (decodeNat_opcode h).trans hop
    obtain ⟨hx, hwf⟩ := hback _ x.isLt hopcode (hread _ hopcode ▸ h)
    exact ⟨encode_of_toNat hx, hwf⟩
  agrees_iff x := by
    rw [hagree, ← exists_ifZero_ok_iff (x := x.toNat) (P := fun j => rowMatch j = rowMatch i)]
    constructor
    · rintro ⟨hopcode, hj⟩
      rwa [← hread _ hopcode] at hj
    · rintro ⟨j, hj, hmatch⟩
      have hopcode : bits x.toNat 31 24 = op := by rw [decodeNat_opcode hj, rowOpcode, hmatch, ← hop, rowOpcode]
      exact ⟨hopcode, j, hread _ hopcode ▸ hj, hmatch⟩

/-- The columns of a row whose match is its opcode alone, beside the word of the command. -/
structure Columns (i : Instr) (op : Nat) (mask : Word32) (word : Nat) : Prop where
  word_eq : encodeNat i = word
  match_eq : rowMatch i = BitVec.ofNat 32 (op * 2 ^ 24)
  mask_eq : rowMask i = mask
  op_lt : op < 256

theorem Columns.opcode_eq {i : Instr} {op word : Nat} {mask : Word32} (h : Columns i op mask word) :
    rowOpcode i = op := by
  have hop := h.op_lt
  rw [rowOpcode, h.match_eq, BitVec.toNat_ofNat]
  simp only [bits]
  omega

theorem Columns.row {i : Instr} {op word : Nat} {mask : Word32} {zero : Nat → Nat} {cmd : Nat → Instr}
    (h : Columns i op mask word) (hread : ∀ x, bits x 31 24 = op → decodeNat x = ifZero (zero x) x (cmd x))
    (hword : i.WellFormed → word < 2 ^ 32 ∧ bits word 31 24 = op ∧ ifZero (zero word) word (cmd word) = .ok i)
    (hback : ∀ x, x < 2 ^ 32 → bits x 31 24 = op → ifZero (zero x) x (cmd x) = .ok i →
      x = encodeNat i ∧ i.WellFormed)
    (hmatch : ∀ x, rowMatch (cmd x) = BitVec.ofNat 32 (op * 2 ^ 24))
    (hagree : ∀ x : Word32, x &&& mask = BitVec.ofNat 32 (op * 2 ^ 24) ↔
      bits x.toNat 31 24 = op ∧ zero x.toNat = 0) : Row i :=
  row_of_format h.opcode_eq hread (h.word_eq.symm ▸ hword) hback fun x => by
    rw [h.mask_eq, h.match_eq, hagree, hmatch, and_iff_left rfl]

/-! ### The formats -/

section Formats
variable {op : Nat}

theorem row_formatN {i : Instr} (hcol : Columns i op (fieldMask 31 24 ||| fieldMask 23 0) (wordN op))
    (hwf : i.WellFormed) (hread : ∀ x, bits x 31 24 = op → decodeNat x = formatN x i) : Row i := by
  have hop := hcol.op_lt
  refine hcol.row hread (fun _ => ⟨?_, ?_, ?_⟩) (fun x hx ho h => ?_) (fun _ => hcol.match_eq)
    (and_field_eq_opcode_iff · hop (by decide) (by decide))
  · simp only [wordN]; omega
  · simp only [bits, wordN]; omega
  · have hzero : bits (wordN op) 23 0 = 0 := by simp only [bits, wordN]; omega
    simp [ifZero, hzero]
  · exact ⟨(formatN_ok op hx ho h).2.trans hcol.word_eq.symm, hwf⟩

theorem row_formatABC {f : Fin 16 → Fin 16 → Fin 16 → Instr}
    (hcol : ∀ a b c, Columns (f a b c) op (fieldMask 31 24 ||| fieldMask 11 0) (wordR op a b c))
    (hwf : ∀ a b c, (f a b c).WellFormed) (hread : ∀ x, bits x 31 24 = op → decodeNat x = formatABC x f)
    (a b c : Fin 16) : Row (f a b c) := by
  have hop := (hcol a b c).op_lt
  refine (hcol a b c).row hread (fun _ => ⟨wordR_lt hop .., wordR_opcode _ hop .., formatABC_word ..⟩)
    (fun x hx ho h => ?_) (fun _ => (hcol ..).match_eq)
    (and_field_eq_opcode_iff · hop (by decide) (by decide))
  obtain ⟨a', b', c', hi, rfl⟩ := formatABC_ok op hx ho h
  exact ⟨hi ▸ (hcol ..).word_eq.symm, hwf ..⟩

theorem row_formatAB {f : Fin 16 → Fin 16 → Instr}
    (hcol : ∀ a b, Columns (f a b) op (fieldMask 31 24 ||| fieldMask 15 0) (wordR op a b 0))
    (hwf : ∀ a b, (f a b).WellFormed) (hread : ∀ x, bits x 31 24 = op → decodeNat x = formatAB x f)
    (a b : Fin 16) : Row (f a b) := by
  have hop := (hcol a b).op_lt
  refine (hcol a b).row hread (fun _ => ⟨wordR_lt hop .., wordR_opcode _ hop .., formatAB_word ..⟩)
    (fun x hx ho h => ?_) (fun _ => (hcol ..).match_eq)
    (and_field_eq_opcode_iff · hop (by decide) (by decide))
  obtain ⟨a', b', hi, rfl⟩ := formatAB_ok op hx ho h
  exact ⟨hi ▸ (hcol ..).word_eq.symm, hwf ..⟩

theorem row_formatAC {f : Fin 16 → Fin 16 → Instr}
    (hcol : ∀ a c, Columns (f a c) op (fieldMask 31 24 ||| fieldMask 19 16 ||| fieldMask 11 0) (wordR op a 0 c))
    (hwf : ∀ a c, (f a c).WellFormed) (hread : ∀ x, bits x 31 24 = op → decodeNat x = formatAC x f)
    (a c : Fin 16) : Row (f a c) := by
  have hop := (hcol a c).op_lt
  refine (hcol a c).row hread (fun _ => ⟨wordR_lt hop .., wordR_opcode _ hop .., formatAC_word ..⟩)
    (fun x hx ho h => ?_) (fun _ => (hcol ..).match_eq) (and_twoFields_eq_opcode_iff · hop)
  obtain ⟨a', c', hi, rfl⟩ := formatAC_ok op hx ho h
  exact ⟨hi ▸ (hcol ..).word_eq.symm, hwf ..⟩

theorem row_formatL {f : Fin 16 → BitVec 16 → Instr}
    (hcol : ∀ a l, Columns (f a l) op (fieldMask 31 24 ||| fieldMask 19 16) (wordL op a l))
    (hwf : ∀ a l, (f a l).WellFormed) (hread : ∀ x, bits x 31 24 = op → decodeNat x = formatL x f)
    (a : Fin 16) (l : BitVec 16) : Row (f a l) := by
  have hop := (hcol a l).op_lt
  refine (hcol a l).row hread (fun _ => ⟨wordL_lt hop .., wordL_opcode _ hop .., formatL_word ..⟩)
    (fun x hx ho h => ?_) (fun _ => (hcol ..).match_eq)
    (and_field_eq_opcode_iff · hop (by decide) (by decide))
  obtain ⟨a', l', hi, rfl⟩ := formatL_ok op hx ho h
  exact ⟨hi ▸ (hcol ..).word_eq.symm, hwf ..⟩

theorem row_formatS {f : Fin 16 → Nat → Instr}
    (hcol : ∀ a n, Columns (f a n) op (fieldMask 31 24 ||| fieldMask 19 12) (wordS op a n))
    (hwf : ∀ a n, (f a n).wellFormed = csrFits n) (hread : ∀ x, bits x 31 24 = op → decodeNat x = formatS x f)
    (a : Fin 16) (n : Nat) : Row (f a n) := by
  have hop := (hcol a n).op_lt
  refine (hcol a n).row hread (fun hn => ?_) (fun x hx ho h => ?_) (fun _ => (hcol ..).match_eq)
    (and_field_eq_opcode_iff · hop (by decide) (by decide))
  · replace hn : n < 4096 := of_decide_eq_true ((hwf a n).symm.trans hn)
    exact ⟨wordS_lt hop hn _, wordS_opcode _ hop hn _, formatS_word _ _ _ _ hn⟩
  · obtain ⟨a', n', hi, rfl, hn⟩ := formatS_ok op hx ho h
    exact ⟨hi ▸ (hcol ..).word_eq.symm, hi ▸ (hwf a' n').trans (decide_eq_true hn)⟩

end Formats

/-! ### Format I: two rows with one opcode -/

/-- The command of opcode 0x02 with the value `z` of bit 17 (30_encoding.md R75). -/
def formatICommand (z : Nat) (rd : Fin 16) (pos : Nat) (imm16 : BitVec 16) : Instr :=
  if z = 1 then .ldiz rd pos imm16 else .ldik rd pos imm16

section FormatI
variable {z : Nat} (rd : Fin 16) (pos : Nat) (imm16 : BitVec 16)

theorem formatICommand_rowMask : rowMask (formatICommand z rd pos imm16) =
    fieldMask 31 24 ||| fieldMask 17 17 ||| fieldMask 16 16 := by
  unfold formatICommand
  split <;> rfl

theorem formatICommand_wellFormed (h : (formatICommand z rd pos imm16).WellFormed) : pos < 4 := by
  unfold formatICommand at h
  split at h <;> exact of_decide_eq_true h

variable (hz : z < 2)
include hz

theorem formatICommand_rowMatch :
    rowMatch (formatICommand z rd pos imm16) = BitVec.ofNat 32 (0x02 * 2 ^ 24 + z * 2 ^ 17) := by
  obtain rfl | rfl : z = 0 ∨ z = 1 := by omega
  all_goals rfl

theorem formatICommand_encodeNat : encodeNat (formatICommand z rd pos imm16) = wordI rd pos z imm16 := by
  obtain rfl | rfl : z = 0 ∨ z = 1 := by omega
  all_goals rfl

theorem formatICommand_rowOpcode : rowOpcode (formatICommand z rd pos imm16) = 0x02 := by
  rw [rowOpcode, formatICommand_rowMatch _ _ _ hz, BitVec.toNat_ofNat]
  simp only [bits]
  omega

theorem formatICommand_rowMatch_eq_iff {z' : Nat} (hz' : z' < 2) (rd' : Fin 16) (pos' : Nat) (imm16' : BitVec 16) :
    rowMatch (formatICommand z' rd' pos' imm16') = rowMatch (formatICommand z rd pos imm16) ↔ z' = z := by
  rw [formatICommand_rowMatch _ _ _ hz, formatICommand_rowMatch _ _ _ hz', ← BitVec.toNat_inj, BitVec.toNat_ofNat,
    BitVec.toNat_ofNat]
  omega

theorem row_formatI : Row (formatICommand z rd pos imm16) := by
  have hword := formatICommand_encodeNat rd pos imm16 hz
  refine row_of_format (zero := (bits · 16 16)) (formatICommand_rowOpcode rd pos imm16 hz)
    (cmd := fun x => formatICommand (bits x 17 17) (fieldA x) (bits x 19 18) (field16 x))
    (fun x h => by rw [decodeNat, h]; rfl) (fun hwf => ?_) (fun x hx ho h => ?_) (fun x => ?_)
  · have hpos := formatICommand_wellFormed rd pos imm16 hwf
    rw [hword]
    exact ⟨wordI_lt hpos hz .., wordI_opcode hpos hz .., formatI_word _ _ _ _ hpos hz⟩
  · obtain ⟨rd', pos', imm', hpos, ⟨hi, rfl⟩ | ⟨hi, rfl⟩⟩ := formatI_ok hx ho h <;>
      exact ⟨hi ▸ rfl, hi ▸ decide_eq_true hpos⟩
  · have hbit : bits x.toNat 17 17 < 2 := Nat.mod_lt _ (by decide)
    rw [formatICommand_rowMask, formatICommand_rowMatch_eq_iff rd pos imm16 hz hbit,
      formatICommand_rowMatch rd pos imm16 hz, and_eq_formatI_iff x hz]

end FormatI

/-! ### Every command -/

/-- Every command's row, by the command's format. -/
theorem row_holds (i : Instr) : Row i := by
  cases i with
  | nop | halt => exact row_formatN ⟨rfl, rfl, rfl, by decide⟩ rfl (fun _ h => by rw [decodeNat, h]; rfl)
  | csrr a n | csrw a n =>
    exact row_formatS (fun _ _ => ⟨rfl, rfl, rfl, by decide⟩) (fun _ _ => rfl)
      (fun _ h => by rw [decodeNat, h]; rfl) a n
  | setb a b c | rol16 a b c | ror16 a b c | rol24 a b c | ror24 a b c | rol32 a b c | ror32 a b c | sub32 a b c
  | mul32 a b c | sub64 a b c | mul64 a b c | rol64 a b c | ror64 a b c | shl64 a b c | shr64 a b c | rol48 a b c
  | ror48 a b c | splitle a b c | comble a b c | tblk a b c | tblkmd a b c | tblkbc a b c =>
    exact row_formatABC (fun _ _ _ => ⟨rfl, rfl, rfl, by decide⟩) (fun _ _ _ => rfl)
      (fun _ h => by rw [decodeNat, h]; rfl) a b c
  | mov a b | par8 a b | par32 a b | not64 a b | minv32 a b | minv64 a b | addbs a b | subb a b | mulb a b | notb a b
  | unpk16be a b | unpk16le a b | unpk32be a b | unpk32le a b | unpk64be a b | unpk64le a b
  | pack16be a b | pack16le a b | pack32be a b | pack32le a b | pack64be a b | pack64le a b =>
    exact row_formatAB (fun _ _ => ⟨rfl, rfl, rfl, by decide⟩) (fun _ _ => rfl)
      (fun _ h => by rw [decodeNat, h]; rfl) a b
  | rolb a c | rorb a c =>
    exact row_formatAC (fun _ _ => ⟨rfl, rfl, rfl, by decide⟩) (fun _ _ => rfl)
      (fun _ h => by rw [decodeNat, h]; rfl) a c
  | add32 a l | add64 a l | and64 a l | or64 a l | xor64 a l | addb a l | xorb a l =>
    exact row_formatL (fun _ _ => ⟨rfl, rfl, rfl, by decide⟩) (fun _ _ => rfl)
      (fun _ h => by rw [decodeNat, h]; rfl) a l
  | ldiz rd pos imm16 => exact row_formatI (z := 1) rd pos imm16 (by decide)
  | ldik rd pos imm16 => exact row_formatI (z := 0) rd pos imm16 (by decide)

end Sys2Proof.Proofs
end

