-- ==== Sys2Proof/Proofs/Encoding.lean ====
section
/-! The statements about the encoding: the round trips, the match and mask test, the words that are no command, and the
pseudo-instruction LI (30_encoding.md R83). -/

namespace Sys2Proof.Proofs

open Sys2Proof Sys2Proof.Machine Sys2Proof.Laws

/-! ### Words that are no command -/

/-- The opcode values of 30_encoding.md R79 that are no row's. -/
def Unassigned (op : Nat) : Prop :=
  0x07 ≤ op ∧ op ≤ 0x0F ∨ 0x1B ≤ op ∧ op ≤ 0x1F ∨ 0x2F ≤ op ∧ op ≤ 0x3F ∨ 0x48 ≤ op ∧ op ≤ 0x4F ∨
    op = 0x56 ∨ op = 0x57 ∨ 0x63 ≤ op

theorem rowOpcode_assigned (i : Instr) : ¬ Unassigned (rowOpcode i) := by
  cases i <;> simp [Unassigned, rowOpcode, rowMatch, bits]

/-- A fetched word that is no command is a fault of the step (30_encoding.md R79). -/
theorem step_of_illegal {s : State} {x : Word32} (hr : s.run = .running) (hx : fetch s = some x)
    (h : ∀ i, decode x ≠ .ok i) : step s = .next (takeFault .illegalInstruction s) := by
  cases hd : decode x with
  | error e => rw [step_of_running hr, stepRunning, hx]; simp only [hd]
  | ok i => exact absurd hd (h i)

/-! ### Loading a constant -/

/-- The constant `v` with only its first `n` quarters loaded. -/
def lowQuarters (v : Word) (n : Nat) : Word := zext64 (v.toNat % 2 ^ (16 * n))

theorem lowQuarters_toNat (v : Word) (n : Nat) : (lowQuarters v n).toNat = v.toNat % 2 ^ (16 * n) := by
  rw [lowQuarters, zext64, BitVec.toNat_ofNat, Nat.mod_eq_of_lt ((Nat.mod_le _ _).trans_lt v.isLt)]

theorem lowQuarters_four (v : Word) : lowQuarters v 4 = v :=
  BitVec.eq_of_toNat_eq ((lowQuarters_toNat v 4).trans (Nat.mod_eq_of_lt v.isLt))

theorem lowQuarters_succ (v : Word) (n : Nat) : lowQuarters v (n + 1) =
    zext64 (v.toNat % 2 ^ (16 * n) + (v.extractLsb' (16 * n) 16).toNat * 2 ^ (16 * n)) := by
  rw [lowQuarters, Nat.mul_succ, Nat.pow_add, Nat.mod_mul, BitVec.extractLsb'_toNat, Nat.shiftRight_eq_div_pow,
    Nat.mul_comm (2 ^ (16 * n))]

/-- LDIZ loads the first quarter and clears the rest (46_system.md R232). -/
theorem execLdiz_lowQuarters (rd : WReg) (v : Word) (s : State) :
    execLdiz rd 0 (v.extractLsb' 0 16) s = .next (afterW rd (lowQuarters v 1) s) := by
  have hvalue : lowQuarters v 1 = zext64 ((v.extractLsb' 0 16).toNat * 2 ^ (16 * 0)) := by
    simpa [Nat.mod_one] using lowQuarters_succ v 0
  rw [hvalue]
  rfl

/-- LDIK loads the next quarter above those that are loaded (46_system.md R233). -/
theorem execLdik_lowQuarters {rd : WReg} {v : Word} {n : Nat} {s : State} (h : wreg rd s = lowQuarters v n) :
    execLdik rd n (v.extractLsb' (16 * n) 16) s = .next (afterW rd (lowQuarters v (n + 1)) s) := by
  have hold : (wreg rd s).toNat = v.toNat % 2 ^ (16 * n) := by rw [h, lowQuarters_toNat]
  have hquarter : v.toNat % 2 ^ (16 * n) / 2 ^ (16 * n) = 0 := Nat.div_eq_of_lt (Nat.mod_lt _ (Nat.two_pow_pos _))
  rw [lowQuarters_succ]
  simp only [execLdik, hold, hquarter, Nat.zero_mod, Nat.zero_mul, Nat.sub_zero]
  rfl

theorem wreg_afterW (rd : WReg) (v : Word) (s : State) : wreg rd (afterW rd v s) = v := by
  simp [wreg, afterW]

/-! ### The statements -/

/-- Settles O6, row by row. -/
theorem decodeEncode : Obligations.DecodeEncode := fun i => (row_holds i).decode_encode

/-- Settles O7, row by row. -/
theorem encodeDecode : Obligations.EncodeDecode := fun _ i => (row_holds i).encode_of_decode

/-- Settles O8, row by row. -/
theorem rowMatchDecides : Obligations.RowMatchDecides := fun x i => (row_holds i).agrees_iff x

/-- Settles O9. A command has an assigned opcode and agrees with its own row. -/
theorem unassignedOpcodesAreIllegal : Obligations.UnassignedOpcodesAreIllegal := by
  refine fun x => ⟨fun hop i hi => ?_, fun hno i hi => ?_, fun h s hr hx => ?_⟩
  · have hopcode : x.toNat / 2 ^ 24 = rowOpcode i := by
      rw [← decodeNat_opcode hi, bits, Nat.mod_eq_of_lt (by omega)]
    exact rowOpcode_assigned i (hopcode ▸ hop)
  · exact hno i ((row_holds i).agrees_iff x |>.2 ⟨i, hi, rfl⟩)
  · rw [step_of_illegal hr hx h, takeFault_eq_afterFault]
    rfl

/-- Settles O10: each word is decoded. -/
theorem exampleWordsDecode : Obligations.ExampleWordsDecode :=
  ⟨rfl, rfl, rfl, rfl, rfl, rfl, rfl, rfl, rfl, rfl, rfl, rfl, rfl, rfl, rfl⟩

/-- Settles O27: each command adds one quarter. -/
theorem loadConstant : Obligations.LoadConstant := by
  intro rd v s
  refine ⟨_, _, _, _, execLdiz_lowQuarters rd v s, execLdik_lowQuarters (wreg_afterW ..),
    execLdik_lowQuarters (wreg_afterW ..), execLdik_lowQuarters (wreg_afterW ..), ?_⟩
  rw [lowQuarters_four]
  simp [afterW, BitVec.add_assoc]

end Sys2Proof.Proofs
end

