-- ==== Sys2Proof/Proofs/WordValues.lean ====
section
/-! SUPPORT. What the word commands write, one equation for each command: the value is an operation on bit vectors of
the command's width, zero-extended, and nothing but `w[rd]` and `pc` changes. The statements about the word commands are
about these values. -/

namespace Sys2Proof.Proofs

open Sys2Proof Sys2Proof.Machine Sys2Proof.Laws

/-! ### The state after a command that writes one word register -/

theorem complete_setW (rd : WReg) (v : Word) (s : State) : complete (setW rd v s) = .next (afterW rd v s) := rfl

theorem wreg_afterW_ne {rd i : WReg} (h : rd ≠ i) (v : Word) (s : State) : wreg i (afterW rd v s) = wreg i s :=
  (wreg_setW s rd i v).trans (if_neg h)

/-- What a command of width W reads from a register that holds a zero-extended W-bit value (10_state.md R22). -/
theorem operandBits_afterW {W : Nat} (hW : W ≤ 64) (rd : WReg) (x : BitVec W) (s : State) :
    operandBits W rd (afterW rd (x.setWidth 64) s) = x := by
  rw [operandBits, wreg_afterW, BitVec.setWidth_setWidth_of_le _ hW, BitVec.setWidth_eq]

/-- A W-bit result is written zero-extended (10_state.md R22). -/
theorem complete_setW_zext64 {W : Nat} (rd : WReg) (x : BitVec W) (s : State) :
    complete (setW rd (zext64 x.toNat) s) = .next (afterW rd (x.setWidth 64) s) := by
  rw [zext64_toNat, complete_setW]

/-- The operand of a 64-bit command is the whole register. -/
theorem wordOperand_word (i : WReg) (s : State) : wordOperand 64 i s = (wreg i s).toNat :=
  Nat.mod_eq_of_lt (wreg i s).isLt

theorem operandBits_word (i : WReg) (s : State) : operandBits 64 i s = wreg i s := BitVec.setWidth_eq _

theorem complete_setW_zext64_word (rd : WReg) (x : Word) (s : State) :
    complete (setW rd (zext64 x.toNat) s) = .next (afterW rd x s) := by
  rw [complete_setW_zext64, BitVec.setWidth_eq]

/-! ### Term lists of at least two registers -/

theorem checked_twoTerms {list : BitVec 16} (h : 2 ≤ termCount list) (rd : WReg) (v : Word) (s : State) :
    checked (twoTerms list) s (.ok (setW rd v s)) = .next (afterW rd v s) :=
  checked_pass (List.forall_mem_singleton.2 (decide_eq_false (Nat.not_lt.2 h))) rfl

theorem checked_twoTerms_fault {list : BitVec 16} (h : termCount list < 2) (s : State) (op : Except Fault State) :
    checked (twoTerms list) s op = .next (afterFault 2 0x04 s) := by
  have hcause : lowestCause (twoTerms list) = some .tooFewTerms := by simp [twoTerms, lowestCause, h]
  exact (checked_fault hcause).trans (congrArg _ (takeFault_eq_afterFault _ s))

/-! ### Counts at 48 bits -/

/-- A count of at most 16 passes the check of the 48-bit rotates (42_widearith.md R132). -/
theorem checked_atMost16 {rc : WReg} {s : State} (h : countBits rc s ≤ 16) (rd : WReg) (v : Word) :
    checked (atMost16 rc s) s (.ok (setW rd v s)) = .next (afterW rd v s) :=
  checked_pass (List.forall_mem_singleton.2 (decide_eq_false (Nat.not_lt.2 h))) rfl

/-! ### Differences -/

/-- The floor modulus of a difference is the difference of bit vectors (90_conflicts.md C5). -/
theorem floorMod_sub {W : Nat} (x y : BitVec W) : floorMod ((x.toNat : Int) - y.toNat) (2 ^ W) = (x - y).toNat := by
  have hy : y.toNat ≤ 2 ^ W := y.isLt.le
  have hshift : ((x.toNat : Int) - y.toNat) + (2 ^ W : Nat) = ((2 ^ W - y.toNat + x.toNat : Nat) : Int) := by omega
  rw [floorMod, BitVec.toNat_sub, ← Int.add_emod_right, hshift, ← Int.natCast_emod, Int.toNat_natCast]

/-! ### Shifts: the count is not reduced (42_widearith.md R130, R131) -/

theorem toNat_shiftLeft_word (v : Word) (c : Nat) :
    (v <<< c).toNat = if 64 ≤ c then 0 else v.toNat * 2 ^ c % 2 ^ 64 := by
  split
  next h => rw [BitVec.shiftLeft_eq_zero h, BitVec.toNat_zero]
  next => rw [BitVec.toNat_shiftLeft, Nat.shiftLeft_eq]

theorem toNat_ushiftRight_word (v : Word) (c : Nat) :
    (v >>> c).toNat = if 64 ≤ c then 0 else v.toNat / 2 ^ c := by
  split
  next h => rw [BitVec.ushiftRight_eq_zero h, BitVec.toNat_zero]
  next => rw [BitVec.toNat_ushiftRight, Nat.shiftRight_eq_div_pow]

/-! ### The values -/

section Values
variable (rd rs rt rc : WReg) (s : State)

theorem complete_rotl (W : Nat) : complete (rotateWord W rotl rd rs rc s) =
    .next (afterW rd (((operandBits W rs s).rotateLeft (countBits rc s)).setWidth 64) s) := by
  rw [rotateWord, wordOperand_eq, countOperand_eq, rotl_eq, complete_setW_zext64]

theorem complete_rotr (W : Nat) : complete (rotateWord W rotr rd rs rc s) =
    .next (afterW rd (((operandBits W rs s).rotateRight (countBits rc s)).setWidth 64) s) := by
  rw [rotateWord, wordOperand_eq, countOperand_eq, rotr_eq, complete_setW_zext64]

theorem exec_sub32 : exec (.sub32 rd rs rt) s =
    .next (afterW rd ((operandBits 32 rs s - operandBits 32 rt s).setWidth 64) s) := by
  change execSub32 rd rs rt s = _
  rw [execSub32, wordOperand_eq, wordOperand_eq, floorMod_sub, complete_setW_zext64]

theorem exec_mul32 : exec (.mul32 rd rs rt) s =
    .next (afterW rd ((operandBits 32 rs s * operandBits 32 rt s).setWidth 64) s) := by
  change execMul32 rd rs rt s = _
  rw [execMul32, wordOperand_eq, wordOperand_eq, ← BitVec.toNat_mul, complete_setW_zext64]

theorem exec_sub64 : exec (.sub64 rd rs rt) s = .next (afterW rd (wreg rs s - wreg rt s) s) := by
  change execSub64 rd rs rt s = _
  rw [execSub64, floorMod_sub, complete_setW_zext64_word]

theorem exec_not64 : exec (.not64 rd rs) s = .next (afterW rd (~~~ wreg rs s) s) := by
  change execNot64 rd rs s = _
  rw [execNot64, ← BitVec.toNat_not, complete_setW_zext64_word]

theorem exec_mul64 : exec (.mul64 rd rs rt) s = .next (afterW rd (wreg rs s * wreg rt s) s) := by
  change execMul64 rd rs rt s = _
  rw [execMul64, ← BitVec.toNat_mul, complete_setW_zext64_word]

/-- A rotate of the whole register is the one of its 64-bit operand. -/
theorem exec_rol64_eq_rotateWord : exec (.rol64 rd rs rc) s = complete (rotateWord 64 rotl rd rs rc s) := by
  rw [rotateWord, wordOperand_word]
  rfl

theorem exec_ror64_eq_rotateWord : exec (.ror64 rd rs rc) s = complete (rotateWord 64 rotr rd rs rc s) := by
  rw [rotateWord, wordOperand_word]
  rfl

theorem exec_rol64 : exec (.rol64 rd rs rc) s = .next (afterW rd ((wreg rs s).rotateLeft (countBits rc s)) s) := by
  rw [exec_rol64_eq_rotateWord, complete_rotl, operandBits_word, BitVec.setWidth_eq]

theorem exec_ror64 : exec (.ror64 rd rs rc) s = .next (afterW rd ((wreg rs s).rotateRight (countBits rc s)) s) := by
  rw [exec_ror64_eq_rotateWord, complete_rotr, operandBits_word, BitVec.setWidth_eq]

theorem exec_shl64 : exec (.shl64 rd rs rc) s = .next (afterW rd (wreg rs s <<< countBits rc s) s) := by
  rw [← complete_setW_zext64_word, toNat_shiftLeft_word]
  rfl

theorem exec_shr64 : exec (.shr64 rd rs rc) s = .next (afterW rd (wreg rs s >>> countBits rc s) s) := by
  rw [← complete_setW_zext64_word, toNat_ushiftRight_word]
  rfl

/-- A sum of 32-bit operands (41_wordarith.md R107). -/
theorem exec_add32 (list : BitVec 16) : exec (.add32 rd list) s = checked (twoTerms list) s (.ok (setW rd
    (BitVec.ofNat 64 ((∑ i : WReg, if list.getLsbD i then (wreg i s).toNat % 2 ^ 32 else 0) % 2 ^ 32)) s)) := by
  rw [← sum_terms list fun i => (wreg i s).toNat % 2 ^ 32]
  rfl

/-- A sum of whole registers (42_widearith.md R121). -/
theorem exec_add64 (list : BitVec 16) : exec (.add64 rd list) s = checked (twoTerms list) s (.ok (setW rd
    (BitVec.ofNat 64 ((∑ i : WReg, if list.getLsbD i then (wreg i s).toNat else 0) % 2 ^ 64)) s)) := by
  rw [← sum_terms list fun i => (wreg i s).toNat]
  rfl

theorem exec_rol48 {rc : WReg} {s : State} (h : countBits rc s ≤ 16) : exec (.rol48 rd rs rc) s =
    .next (afterW rd (((operandBits 48 rs s).rotateLeft (countBits rc s)).setWidth 64) s) := by
  have hcount : countBits rc s % 48 = countBits rc s := Nat.mod_eq_of_lt (by omega)
  rw [← zext64_toNat, ← rotl_eq, hcount, ← wordOperand_eq]
  exact checked_atMost16 h rd _

theorem exec_ror48 {rc : WReg} {s : State} (h : countBits rc s ≤ 16) : exec (.ror48 rd rs rc) s =
    .next (afterW rd (((operandBits 48 rs s).rotateRight (countBits rc s)).setWidth 64) s) := by
  have hcount : countBits rc s % 48 = countBits rc s := Nat.mod_eq_of_lt (by omega)
  rw [← zext64_toNat, ← rotr_eq, hcount, ← wordOperand_eq]
  exact checked_atMost16 h rd _

end Values

end Sys2Proof.Proofs
end

