-- ==== Sys2Proof/Proofs/WordArith.lean ====
section
/-! The statements about the WordArith commands (41_wordarith.md), with the round trip of the rotates at every width
(42_widearith.md R136). -/

namespace Sys2Proof.Proofs

open Sys2Proof Sys2Proof.Machine Sys2Proof.Laws

/-! ### Parity by folding -/

/-- The distances by which a word of `2^n` bits is folded: each is half of the width that is left (41_wordarith.md R110,
R111). -/
def halvings : Nat → List Nat
  | 0 => []
  | n + 1 => 2 ^ n :: halvings n

/-- The number of 1 bits among the low `n` bits of `v`. -/
def bitCount (n v : Nat) : Nat := ∑ j ∈ Finset.range n, v / 2 ^ j % 2

/-- One fold by half of the width keeps the parity of the bits: bit `j` is joined by bit `d + j`. -/
theorem bitCount_fold (d v : Nat) : bitCount d (v ^^^ (v / 2 ^ d)) % 2 = bitCount (d + d) v % 2 := by
  simp only [bitCount, xor_div_bit]
  rw [← Finset.sum_nat_mod, Finset.sum_add_distrib, Finset.sum_range_add]

/-- The last bit of the folded word is the parity of the bits. -/
theorem xorFold_halvings (n v : Nat) : xorFold (halvings n) v % 2 = bitCount (2 ^ n) v % 2 := by
  induction n generalizing v with
  | zero => simp [halvings, xorFold, bitCount]
  | succ n ih =>
    calc xorFold (halvings (n + 1)) v % 2
        = xorFold (halvings n) (v ^^^ (v / 2 ^ 2 ^ n)) % 2 := rfl
      _ = bitCount (2 ^ n) (v ^^^ (v / 2 ^ 2 ^ n)) % 2 := ih _
      _ = bitCount (2 ^ (n + 1)) v % 2 := by rw [bitCount_fold, pow_succ, mul_two]

/-- Bits below the width of an operand are those of the register. -/
theorem bitCount_wordOperand (n : Nat) (i : WReg) (s : State) :
    bitCount n (wordOperand n i s) = (Finset.univ.filter fun j : Fin n => (wreg i s).getLsbD j).card := by
  rw [bitCount, Finset.card_filter, ← Fin.sum_univ_eq_sum_range]
  refine Finset.sum_congr rfl fun j _ => ?_
  have hbit : (wordOperand n i s).testBit j = (wreg i s).getLsbD j := by
    rw [wordOperand, Nat.testBit_mod_two_pow, decide_eq_true j.isLt, Bool.true_and, BitVec.testBit_toNat]
  rw [← hbit, ← Nat.toNat_testBit]
  cases (wordOperand n i s).testBit j <;> rfl

/-! ### Opposite rotates -/

theorem rotateRight_rotateLeft {W : Nat} (x : BitVec W) (c : Nat) : (x.rotateLeft c).rotateRight c = x := by
  ext j hj
  have hc : c % W < W := Nat.mod_lt _ (by omega)
  simp only [BitVec.getElem_rotateRight, BitVec.getElem_rotateLeft]
  grind

theorem rotateLeft_rotateRight {W : Nat} (x : BitVec W) (c : Nat) : (x.rotateRight c).rotateLeft c = x := by
  ext j hj
  have hc : c % W < W := Nat.mod_lt _ (by omega)
  simp only [BitVec.getElem_rotateRight, BitVec.getElem_rotateLeft]
  grind

/-- Two commands of width W in a row, of which the second undoes what the first does to the operand with the same count.
The first leaves the count register alone. -/
theorem opposite_roundTrip {W : Nat} (hW : W ≤ 64) {i j : Instr} {f g : BitVec W → Nat → BitVec W} {rd rs rc : WReg}
    {s : State} (hne : rd ≠ rc) (hgf : ∀ x c, g (f x c) c = x)
    (hi : exec i s = .next (afterW rd ((f (operandBits W rs s) (countBits rc s)).setWidth 64) s))
    (hj : ∀ t, countBits rc t = countBits rc s →
      exec j t = .next (afterW rd ((g (operandBits W rd t) (countBits rc t)).setWidth 64) t)) :
    ∃ t u, exec i s = .next t ∧ exec j t = .next u ∧ wreg rd u = (operandBits W rs s).setWidth 64 := by
  have hcount (v : Word) : countBits rc (afterW rd v s) = countBits rc s := by
    rw [countBits, wreg_afterW_ne hne, countBits]
  refine ⟨_, _, hi, hj _ (hcount _), ?_⟩
  rw [wreg_afterW, operandBits_afterW hW, hcount, hgf]

/-- A left rotate and then a right rotate. -/
theorem rotl_rotr_roundTrip {W : Nat} (hW : W ≤ 64) {i j : Instr} {rd rs rc : WReg} (s : State) (hne : rd ≠ rc)
    (hi : ∀ t, exec i t = complete (rotateWord W rotl rd rs rc t))
    (hj : ∀ t, exec j t = complete (rotateWord W rotr rd rd rc t)) :
    ∃ t u, exec i s = .next t ∧ exec j t = .next u ∧ wreg rd u = (operandBits W rs s).setWidth 64 :=
  opposite_roundTrip hW hne rotateRight_rotateLeft ((hi s).trans (complete_rotl ..))
    fun t _ => (hj t).trans (complete_rotr ..)

/-- A right rotate and then a left rotate. -/
theorem rotr_rotl_roundTrip {W : Nat} (hW : W ≤ 64) {i j : Instr} {rd rs rc : WReg} (s : State) (hne : rd ≠ rc)
    (hi : ∀ t, exec i t = complete (rotateWord W rotr rd rs rc t))
    (hj : ∀ t, exec j t = complete (rotateWord W rotl rd rd rc t)) :
    ∃ t u, exec i s = .next t ∧ exec j t = .next u ∧ wreg rd u = (operandBits W rs s).setWidth 64 :=
  opposite_roundTrip hW hne rotateLeft_rotateRight ((hi s).trans (complete_rotr ..))
    fun t _ => (hj t).trans (complete_rotl ..)

/-! ### The statements -/

/-- Settles O32: the three widths share their rotates. -/
theorem narrowRotates : Obligations.NarrowRotates := fun rd rs rc s =>
  ⟨complete_rotl rd rs rc s 16, complete_rotr rd rs rc s 16, complete_rotl rd rs rc s 24, complete_rotr rd rs rc s 24,
    complete_rotl rd rs rc s 32, complete_rotr rd rs rc s 32⟩

/-- Settles O33. The check counts the terms, and the operation sums them. -/
theorem add32Sum : Obligations.Add32Sum := by
  intro rd list s n
  have hn : termCount list = n := termCount_eq_card list
  rw [exec_add32, ← hn]
  exact ⟨fun h => checked_twoTerms h .., fun h => checked_twoTerms_fault h ..⟩

/-- Settles O34. -/
theorem sub32AndMul32 : Obligations.Sub32AndMul32 := fun rd rs rt s => ⟨exec_sub32 rd rs rt s, exec_mul32 rd rs rt s⟩

/-- Settles O35: 8 bits are folded three times, 32 bits five times. -/
theorem parityIsBitCountParity : Obligations.ParityIsBitCountParity := by
  intro rd rs s
  rw [← bitCount_wordOperand, ← bitCount_wordOperand]
  exact ⟨congrArg (fun p => complete (setW rd (zext64 p) s)) (xorFold_halvings 3 _),
    congrArg (fun p => complete (setW rd (zext64 p) s)) (xorFold_halvings 5 _)⟩

/-- Settles O36. The rotates at 48 bits have a check, and the count that passes it in the first passes it in the
second. -/
theorem rotateRoundTrip : Obligations.RotateRoundTrip := by
  intro rd rs rc s hne
  have hword : (operandBits 64 rs s).setWidth 64 = wreg rs s := by rw [operandBits_word, BitVec.setWidth_eq]
  rw [← hword]
  refine ⟨?rol16, ?ror16, ?rol24, ?ror24, ?rol32, ?ror32, ?rol64, ?ror64, fun hc => ⟨?rol48, ?ror48⟩⟩
  case rol16 | rol24 | rol32 => exact rotl_rotr_roundTrip (by decide) s hne (fun _ => rfl) fun _ => rfl
  case ror16 | ror24 | ror32 => exact rotr_rotl_roundTrip (by decide) s hne (fun _ => rfl) fun _ => rfl
  case rol64 =>
    exact rotl_rotr_roundTrip (by decide) s hne (exec_rol64_eq_rotateWord _ _ _) (exec_ror64_eq_rotateWord _ _ _)
  case ror64 =>
    exact rotr_rotl_roundTrip (by decide) s hne (exec_ror64_eq_rotateWord _ _ _) (exec_rol64_eq_rotateWord _ _ _)
  case rol48 =>
    exact opposite_roundTrip (by decide) hne rotateRight_rotateLeft (exec_rol48 rd rs hc)
      fun _ ht => exec_ror48 rd rd (ht ▸ hc)
  case ror48 =>
    exact opposite_roundTrip (by decide) hne rotateLeft_rotateRight (exec_ror48 rd rs hc)
      fun _ ht => exec_rol48 rd rd (ht ▸ hc)

end Sys2Proof.Proofs
end

