-- ==== Sys2Proof/Proofs/Datapaths.lean ====
section
/-! The statement about the datapaths of 41_wordarith.md R109 and 42_widearith.md R120 and R127 to R131: half-words,
16-bit limbs, and the hi/lo pair of a 64-bit word. A rotate is the OR of two shifts, on pairs as on words, so only the
shifts are compared bit by bit. -/

namespace Sys2Proof.Proofs

open Sys2Proof Sys2Proof.Machine Sys2Proof.Laws

/-! ### Products from 16-bit parts -/

/-- Digit `k` of a number in base `2^16`: a half-word (41_wordarith.md R109) or a limb (42_widearith.md R127). -/
def part16 (n k : Nat) : Nat := n / 2 ^ (16 * k) % 2 ^ 16

theorem mod_two_pow_32_eq_parts (n : Nat) : n % 2 ^ 32 = part16 n 0 + part16 n 1 * 2 ^ 16 := by
  simp only [part16]
  omega

theorem mod_two_pow_64_eq_parts (n : Nat) :
    n % 2 ^ 64 = part16 n 0 + part16 n 1 * 2 ^ 16 + part16 n 2 * 2 ^ 32 + part16 n 3 * 2 ^ 48 := by
  simp only [part16]
  omega

/-- The product of two numbers of two half-words, modulo 2^32: the product of the high ones is beyond 32 bits, and so is
what the cross products carry out (41_wordarith.md R109). -/
theorem halfWord_product (a₀ a₁ b₀ b₁ : Nat) :
    (a₀ + a₁ * 2 ^ 16) * (b₀ + b₁ * 2 ^ 16) % 2 ^ 32 =
      (a₀ * b₀ + (a₁ * b₀ + a₀ * b₁) % 2 ^ 16 * 2 ^ 16) % 2 ^ 32 := by
  have hexpand : (a₀ + a₁ * 2 ^ 16) * (b₀ + b₁ * 2 ^ 16) =
      a₀ * b₀ + (a₁ * b₀ + a₀ * b₁) * 2 ^ 16 + a₁ * b₁ * 2 ^ 32 := by ring
  rw [hexpand]
  generalize a₁ * b₀ + a₀ * b₁ = cross
  omega

theorem setWidth_mul_toNat (a b : Word) :
    ((a.setWidth 32 * b.setWidth 32).setWidth 64).toNat = (part16 a.toNat 0 * part16 b.toNat 0 +
      (part16 a.toNat 1 * part16 b.toNat 0 + part16 a.toNat 0 * part16 b.toNat 1) % 2 ^ 16 * 2 ^ 16) % 2 ^ 32 := by
  rw [BitVec.toNat_setWidth_of_le (by decide), BitVec.toNat_mul, BitVec.toNat_setWidth, BitVec.toNat_setWidth,
    mod_two_pow_32_eq_parts a.toNat, mod_two_pow_32_eq_parts b.toNat, halfWord_product]

/-- The limbs of a number given by columns are the column sums with carries (42_widearith.md R127). -/
theorem part16_of_columns {p₀ p₁ p₂ p₃ high n : Nat}
    (hn : n = (p₀ + p₁ * 2 ^ 16 + p₂ * 2 ^ 32 + p₃ * 2 ^ 48 + high * 2 ^ 64) % 2 ^ 64) :
    part16 n 0 = p₀ % 2 ^ 16 ∧ part16 n 1 = (p₀ / 2 ^ 16 + p₁) % 2 ^ 16 ∧
      part16 n 2 = ((p₀ / 2 ^ 16 + p₁) / 2 ^ 16 + p₂) % 2 ^ 16 ∧
      part16 n 3 = (((p₀ / 2 ^ 16 + p₁) / 2 ^ 16 + p₂) / 2 ^ 16 + p₃) % 2 ^ 16 := by
  simp only [part16]
  omega

/-- The columns of a product of two numbers of four limbs, and what is beyond 64 bits. -/
theorem limbs_product (a₀ a₁ a₂ a₃ b₀ b₁ b₂ b₃ : Nat) :
    (a₀ + a₁ * 2 ^ 16 + a₂ * 2 ^ 32 + a₃ * 2 ^ 48) * (b₀ + b₁ * 2 ^ 16 + b₂ * 2 ^ 32 + b₃ * 2 ^ 48) =
      a₀ * b₀ + (a₀ * b₁ + a₁ * b₀) * 2 ^ 16 + (a₀ * b₂ + a₁ * b₁ + a₂ * b₀) * 2 ^ 32 +
        (a₀ * b₃ + a₁ * b₂ + a₂ * b₁ + a₃ * b₀) * 2 ^ 48 +
        (a₁ * b₃ + a₂ * b₂ + a₃ * b₁ + (a₂ * b₃ + a₃ * b₂) * 2 ^ 16 + a₃ * b₃ * 2 ^ 32) * 2 ^ 64 := by
  ring

theorem part16_mul (a b : Word) :
    let aₖ := part16 a.toNat
    let bₖ := part16 b.toNat
    let s₀ := aₖ 0 * bₖ 0
    let s₁ := s₀ / 2 ^ 16 + aₖ 0 * bₖ 1 + aₖ 1 * bₖ 0
    let s₂ := s₁ / 2 ^ 16 + aₖ 0 * bₖ 2 + aₖ 1 * bₖ 1 + aₖ 2 * bₖ 0
    let s₃ := s₂ / 2 ^ 16 + aₖ 0 * bₖ 3 + aₖ 1 * bₖ 2 + aₖ 2 * bₖ 1 + aₖ 3 * bₖ 0
    part16 (a * b).toNat 0 = s₀ % 2 ^ 16 ∧ part16 (a * b).toNat 1 = s₁ % 2 ^ 16 ∧
      part16 (a * b).toNat 2 = s₂ % 2 ^ 16 ∧ part16 (a * b).toNat 3 = s₃ % 2 ^ 16 := by
  have hproduct : (a * b).toNat = a.toNat % 2 ^ 64 * (b.toNat % 2 ^ 64) % 2 ^ 64 := by
    rw [BitVec.toNat_mul, Nat.mod_eq_of_lt a.isLt, Nat.mod_eq_of_lt b.isLt]
  rw [mod_two_pow_64_eq_parts a.toNat, mod_two_pow_64_eq_parts b.toNat, limbs_product] at hproduct
  simpa only [← Nat.add_assoc] using part16_of_columns hproduct

/-! ### The pair of a word -/

theorem pairOf_toNat (v : Word) :
    (pairOf v).1.toNat = v.toNat / 2 ^ 32 ∧ (pairOf v).2.toNat = v.toNat % 2 ^ 32 := by
  have := v.isLt
  simp only [pairOf, BitVec.extractLsb'_toNat, Nat.shiftRight_eq_div_pow]
  omega

/-- A pair is known by the two numbers it holds. -/
theorem pair_ext {p q : Word32 × Word32} (hhi : p.1.toNat = q.1.toNat) (hlo : p.2.toNat = q.2.toNat) : p = q :=
  Prod.ext (BitVec.eq_of_toNat_eq hhi) (BitVec.eq_of_toNat_eq hlo)

theorem pairOf_add (a b : Word) : pairOf (a + b) = addPair (pairOf a) (pairOf b) := by
  obtain ⟨hhi, hlo⟩ := pairOf_toNat (a + b)
  obtain ⟨hahi, halo⟩ := pairOf_toNat a
  obtain ⟨hbhi, hblo⟩ := pairOf_toNat b
  rw [BitVec.toNat_add] at hhi hlo
  apply pair_ext <;> simp only [addPair, BitVec.toNat_add, BitVec.toNat_ofNat] <;> omega

theorem pairOf_sub (a b : Word) : pairOf (a - b) = subPair (pairOf a) (pairOf b) := by
  obtain ⟨hhi, hlo⟩ := pairOf_toNat (a - b)
  obtain ⟨hahi, halo⟩ := pairOf_toNat a
  obtain ⟨hbhi, hblo⟩ := pairOf_toNat b
  have hb := b.isLt
  rw [BitVec.toNat_sub] at hhi hlo
  apply pair_ext <;> simp only [subPair, BitVec.toNat_sub]
  · split <;> simp only [BitVec.toNat_ofNat] <;> omega
  · omega

theorem pairOf_not (a : Word) : pairOf (~~~ a) = (~~~ (pairOf a).1, ~~~ (pairOf a).2) := by
  obtain ⟨hhi, hlo⟩ := pairOf_toNat (~~~ a)
  obtain ⟨hahi, halo⟩ := pairOf_toNat a
  have ha := a.isLt
  rw [BitVec.toNat_not] at hhi hlo
  apply pair_ext <;> rw [BitVec.toNat_not] <;> omega

theorem pairOf_and (a b : Word) : pairOf (a &&& b) = bothHalves (· &&& ·) (pairOf a) (pairOf b) := by
  simp only [pairOf, bothHalves, BitVec.extractLsb'_and]

theorem pairOf_or (a b : Word) : pairOf (a ||| b) = bothHalves (· ||| ·) (pairOf a) (pairOf b) := by
  simp only [pairOf, bothHalves, BitVec.extractLsb'_or]

theorem pairOf_xor (a b : Word) : pairOf (a ^^^ b) = bothHalves (· ^^^ ·) (pairOf a) (pairOf b) := by
  simp only [pairOf, bothHalves, BitVec.extractLsb'_xor]

/-! ### Shifts of a pair -/

theorem pair_ext_bits {p q : Word32 × Word32} (h : ∀ j (_ : j < 32), p.1[j] = q.1[j] ∧ p.2[j] = q.2[j]) : p = q :=
  Prod.ext (BitVec.eq_of_getElem_eq fun j hj => (h j hj).1) (BitVec.eq_of_getElem_eq fun j hj => (h j hj).2)

/-- SHL64 on pairs (42_widearith.md R130). Below 64 each case is checked bit by bit. -/
theorem pairOf_shiftLeft (v : Word) (c : Nat) : pairOf (v <<< c) = shlPair c (pairOf v) := by
  simp only [shlPair]
  split_ifs with hzero hlow hhalf hhigh
  · rw [hzero, BitVec.shiftLeft_zero]
  · exact pair_ext_bits fun j hj => by grind [pairOf]
  · exact pair_ext_bits fun j hj => by grind [pairOf]
  · exact pair_ext_bits fun j hj => by grind [pairOf]
  · rw [BitVec.shiftLeft_eq_zero (by omega)]
    rfl

/-- SHR64 on pairs (42_widearith.md R131). -/
theorem pairOf_ushiftRight (v : Word) (c : Nat) : pairOf (v >>> c) = shrPair c (pairOf v) := by
  simp only [shrPair]
  split_ifs with hzero hlow hhalf hhigh
  · rw [hzero, BitVec.ushiftRight_zero]
  · exact pair_ext_bits fun j hj => by grind [pairOf]
  · exact pair_ext_bits fun j hj => by grind [pairOf]
  · exact pair_ext_bits fun j hj => by grind [pairOf]
  · rw [BitVec.ushiftRight_eq_zero (by omega)]
    rfl

/-! ### Rotates of a pair -/

section Cases
variable {c : Nat} (p : Word32 × Word32)

theorem shlPair_of_lt (hpos : 0 < c) (hlt : c < 32) :
    shlPair c p = (p.1 <<< c ||| p.2 >>> (32 - c), p.2 <<< c) := by
  simp [shlPair, hpos.ne', hlt]

theorem shlPair_of_gt (hgt : 32 < c) (hlt : c < 64) : shlPair c p = (p.2 <<< (c - 32), 0#32) := by
  simp [shlPair, hgt.ne', hgt.not_gt, hlt, show c ≠ 0 by omega]

theorem shrPair_of_lt (hpos : 0 < c) (hlt : c < 32) :
    shrPair c p = (p.1 >>> c, p.2 >>> c ||| p.1 <<< (32 - c)) := by
  simp [shrPair, hpos.ne', hlt]

theorem shrPair_of_gt (hgt : 32 < c) (hlt : c < 64) : shrPair c p = (0#32, p.1 >>> (c - 32)) := by
  simp [shrPair, hgt.ne', hgt.not_gt, hlt, show c ≠ 0 by omega]

/-- The four cases of a rotate count (42_widearith.md R128, R129). -/
theorem rotateCount_cases (c : Nat) : c = 0 ∨ (0 < c ∧ c < 32) ∨ c = 32 ∨ 32 < c := by omega

/-- ROL64 on pairs is SHL64 with the bits that SHR64 by the rest brings in. -/
theorem rolPair_eq_or_shifts (hc : c < 64) :
    rolPair c p = bothHalves (· ||| ·) (shlPair c p) (shrPair (64 - c) p) := by
  rcases rotateCount_cases c with rfl | ⟨hpos, hlt⟩ | rfl | hgt
  · simp [rolPair, shlPair, shrPair, bothHalves]
  · have hrest : 64 - c - 32 = 32 - c := by omega
    rw [shlPair_of_lt p hpos hlt, shrPair_of_gt p (by omega) (by omega), hrest]
    simp [rolPair, bothHalves, hpos.ne', hlt]
  · simp [rolPair, shlPair, shrPair, bothHalves]
  · have hrest : 64 - c = 32 - (c - 32) := by omega
    have hback : 32 - (32 - (c - 32)) = c - 32 := by omega
    rw [shlPair_of_gt p hgt hc, hrest, shrPair_of_lt p (by omega) (by omega), hback]
    simp [rolPair, bothHalves, hgt.ne', hgt.not_gt, show c ≠ 0 by omega, BitVec.or_comm]

/-- ROR64 on pairs is SHR64 with the bits that SHL64 by the rest brings in. -/
theorem rorPair_eq_or_shifts (hc : c < 64) :
    rorPair c p = bothHalves (· ||| ·) (shrPair c p) (shlPair (64 - c) p) := by
  rcases rotateCount_cases c with rfl | ⟨hpos, hlt⟩ | rfl | hgt
  · simp [rorPair, shlPair, shrPair, bothHalves]
  · have hrest : 64 - c - 32 = 32 - c := by omega
    rw [shrPair_of_lt p hpos hlt, shlPair_of_gt p (by omega) (by omega), hrest]
    simp [rorPair, bothHalves, hpos.ne', hlt]
  · simp [rorPair, shlPair, shrPair, bothHalves]
  · have hrest : 64 - c = 32 - (c - 32) := by omega
    have hback : 32 - (32 - (c - 32)) = c - 32 := by omega
    rw [shrPair_of_gt p hgt hc, hrest, shlPair_of_lt p (by omega) (by omega), hback]
    simp [rorPair, bothHalves, hgt.ne', hgt.not_gt, show c ≠ 0 by omega, BitVec.or_comm]

end Cases

theorem pairOf_rotateLeft (v : Word) (c : Nat) : pairOf (v.rotateLeft c) = rolPair (c % 64) (pairOf v) := by
  rw [rolPair_eq_or_shifts _ (Nat.mod_lt _ (by decide)), BitVec.rotateLeft_def, pairOf_or, pairOf_shiftLeft,
    pairOf_ushiftRight]

theorem pairOf_rotateRight (v : Word) (c : Nat) : pairOf (v.rotateRight c) = rorPair (c % 64) (pairOf v) := by
  rw [rorPair_eq_or_shifts _ (Nat.mod_lt _ (by decide)), BitVec.rotateRight_def, pairOf_or, pairOf_shiftLeft,
    pairOf_ushiftRight]

/-! ### Lists of two terms -/

section TwoTerms
variable {rs rt : WReg} {list : BitVec 16} (hne : rs ≠ rt) (hlist : ∀ i : WReg, list.getLsbD i = true ↔ i = rs ∨ i = rt)
include hne hlist

/-- A term list is in rising order, which may be either order of its two registers. -/
theorem terms_perm_pair : (terms list).Perm [rs, rt] := by
  refine (List.perm_ext_iff_of_nodup ((List.nodup_finRange 16).filter _) (by simpa using hne)).2 fun i => ?_
  simpa [terms] using hlist i

theorem two_le_termCount : 2 ≤ termCount list := (terms_perm_pair hne hlist).length_eq.ge

/-- AND64, OR64 and XOR64 fold an operation over the terms, whose order does not matter, from a value that is neutral
for it (42_widearith.md R123 to R125). -/
theorem checked_foldl_pair (f : Word → Word → Word) [RightCommutative f] {z : Word} (hz : ∀ x, f z x = x) (rd : WReg)
    (s : State) : checked (twoTerms list) s (.ok (setW rd ((terms list).foldl (fun v i => f v (wreg i s)) z) s)) =
      .next (afterW rd (f (wreg rs s) (wreg rt s)) s) := by
  have hfold : (terms list).foldl (fun v i => f v (wreg i s)) z = f (f z (wreg rs s)) (wreg rt s) :=
    (terms_perm_pair hne hlist).foldl_eq' (fun _ _ _ _ _ => RightCommutative.right_comm (op := f) _ _ _) z
  rw [checked_twoTerms (two_le_termCount hne hlist), hfold, hz]

theorem exec_add64_pair (rd : WReg) (s : State) :
    exec (.add64 rd list) s = .next (afterW rd (wreg rs s + wreg rt s) s) := by
  have hsum : ((terms list).map fun i => (wreg i s).toNat).sum = (wreg rs s).toNat + (wreg rt s).toNat := by
    rw [((terms_perm_pair hne hlist).map _).sum_eq]
    simp
  rw [exec_add64, checked_twoTerms (two_le_termCount hne hlist), ← sum_terms, hsum, ← BitVec.toNat_add,
    BitVec.ofNat_toNat, BitVec.setWidth_eq]

theorem exec_and64_pair (rd : WReg) (s : State) :
    exec (.and64 rd list) s = .next (afterW rd (wreg rs s &&& wreg rt s) s) :=
  checked_foldl_pair hne hlist (· &&& ·) (fun _ => BitVec.allOnes_and) rd s

theorem exec_or64_pair (rd : WReg) (s : State) :
    exec (.or64 rd list) s = .next (afterW rd (wreg rs s ||| wreg rt s) s) :=
  checked_foldl_pair hne hlist (· ||| ·) (fun _ => BitVec.zero_or) rd s

theorem exec_xor64_pair (rd : WReg) (s : State) :
    exec (.xor64 rd list) s = .next (afterW rd (wreg rs s ^^^ wreg rt s) s) :=
  checked_foldl_pair hne hlist (· ^^^ ·) (fun _ => BitVec.zero_xor) rd s

end TwoTerms

/-! ### The statement -/

/-- Settles O40. The command's value is an operation on bit vectors, and the datapath computes it. -/
theorem halfWordDatapaths : Obligations.HalfWordDatapaths := by
  intro rd rs rt s a b c half
  exact ⟨⟨_, exec_mul32 rd rs rt s, setWidth_mul_toNat a b⟩,
    ⟨_, exec_mul64 rd rs rt s, part16_mul a b⟩,
    fun list hne hlist =>
      ⟨⟨_, exec_add64_pair hne hlist rd s, pairOf_add a b⟩,
        ⟨_, exec_and64_pair hne hlist rd s, pairOf_and a b⟩,
        ⟨_, exec_or64_pair hne hlist rd s, pairOf_or a b⟩,
        ⟨_, exec_xor64_pair hne hlist rd s, pairOf_xor a b⟩⟩,
    ⟨_, exec_sub64 rd rs rt s, pairOf_sub a b⟩,
    ⟨_, exec_not64 rd rs s, pairOf_not a⟩,
    ⟨_, exec_rol64 rd rs rt s, pairOf_rotateLeft a c⟩,
    ⟨_, exec_ror64 rd rs rt s, pairOf_rotateRight a c⟩,
    ⟨_, exec_shl64 rd rs rt s, pairOf_shiftLeft a c⟩,
    ⟨_, exec_shr64 rd rs rt s, pairOf_ushiftRight a c⟩⟩

end Sys2Proof.Proofs
end

