-- ==== Sys2Proof/Proofs/ModularInverse.lean ====
section
/-! SUPPORT. The iteration of 42_widearith.md R134 and R135 ends in the inverse. With `i` the square root of the error,
the pair (u, i) keeps `a · u = 1 − i²`. A round squares `i`, and `i` starts at the even number `a − 1`, so `n` rounds leave
an error of `(a − 1)^(2^(n+1))`, which 2^W divides when `W ≤ 2^(n+1)`. -/

namespace Sys2Proof.Proofs

open Sys2Proof Sys2Proof.Machine Sys2Proof.Laws

/-! ### The iteration modulo 2^W -/

/-- The floor modulus keeps the residue (90_conflicts.md C5). -/
theorem floorMod_cast (n : Nat) [NeZero n] (x : Int) : ((floorMod x n : Nat) : ZMod n) = x := by
  have hpos : 0 ≤ x % (n : Int) := Int.emod_nonneg x (Nat.cast_ne_zero.2 (NeZero.ne n))
  rw [floorMod, ← Int.cast_natCast, Int.toNat_of_nonneg hpos, ZMod.intCast_mod]

theorem floorMod_lt (n : Nat) [NeZero n] (x : Int) : floorMod x n < n :=
  (Int.toNat_lt_of_ne_zero (NeZero.ne n)).2 (Int.emod_lt_of_pos x (Nat.cast_pos.2 (NeZero.pos n)))

theorem newtonRounds_lt {W : Nat} (n : Nat) {ui : Nat × Nat} (h : ui.1 < 2 ^ W) : (newtonRounds W n ui).1 < 2 ^ W := by
  induction n generalizing ui with
  | zero => exact h
  | succ n ih => exact ih (Nat.mod_lt _ (Nat.two_pow_pos W))

/-- A round leaves the square of the error (42_widearith.md R134). -/
theorem newtonRound_error {W : Nat} {a : ZMod (2 ^ W)} {ui : Nat × Nat} (h : a * ui.1 = 1 - ui.2 ^ 2) :
    a * (newtonRound W ui).1 = 1 - (newtonRound W ui).2 ^ 2 := by
  simp only [newtonRound, ZMod.natCast_mod, Nat.cast_mul, Nat.cast_add, Nat.cast_one]
  linear_combination ((ui.2 : ZMod (2 ^ W)) ^ 2 + 1) * h

theorem newtonRounds_error {W : Nat} {a : ZMod (2 ^ W)} (n : Nat) {ui : Nat × Nat} (h : a * ui.1 = 1 - ui.2 ^ 2) :
    a * (newtonRounds W n ui).1 = 1 - ui.2 ^ 2 ^ (n + 1) := by
  induction n generalizing ui with
  | zero => exact h
  | succ n ih =>
    have hsquare : ((newtonRound W ui).2 : ZMod (2 ^ W)) = ui.2 ^ 2 := by
      simp only [newtonRound, ZMod.natCast_mod, Nat.cast_mul, pow_two]
    rw [newtonRounds, ih (newtonRound_error h), hsquare, ← pow_mul, ← pow_succ']

/-- An even number to the power `n` is 0 modulo 2^W from `n = W` on. -/
theorem even_pow_eq_zero {W n : Nat} (h : W ≤ n) {x : ZMod (2 ^ W)} (hx : Even x) : x ^ n = 0 := by
  have hmod : (2 : ZMod (2 ^ W)) ^ W = 0 := by exact_mod_cast ZMod.natCast_self (2 ^ W)
  obtain ⟨y, rfl⟩ := even_iff_two_dvd.1 hx
  rw [mul_pow, pow_eq_zero_of_le h hmod, zero_mul]

theorem newtonInverse_lt (W rounds a : Nat) : newtonInverse W rounds a < 2 ^ W :=
  newtonRounds_lt rounds (floorMod_lt _ _)

/-- Each round doubles the number of correct bits, of which the seed has two. -/
theorem mul_newtonInverse {W rounds a : Nat} (hW : W ≤ 2 ^ (rounds + 1)) (ha : Odd a) :
    (a : ZMod (2 ^ W)) * newtonInverse W rounds a = 1 := by
  have heven : Even ((a : ZMod (2 ^ W)) - 1) := ha.natCast.sub_odd odd_one
  have hseed : (a : ZMod (2 ^ W)) * floorMod (2 - (a : Int)) (2 ^ W) =
      1 - (floorMod ((a : Int) - 1) (2 ^ W) : ZMod (2 ^ W)) ^ 2 := by
    rw [floorMod_cast, floorMod_cast]
    push_cast
    ring
  rw [newtonInverse, newtonRounds_error rounds hseed, floorMod_cast]
  push_cast
  rw [even_pow_eq_zero hW heven, sub_zero]

/-! ### The one inverse -/

/-- `u` is the one number below 2^W whose product with `a` is 1 modulo 2^W. -/
def IsInverse (W a u : Nat) : Prop :=
  u < 2 ^ W ∧ a * u % 2 ^ W = 1 ∧ ∀ v, v < 2 ^ W → a * v % 2 ^ W = 1 → v = u

/-- An inverse fits the register that it is written to. -/
theorem IsInverse.toNat_zext64 {W a u : Nat} (h : IsInverse W a u) (hW : W ≤ 64) :
    IsInverse W a (zext64 u).toNat := by
  have hfits : u < 2 ^ 64 := h.1.trans_le (Nat.pow_le_pow_right (by decide) hW)
  rwa [zext64, BitVec.toNat_ofNat, Nat.mod_eq_of_lt hfits]

theorem newtonInverse_isInverse {W rounds a : Nat} (hpos : 0 < W) (hW : W ≤ 2 ^ (rounds + 1)) (ha : Odd a) :
    IsInverse W a (newtonInverse W rounds a) := by
  have hone : 1 % 2 ^ W = 1 := Nat.mod_eq_of_lt (Nat.one_lt_two_pow hpos.ne')
  have hlt := newtonInverse_lt W rounds a
  have hmul : a * newtonInverse W rounds a ≡ 1 [MOD 2 ^ W] := by
    rw [← ZMod.natCast_eq_natCast_iff, Nat.cast_mul, Nat.cast_one, mul_newtonInverse hW ha]
  refine ⟨hlt, Eq.trans hmul hone, fun v hv h => ?_⟩
  have hcoprime : Nat.gcd (2 ^ W) a = 1 := (Nat.coprime_two_left.2 ha).pow_left W
  have hcancel : a * v ≡ a * newtonInverse W rounds a [MOD 2 ^ W] := Nat.ModEq.trans (h.trans hone.symm) hmul.symm
  exact (hcancel.cancel_left_of_coprime hcoprime).eq_of_lt_of_lt hv hlt

/-! ### The commands -/

section Commands
variable {rd rs : WReg} {s : State}

/-- The parity of a register is that of its 32-bit operand. -/
theorem wordOperand_mod_two (i : WReg) (s : State) : wordOperand 32 i s % 2 = (wreg i s).toNat % 2 :=
  Nat.mod_mod_of_dvd _ (by decide)

theorem exec_minv32_odd (h : (wreg rs s).toNat % 2 = 1) :
    exec (.minv32 rd rs) s = .next (afterW rd (zext64 (newtonInverse 32 4 (wordOperand 32 rs s))) s) :=
  if_pos ((wordOperand_mod_two rs s).trans h)

theorem exec_minv64_odd (h : (wreg rs s).toNat % 2 = 1) :
    exec (.minv64 rd rs) s = .next (afterW rd (zext64 (newtonInverse 64 5 (wreg rs s).toNat)) s) :=
  if_pos h

/-- An even operand draws a free value (93_implementation_defined.md U1). -/
theorem exec_minv32_even (h : (wreg rs s).toNat % 2 = 0) : exec (.minv32 rd rs) s =
    .next (afterW rd ((Config.evenInverse32 s.draws (operandBits 32 rs s)).setWidth 64) (draw s)) := by
  have hodd : ¬ wordOperand 32 rs s % 2 = 1 := by rw [wordOperand_mod_two, h]; decide
  have hbits : BitVec.ofNat 32 (wordOperand 32 rs s) = operandBits 32 rs s := by
    rw [wordOperand_eq, BitVec.ofNat_toNat, BitVec.setWidth_eq]
  rw [← hbits, ← complete_setW_zext64]
  exact if_neg hodd

theorem exec_minv64_even (h : (wreg rs s).toNat % 2 = 0) : exec (.minv64 rd rs) s =
    .next (afterW rd (Config.evenInverse64 s.draws (wreg rs s)) (draw s)) := by
  have hodd : ¬ (wreg rs s).toNat % 2 = 1 := by rw [h]; decide
  have hbits : BitVec.ofNat 64 (wreg rs s).toNat = wreg rs s := by rw [BitVec.ofNat_toNat, BitVec.setWidth_eq]
  rw [← complete_setW, ← hbits]
  exact if_neg hodd

end Commands

end Sys2Proof.Proofs
end

