-- ==== Sys2Proof/Proofs/WideArith.lean ====
section
/-! The statements about the WideArith commands (42_widearith.md). -/

namespace Sys2Proof.Proofs

open Sys2Proof Sys2Proof.Machine Sys2Proof.Laws

/-! ### Counts above 16 at 48 bits -/

section Rotates48
variable (rd rs : WReg) {rc : WReg} {s : State} (h : 16 < countBits rc s)
include h

theorem checked_atMost16_fault (op : Except Fault State) :
    checked (atMost16 rc s) s op = .next (afterFault 2 0x0A s) := by
  have hcause : lowestCause (atMost16 rc s) = some .rot48Range := by simp [atMost16, lowestCause, countOperand_eq, h]
  exact (checked_fault hcause).trans (congrArg _ (takeFault_eq_afterFault _ s))

theorem exec_rol48_fault : exec (.rol48 rd rs rc) s = .next (afterFault 2 0x0A s) := by
  change execRol48 rd rs rc s = _
  rw [execRol48, checked_atMost16_fault h]

theorem exec_ror48_fault : exec (.ror48 rd rs rc) s = .next (afterFault 2 0x0A s) := by
  change execRor48 rd rs rc s = _
  rw [execRor48, checked_atMost16_fault h]

end Rotates48

/-! ### Logic over a term list, one bit at a time -/

theorem mem_terms {list : BitVec 16} {i : WReg} : i ∈ terms list ↔ list.getLsbD i = true := by
  simp [terms]

section Bits
variable (ts : List WReg) (s : State) (j : Nat)

/-- Bit `j` of an operation folded over the terms is the operation's own bit folded over their bits. -/
theorem getLsbD_foldl {f : Word → Word → Word} {g : Bool → Bool → Bool}
    (hfg : ∀ x y, (f x y).getLsbD j = g (x.getLsbD j) (y.getLsbD j)) (z : Word) :
    (ts.foldl (fun v i => f v (wreg i s)) z).getLsbD j =
      ts.foldl (fun b i => g b ((wreg i s).getLsbD j)) (z.getLsbD j) :=
  (List.foldl_hom (·.getLsbD j) fun x i => (hfg x (wreg i s)).symm).symm

theorem foldl_and_bits (p : WReg → Bool) (b : Bool) : ts.foldl (fun b i => b && p i) b = (b && ts.all p) := by
  induction ts generalizing b with
  | nil => simp
  | cons i ts ih => rw [List.foldl_cons, ih, List.all_cons, Bool.and_assoc]

theorem foldl_or_bits (p : WReg → Bool) (b : Bool) : ts.foldl (fun b i => b || p i) b = (b || ts.any p) := by
  induction ts generalizing b with
  | nil => simp
  | cons i ts ih => rw [List.foldl_cons, ih, List.any_cons, Bool.or_assoc]

/-- XOR over bits is the parity of their sum. -/
theorem foldl_xor_bits (p : WReg → Bool) (b : Bool) :
    (ts.foldl (fun b i => b ^^ p i) b).toNat = (b.toNat + (ts.map fun i => (p i).toNat).sum) % 2 := by
  induction ts generalizing b with
  | nil => cases b <;> rfl
  | cons i ts ih =>
    have hstep : (b ^^ p i).toNat = (b.toNat + (p i).toNat) % 2 := by cases b <;> cases p i <;> rfl
    rw [List.foldl_cons, ih, hstep, Nat.mod_add_mod, List.map_cons, List.sum_cons, Nat.add_assoc]

end Bits

/-- The listed registers with a property, counted along the list. -/
theorem sum_terms_toNat (list : BitVec 16) (p : WReg → Bool) : ((terms list).map fun i => (p i).toNat).sum =
    (Finset.univ.filter fun i : WReg => list.getLsbD i ∧ p i).card := by
  rw [sum_terms, ← Finset.sum_filter, ← Finset.filter_filter, Finset.card_filter]
  refine Finset.sum_congr rfl fun i _ => ?_
  cases p i <;> rfl

section Logic
variable (rd : WReg) (list : BitVec 16) (s : State) {j : Nat}

theorem exec_and64 : exec (.and64 rd list) s = checked (twoTerms list) s
    (.ok (setW rd ((terms list).foldl (fun v i => v &&& wreg i s) (BitVec.allOnes 64)) s)) := rfl

theorem exec_or64 : exec (.or64 rd list) s = checked (twoTerms list) s
    (.ok (setW rd ((terms list).foldl (fun v i => v ||| wreg i s) 0#64) s)) := rfl

theorem exec_xor64 : exec (.xor64 rd list) s = checked (twoTerms list) s
    (.ok (setW rd ((terms list).foldl (fun v i => v ^^^ wreg i s) 0#64) s)) := rfl

theorem and_terms_bit (hj : j < 64) :
    ((terms list).foldl (fun v i => v &&& wreg i s) (BitVec.allOnes 64)).getLsbD j = true ↔
      ∀ i : WReg, list.getLsbD i → (wreg i s).getLsbD j := by
  rw [getLsbD_foldl _ _ _ (fun _ _ => BitVec.getLsbD_and), foldl_and_bits, BitVec.getLsbD_allOnes, decide_eq_true hj,
    Bool.true_and, List.all_eq_true]
  exact forall_congr' fun i => imp_congr_left mem_terms

theorem or_terms_bit : ((terms list).foldl (fun v i => v ||| wreg i s) 0#64).getLsbD j = true ↔
    ∃ i : WReg, list.getLsbD i ∧ (wreg i s).getLsbD j := by
  rw [getLsbD_foldl _ _ _ (fun _ _ => BitVec.getLsbD_or), foldl_or_bits, BitVec.getLsbD_zero, Bool.false_or,
    List.any_eq_true]
  exact exists_congr fun i => and_congr_left' mem_terms

theorem xor_terms_bit : ((terms list).foldl (fun v i => v ^^^ wreg i s) 0#64).getLsbD j = true ↔
    (Finset.univ.filter fun i : WReg => list.getLsbD i ∧ (wreg i s).getLsbD j).card % 2 = 1 := by
  rw [getLsbD_foldl _ _ _ (fun _ _ => BitVec.getLsbD_xor), ← Bool.toNat_eq_one, foldl_xor_bits, BitVec.getLsbD_zero,
    Bool.toNat_false, Nat.zero_add, sum_terms_toNat]

end Logic

/-! ### The statements -/

/-- Settles O37. The check counts the terms, and the operation sums them. -/
theorem add64Sum : Obligations.Add64Sum := by
  intro rd list s n
  have hn : termCount list = n := termCount_eq_card list
  rw [exec_add64, ← hn]
  exact ⟨fun h => checked_twoTerms h .., fun h => checked_twoTerms_fault h ..⟩

/-- Settles O38. -/
theorem logicOverTerms : Obligations.LogicOverTerms := by
  intro rd list s n
  have hn : termCount list = n := termCount_eq_card list
  rw [exec_and64, exec_or64, exec_xor64, ← hn]
  exact ⟨fun h =>
      ⟨⟨_, checked_twoTerms h .., fun _ hj => and_terms_bit list s hj⟩,
        ⟨_, checked_twoTerms h .., fun _ _ => or_terms_bit list s⟩,
        ⟨_, checked_twoTerms h .., fun _ _ => xor_terms_bit list s⟩⟩,
    fun h => ⟨checked_twoTerms_fault h .., checked_twoTerms_fault h .., checked_twoTerms_fault h ..⟩⟩

/-- Settles O41. -/
theorem wideRotatesAndShifts : Obligations.WideRotatesAndShifts := fun rd rs rc s =>
  ⟨exec_rol64 rd rs rc s, exec_ror64 rd rs rc s, exec_shl64 rd rs rc s, exec_shr64 rd rs rc s⟩

/-- Settles O42: the check splits on the count as it stands, before any reduction. -/
theorem rotates48 : Obligations.Rotates48 := fun rd rs _ _ =>
  ⟨fun h => ⟨exec_rol48 rd rs h, exec_ror48 rd rs h⟩,
    fun h => ⟨exec_rol48_fault rd rs h, exec_ror48_fault rd rs h⟩⟩

/-- Settles O43: four rounds reach 32 bits and five reach 64. -/
theorem modularInverse : Obligations.ModularInverse := by
  intro rd rs s h
  have hodd : Odd (wreg rs s).toNat := Nat.odd_iff.2 h
  have hodd32 : Odd (wordOperand 32 rs s) := Nat.odd_iff.2 ((wordOperand_mod_two rs s).trans h)
  have hinv32 := newtonInverse_isInverse (W := 32) (rounds := 4) (by decide) (by decide) hodd32
  have hinv64 := newtonInverse_isInverse (W := 64) (rounds := 5) (by decide) (by decide) hodd
  obtain ⟨-, hmul64, hunique64⟩ := hinv64.toNat_zext64 (by decide)
  exact ⟨⟨_, exec_minv32_odd h, hinv32.toNat_zext64 (by decide)⟩, ⟨_, exec_minv64_odd h, hmul64, hunique64⟩⟩

/-- Settles O39. -/
theorem wideArithmetic : Obligations.WideArithmetic := fun rd rs rt s =>
  ⟨exec_sub64 rd rs rt s, exec_not64 rd rs s, exec_mul64 rd rs rt s⟩

/-- Settles O44: the draw is counted. -/
theorem modularInverseOfEven : Obligations.ModularInverseOfEven := fun _ _ s h =>
  ⟨⟨_, s.draws + 1, exec_minv32_even h⟩, ⟨_, s.draws + 1, exec_minv64_even h⟩⟩

end Sys2Proof.Proofs
end

section
/-! SUPPORT. What the commands on byte buffers store, said once: `StoredBuffer` with the bytes that the command's
definition computes from the old ones, and those bytes as numbers (43_bytearith.md R150) or one by one. -/

namespace Sys2Proof.Proofs

open Sys2Proof Sys2Proof.Machine Sys2Proof.Laws

/-! ### The canonical form of M -/

theorem Operation.keeps_mem_wf {i : Instr} {s u : State} (h : Operation i s u) (hwf : Memory.wf s.mem) :
    Memory.wf u.mem := by
  cases h with
  | buffer => exact writeBytes_wf _ _ hwf
  | words | descriptor | padcfg | records => exact hwf

theorem exec_keeps_mem_wf {i : Instr} {s t : State} (h : exec i s = .next t) (hwf : Memory.wf s.mem) :
    Memory.wf t.mem := by
  obtain ⟨u, hu, ht⟩ := exec_operation h
  rw [ht]
  exact hu.keeps_mem_wf hwf

/-! ### Commands that store into one buffer -/

section Stored
variable {bd bs : BReg} {s : State} (hwf : Memory.wf s.mem)
include hwf

/-- A command on one buffer (43_bytearith.md R152, R157, R158). -/
theorem updateBuffer_stored {f : List Byte → List Byte} (hf : ∀ x, (f x).length = x.length)
    (hrange : ¬ OutOfRange bd s) :
    ∃ t, checked (rangeCheck bd s) s (updateBuffer bd f s) = .next t ∧
      StoredBuffer bd (f (bufferBytes bd s)) s t := by
  have hin : inRange bd s = true := inRange_iff_not.2 hrange
  have hout : (f (bufferBytes bd s)).length = bufLen bd s := by rw [hf, bufferBytes_length]
  exact ⟨_, checked_pass (rangeCheck_pass.2 hin) (updateBuffer_ok hin hout), storedBuffer_of_write hwf hout⟩

/-- SUBB and MULB: the old bytes and those of one other buffer. -/
theorem updateWith_stored {f : List Byte → List Byte → List Byte} (hf : ∀ x y, (f x y).length = x.length)
    (hno : ∀ c, ¬ BufferCondition bd [bs] s c) :
    ∃ t, checked (bufferChecks bd [bs] s) s (updateWith bd bs f s) = .next t ∧
      StoredBuffer bd (f (bufferBytes bd s) (bufferBytes bs s)) s t := by
  obtain ⟨hin, hsrc⟩ := buffersFit_of_noCondition hno
  obtain ⟨hbs, -, -⟩ := hsrc bs (List.mem_singleton.2 rfl)
  have hout : (f (bufferBytes bd s) (bufferBytes bs s)).length = bufLen bd s := by rw [hf, bufferBytes_length]
  exact ⟨_, checked_noFault (fun _ => mem_bufferChecks) hno (updateWith_ok hin hbs hout),
    storedBuffer_of_write hwf hout⟩

/-- NOTB: the bytes of the other buffer alone. -/
theorem copy_stored {f : List Byte → List Byte} (hf : ∀ y, (f y).length = y.length)
    (hno : ∀ c, ¬ BufferCondition bd [bs] s c) :
    ∃ t, checked (bufferChecks bd [bs] s) s ((bufRead bs s).bind fun y => bufWrite bd (f y) s) = .next t ∧
      StoredBuffer bd (f (bufferBytes bs s)) s t := by
  obtain ⟨hin, hsrc⟩ := buffersFit_of_noCondition hno
  obtain ⟨hbs, hlen, -⟩ := hsrc bs (List.mem_singleton.2 rfl)
  have hout : (f (bufferBytes bs s)).length = bufLen bd s := by rw [hf, bufferBytes_length, hlen]
  have hop : ((bufRead bs s).bind fun y => bufWrite bd (f y) s) =
      .ok (withMem (writeBytes s.mem (bufBase bd s) (f (bufferBytes bs s))) s) := by
    rw [bufRead_ok hbs]
    exact bufWrite_ok hin hout
  exact ⟨_, checked_noFault (fun _ => mem_bufferChecks) hno hop, storedBuffer_of_write hwf hout⟩

/-- ADDB and XORB: the old bytes and those of the listed buffers, all of one length. -/
theorem updateFrom_stored {list : BitVec 16} {f : List Byte → List (List Byte) → List Byte}
    (hf : ∀ x ys, (∀ y ∈ ys, y.length = x.length) → (f x ys).length = x.length)
    (hno : ∀ c, ¬ ((c = .tooFewTerms ∧ termCount list < 1) ∨ BufferCondition bd (terms list) s c)) :
    ∃ t, checked (oneTerm list ++ bufferChecks bd (terms list) s) s (updateFrom bd (terms list) f s) = .next t ∧
      StoredBuffer bd (f (bufferBytes bd s) ((terms list).map (bufferBytes · s))) s t := by
  obtain ⟨hin, hsrc⟩ := buffersFit_of_noCondition fun c hc => hno c (.inr hc)
  have hout : (f (bufferBytes bd s) ((terms list).map (bufferBytes · s))).length = bufLen bd s := by
    rw [hf, bufferBytes_length]
    refine List.forall_mem_map.2 fun i hi => ?_
    obtain ⟨-, hlen, -⟩ := hsrc i hi
    rw [bufferBytes_length, bufferBytes_length, hlen]
  have hop := updateFrom_ok hin (fun i hi => (hsrc i hi).1) hout
  exact ⟨_, checked_noFault (fun _ => mem_oneTerm_bufferChecks) hno hop, storedBuffer_of_write hwf hout⟩

end Stored

/-! ### The state after a store -/

section StoredState
variable {bd : BReg} {s t : State}

theorem wroteOnly_bufBase (h : WroteOnly bd s t) (i : BReg) : bufBase i t = bufBase i s := by rw [h.2]; rfl

theorem wroteOnly_bufLen (h : WroteOnly bd s t) (i : BReg) : bufLen i t = bufLen i s := by rw [h.2]; rfl

theorem wroteOnly_countBits (h : WroteOnly bd s t) (rc : WReg) : countBits rc t = countBits rc s := by rw [h.2]; rfl

theorem wroteOnly_outOfRange (h : WroteOnly bd s t) (i : BReg) : OutOfRange i t ↔ OutOfRange i s := by rw [h.2]; rfl

theorem bufferBytes_getElem (i : BReg) (s : State) {j : Nat} (hj : j < (bufferBytes i s).length) :
    (bufferBytes i s)[j] = readByte s.mem (bufBase i s + j) :=
  readBytes_getElem _ _ _ _ (bufferBytes_length i s ▸ hj)

theorem storedBuffer_length {out : List Byte} (h : StoredBuffer bd out s t) : out.length = bufLen bd s := by
  obtain ⟨rfl, hwrote⟩ := h
  rw [bufferBytes_length, wroteOnly_bufLen hwrote]

/-- The bytes of M that a store leaves in the buffer. -/
theorem storedBuffer_readByte {out : List Byte} (h : StoredBuffer bd out s t) {j : Nat} (hj : j < bufLen bd s) :
    readByte t.mem (bufBase bd s + j) = out[j]'(by rwa [storedBuffer_length h]) := by
  obtain ⟨rfl, hwrote⟩ := h
  rw [bufferBytes_getElem, wroteOnly_bufBase hwrote]

/-- A store of the bytes that the buffer once had, with nothing written outside the buffer since, gives all of M
back. -/
theorem readByte_of_restored {u : State} (hst : WroteOnly bd s t) (htu : StoredBuffer bd (bufferBytes bd s) t u)
    (a : Nat) : readByte u.mem a = readByte s.mem a := by
  by_cases ha : InBuffer bd a s
  · obtain ⟨hle, hlt⟩ := ha
    obtain ⟨j, rfl⟩ := Nat.exists_eq_add_of_le hle
    have hj : j < bufLen bd t := by rw [wroteOnly_bufLen hst]; omega
    rw [← wroteOnly_bufBase hst, storedBuffer_readByte htu hj, bufferBytes_getElem, wroteOnly_bufBase hst]
  · have ha' : ¬ InBuffer bd a t := by rwa [InBuffer, wroteOnly_bufBase hst, wroteOnly_bufLen hst]
    rw [htu.2.1 a ha', hst.1 a ha]

end StoredState

/-! ### Results as integers of the buffer's own length -/

theorem beInt_wrapBytes (v : Nat) (x : List Byte) : beInt (wrapBytes v x) = v % 2 ^ (8 * x.length) := by
  rw [wrapBytes, beInt_beBytes, ← two_pow_bytes, Nat.mod_mod]

/-- The sum of the listed buffers (43_bytearith.md R151). -/
theorem sum_terms_beInt (list : BitVec 16) (s : State) : (((terms list).map (bufferBytes · s)).map beInt).sum =
    ∑ i : BReg, if list.getLsbD i then bufferValue i s else 0 := by
  have hvalue : beInt ∘ (bufferBytes · s) = (bufferValue · s) := funext fun i => (bufferValue_eq i s).symm
  rw [List.map_map, hvalue, sum_terms]

theorem floorMod_eq_emod (x : Int) {n : Nat} (hn : 0 < n) : (floorMod x n : Int) = x % n :=
  Int.toNat_of_nonneg (Int.emod_nonneg x (by omega))

/-- The integer in the buffer after a store of a wrapped result. -/
theorem storedBuffer_wrapBytes_value {bd : BReg} {s t : State} {v : Nat}
    (h : StoredBuffer bd (wrapBytes v (bufferBytes bd s)) s t) :
    WroteOnly bd s t ∧ bufferValue bd t = v % 2 ^ (8 * bufLen bd s) := by
  obtain ⟨hvalue, hwrote⟩ := storedBuffer_value h
  exact ⟨hwrote, by rw [hvalue, beInt_wrapBytes, bufferBytes_length]⟩

/-! ### XOR of byte lists -/

/-- Byte `j` of buffers XORed into a list of their length is the XOR of their bytes `j`. -/
theorem getElem_foldl_xor_buffers {ts : List BReg} {s : State} {x : List Byte}
    (hts : ∀ i ∈ ts, bufLen i s = x.length) {j : Nat} (hj : j < x.length)
    (hlen : j < ((ts.map (bufferBytes · s)).foldl (List.zipWith (· ^^^ ·)) x).length) :
    ((ts.map (bufferBytes · s)).foldl (List.zipWith (· ^^^ ·)) x)[j] =
      ts.foldl (fun v i => v ^^^ readByte s.mem (bufBase i s + j)) x[j] := by
  induction ts generalizing x with
  | nil => rfl
  | cons i ts ih =>
    obtain ⟨hi, hts⟩ := List.forall_mem_cons.1 hts
    have hx : (List.zipWith (· ^^^ ·) x (bufferBytes i s)).length = x.length := by simp [hi]
    simp only [List.map_cons, List.foldl_cons]
    rw [ih (fun k hk => (hts k hk).trans hx.symm) (hx ▸ hj), List.getElem_zipWith, bufferBytes_getElem]

/-- A bit of bytes XORed over the terms is set when an odd number of them have it. -/
theorem xor_bytes_bit (list : BitVec 16) (b : BReg → Byte) (v : Byte) (k : Nat) :
    ((terms list).foldl (fun v i => v ^^^ b i) v).getLsbD k = true ↔
      ((Finset.univ.filter fun i : BReg => list.getLsbD i ∧ (b i).getLsbD k).card +
        (if v.getLsbD k then 1 else 0)) % 2 = 1 := by
  have hbits : ((terms list).foldl (fun v i => v ^^^ b i) v).getLsbD k =
      (terms list).foldl (fun c i => c ^^ (b i).getLsbD k) (v.getLsbD k) :=
    (List.foldl_hom (fun c : Byte => c.getLsbD k) fun _ _ => BitVec.getLsbD_xor.symm).symm
  rw [hbits, ← Bool.toNat_eq_one, foldl_xor_bits, sum_terms_toNat, Nat.add_comm, Bool.toNat, Bool.cond_eq_ite]

/-! ### Rotates of a byte list -/

theorem beInt_injective {x y : List Byte} (hlen : x.length = y.length) (h : beInt x = beInt y) : x = y := by
  rw [← beBytes_beInt x, h, hlen, beBytes_beInt]

theorem beInt_append (x y : List Byte) : beInt (x ++ y) = beInt x * 256 ^ y.length + beInt y := by
  rw [beInt, List.reverse_append, leInt_append, List.length_reverse, Nat.add_comm, Nat.mul_comm]
  rfl

section Rotate
variable {rot : Nat → Nat → Nat → Nat} {f : ∀ W, BitVec W → Nat → BitVec W}
  (hrot : ∀ W (v : BitVec W) c, rot W v.toNat (c % W) = (f W v c).toNat)
include hrot

/-- When `rot` computes the rotate `f` of bit vectors, rotating bytes is `f` on the field of all their bits. -/
theorem beInt_rotateBytes (c : Nat) {x : List Byte} {n : Nat} (hx : x.length = n) :
    beInt (rotateBytes rot c x) = (f (8 * n) (BitVec.ofNat (8 * n) (beInt x)) c).toNat := by
  subst hx
  have hfield : (BitVec.ofNat (8 * x.length) (beInt x)).toNat = beInt x := by
    rw [BitVec.toNat_ofNat, two_pow_bytes, Nat.mod_eq_of_lt (beInt_lt x)]
  have hlt := (f _ (BitVec.ofNat (8 * x.length) (beInt x)) c).isLt
  rw [← hrot, hfield] at hlt ⊢
  unfold rotateBytes
  split
  next hx =>
    obtain rfl : x = [] := List.length_eq_zero_iff.1 hx
    exact (Nat.lt_one_iff.1 hlt).symm
  next => rw [beInt_beBytes, ← two_pow_bytes, Nat.mod_eq_of_lt hlt]

/-- A rotate that undoes another one on bit vectors undoes it on bytes. -/
theorem rotateBytes_rotateBytes {rot' : Nat → Nat → Nat → Nat} {g : ∀ W, BitVec W → Nat → BitVec W}
    (hrot' : ∀ W (v : BitVec W) c, rot' W v.toNat (c % W) = (g W v c).toNat)
    (hgf : ∀ W (v : BitVec W) c, g W (f W v c) c = v) (c : Nat) (x : List Byte) :
    rotateBytes rot' c (rotateBytes rot c x) = x := by
  refine beInt_injective (by simp) ?_
  rw [beInt_rotateBytes hrot' c (rotateBytes_length rot c x), beInt_rotateBytes hrot c rfl, BitVec.ofNat_toNat,
    BitVec.setWidth_eq, hgf, BitVec.toNat_ofNat, two_pow_bytes, Nat.mod_eq_of_lt (beInt_lt x)]

end Rotate

theorem rotateBytes_rotr_rotl (c : Nat) (x : List Byte) : rotateBytes rotr c (rotateBytes rotl c x) = x :=
  rotateBytes_rotateBytes rotl_eq rotr_eq (fun _ => rotateRight_rotateLeft) c x

theorem rotateBytes_rotl_rotr (c : Nat) (x : List Byte) : rotateBytes rotl c (rotateBytes rotr c x) = x :=
  rotateBytes_rotateBytes rotr_eq rotl_eq (fun _ => rotateLeft_rotateRight) c x

/-- Rotating left by the bits of the first bytes moves these bytes to the end. -/
theorem rotl_beInt_append (x y : List Byte) :
    rotl (8 * (x.length + y.length)) (beInt (x ++ y)) (8 * x.length) = beInt (y ++ x) := by
  have hx := beInt_lt x
  have hy := beInt_lt y
  unfold rotl
  split
  next h =>
    obtain rfl : x = [] := List.length_eq_zero_iff.1 (by omega)
    simp
  next =>
    have hkept : (beInt x * 256 ^ y.length + beInt y) * 256 ^ x.length =
        256 ^ (x.length + y.length) * beInt x + beInt y * 256 ^ x.length := by ring
    have hlow : beInt y * 256 ^ x.length < 256 ^ (x.length + y.length) := by
      rw [Nat.add_comm, pow_add]
      exact Nat.mul_lt_mul_of_pos_right hy (by positivity)
    have hhigh : (beInt x * 256 ^ y.length + beInt y) / 256 ^ y.length = beInt x := by
      rw [Nat.mul_comm, Nat.mul_add_div (by positivity), Nat.div_eq_of_lt hy, Nat.add_zero]
    rw [← Nat.mul_sub, Nat.add_sub_cancel_left, two_pow_bytes, two_pow_bytes, two_pow_bytes, beInt_append,
      beInt_append, hhigh, hkept, Nat.mul_add_mod, Nat.mod_eq_of_lt hlow]

/-- Rotating left by whole bytes is rotating the list (43_bytearith.md R159). -/
theorem rotateBytes_rotl_whole (k : Nat) (x : List Byte) : rotateBytes rotl (8 * k) x = x.rotate k := by
  unfold rotateBytes
  split
  next hx => rw [List.length_eq_zero_iff.1 hx, List.rotate_nil]
  next hx =>
    have hk : k % x.length ≤ x.length := (Nat.mod_lt _ (by omega)).le
    have hsplit := rotl_beInt_append (x.take (k % x.length)) (x.drop (k % x.length))
    rw [← List.length_append, List.take_append_drop, List.length_take_of_le hk] at hsplit
    rw [Nat.mul_mod_mul_left, hsplit, ← List.rotate_eq_drop_append_take_mod]
    conv_lhs => rw [← List.length_rotate x k, beBytes_beInt]

end Sys2Proof.Proofs
end

section
/-! The statements about the ByteArith commands (43_bytearith.md). Each command is a store of the bytes that it computes,
and the statement reads them as an integer or byte by byte. -/

namespace Sys2Proof.Proofs

open Sys2Proof Sys2Proof.Machine Sys2Proof.Laws

/-! ### The two rotates -/

section Rotates
variable {bd : BReg} {s : State} (rc : WReg) (hwf : Memory.wf s.mem) (hrange : ¬ OutOfRange bd s)
include hwf hrange

theorem exec_rolb_stored : ∃ t, exec (.rolb bd rc) s = .next t ∧
    StoredBuffer bd (rotateBytes rotl (countBits rc s) (bufferBytes bd s)) s t :=
  updateBuffer_stored hwf (rotateBytes_length _ _) hrange

theorem exec_rorb_stored : ∃ t, exec (.rorb bd rc) s = .next t ∧
    StoredBuffer bd (rotateBytes rotr (countBits rc s) (bufferBytes bd s)) s t :=
  updateBuffer_stored hwf (rotateBytes_length _ _) hrange

end Rotates

/-- Two buffers of which one has the bytes of the other, rotated left by `k` places. -/
theorem readByte_of_bytes_rotate {bd : BReg} {s t : State} {k : Nat}
    (h : bufferBytes bd t = (bufferBytes bd s).rotate k) {j : Nat} (hj : j < bufLen bd t) :
    readByte t.mem (bufBase bd t + j) = readByte s.mem (bufBase bd s + (j + k) % bufLen bd s) := by
  have hbyte := List.getElem_of_eq h (i := j) (by rwa [bufferBytes_length])
  rwa [bufferBytes_getElem, List.getElem_rotate, bufferBytes_getElem, bufferBytes_length] at hbyte

/-! ### The statements -/

/-- Settles O45. All four commands store a result reduced to the length of the buffer. -/
theorem bufferArithmetic : Obligations.BufferArithmetic := by
  intro bd s hwf
  refine ⟨fun list hno => ?addb, fun rs hno => ?addbs, fun bs hno => ?subb, fun bs hno => ?mulb⟩
  case addb =>
    obtain ⟨t, hexec, hstored⟩ := updateFrom_stored hwf (fun _ _ _ => wrapBytes_length ..) hno
    rw [bufferValue_eq bd s, ← sum_terms_beInt]
    exact ⟨t, hexec, storedBuffer_wrapBytes_value hstored⟩
  case addbs =>
    have hrange : ¬ OutOfRange bd s := fun h => hno _ ⟨rfl, h⟩
    obtain ⟨t, hexec, hstored⟩ := updateBuffer_stored hwf (fun _ => wrapBytes_length ..) hrange
    rw [bufferValue_eq bd s]
    exact ⟨t, hexec, storedBuffer_wrapBytes_value hstored⟩
  case subb =>
    obtain ⟨t, hexec, hstored⟩ := updateWith_stored hwf (fun _ _ => wrapBytes_length ..) hno
    obtain ⟨hwrote, hvalue⟩ := storedBuffer_wrapBytes_value hstored
    refine ⟨t, hexec, hwrote, ?_⟩
    rw [hvalue, bufferBytes_length, Int.natCast_mod, floorMod_eq_emod _ (by positivity), Int.emod_emod,
      ← bufferValue_eq, ← bufferValue_eq]
  case mulb =>
    obtain ⟨t, hexec, hstored⟩ := updateWith_stored hwf (fun _ _ => wrapBytes_length ..) hno
    rw [bufferValue_eq bd s, bufferValue_eq bs s]
    exact ⟨t, hexec, storedBuffer_wrapBytes_value hstored⟩

/-- Settles O46. A byte subtracted from 255 is its complement, and XOR over the terms is the parity of their bits. -/
theorem bufferLogic : Obligations.BufferLogic := by
  intro bd s hwf
  refine ⟨fun bs hno => ?notb, fun list hno => ?xorb⟩
  case notb =>
    obtain ⟨t, hexec, hstored⟩ := copy_stored hwf (fun _ => List.length_map ..) hno
    refine ⟨t, hexec, hstored.2, fun j hj => ?_⟩
    rw [storedBuffer_readByte hstored hj, List.getElem_map, bufferBytes_getElem]
    exact BitVec.allOnes_sub_eq_not _
  case xorb =>
    obtain ⟨-, hsrc⟩ := buffersFit_of_noCondition fun c hc => hno c (.inr hc)
    obtain ⟨t, hexec, hstored⟩ := updateFrom_stored hwf (fun _ _ => foldl_xor_length) hno
    refine ⟨t, hexec, hstored.2, fun j hj k _ => ?_⟩
    have hlen : ∀ i ∈ terms list, bufLen i s = (bufferBytes bd s).length := fun i hi => by
      obtain ⟨-, hlen, -⟩ := hsrc i hi
      rw [hlen, bufferBytes_length]
    rw [storedBuffer_readByte hstored hj, getElem_foldl_xor_buffers hlen (by rwa [bufferBytes_length]), xor_bytes_bit,
      bufferBytes_getElem]

/-- Settles O47: `rotl` and `rotr` are the rotates of bit vectors. -/
theorem bufferRotates : Obligations.BufferRotates := by
  intro bd rc s hwf
  refine ⟨fun hno => ?rolb, fun hno => ?rorb⟩
  case rolb =>
    obtain ⟨t, hexec, hstored⟩ := exec_rolb_stored rc hwf fun h => hno _ ⟨rfl, h⟩
    rw [bufferValue_eq bd s, ← beInt_rotateBytes rotl_eq _ (bufferBytes_length bd s)]
    exact ⟨t, hexec, (storedBuffer_value hstored).symm⟩
  case rorb =>
    obtain ⟨t, hexec, hstored⟩ := exec_rorb_stored rc hwf fun h => hno _ ⟨rfl, h⟩
    rw [bufferValue_eq bd s, ← beInt_rotateBytes rotr_eq _ (bufferBytes_length bd s)]
    exact ⟨t, hexec, (storedBuffer_value hstored).symm⟩

/-- Settles O48. ROLB rotates the list of bytes, and RORB is what ROLB by the same count takes back. -/
theorem wholeByteRotates : Obligations.WholeByteRotates := by
  intro bd rc s k hwf hrange hcount
  constructor
  · obtain ⟨t, hexec, hbytes, hwrote⟩ := exec_rolb_stored rc hwf hrange
    have hrot : bufferBytes bd t = (bufferBytes bd s).rotate k := by rw [hbytes, hcount, rotateBytes_rotl_whole]
    refine ⟨t, hexec, fun j hj => ?_⟩
    rw [← wroteOnly_bufLen hwrote] at hj
    rw [← wroteOnly_bufBase hwrote, readByte_of_bytes_rotate hrot hj, wroteOnly_bufBase hwrote]
  · obtain ⟨t, hexec, hbytes, hwrote⟩ := exec_rorb_stored rc hwf hrange
    have hrot : bufferBytes bd s = (bufferBytes bd t).rotate k := by
      rw [hbytes, hcount, ← rotateBytes_rotl_whole, rotateBytes_rotl_rotr]
    refine ⟨t, hexec, fun j hj => ?_⟩
    rw [readByte_of_bytes_rotate hrot hj, wroteOnly_bufBase hwrote, wroteOnly_bufLen hwrote]

/-- Settles O49: RORB stores the bytes that the buffer had before ROLB. -/
theorem bufferRotateRoundTrip : Obligations.BufferRotateRoundTrip := by
  intro bd rc s hwf hrange
  obtain ⟨t, hrolb, hbytes, hwrote⟩ := exec_rolb_stored rc hwf hrange
  have hrange' : ¬ OutOfRange bd t := mt (wroteOnly_outOfRange hwrote bd).1 hrange
  obtain ⟨u, hrorb, hstored⟩ := exec_rorb_stored rc (exec_keeps_mem_wf hrolb hwf) hrange'
  rw [hbytes, wroteOnly_countBits hwrote, rotateBytes_rotr_rotl] at hstored
  exact ⟨t, u, hrolb, hrorb, readByte_of_restored hwrote hstored⟩

end Sys2Proof.Proofs
end

section
/-! SUPPORT. What the commands of 44_codec.md read and store, said once: a buffer as a list of groups, the two byte
orders as one notion, and for each of the three common functions `unpack`, `pack` and `regroup` the state it leaves. -/

namespace Sys2Proof.Proofs

open Sys2Proof Sys2Proof.Machine Sys2Proof.Laws

/-! ### Groups of a byte list -/

theorem group_end_le {len ws k : Nat} (hk : k < len / ws) : k * ws + ws ≤ len :=
  calc k * ws + ws = (k + 1) * ws := (Nat.succ_mul k ws).symm
    _ ≤ len / ws * ws := Nat.mul_le_mul_right ws hk
    _ ≤ len := Nat.div_mul_le_self len ws

theorem group_length {ws k : Nat} {x : List Byte} (hk : k < x.length / ws) : (group ws k x).length = ws := by
  have := group_end_le hk
  simp only [group, List.length_take, List.length_drop]
  omega

theorem getElem_group {ws k j : Nat} {x : List Byte} (hj : j < (group ws k x).length) :
    (group ws k x)[j] = x[k * ws + j]'(by rw [group, List.length_take, List.length_drop] at hj; omega) := by
  simp [group]

/-- The first groups, one after the other, are the first bytes. -/
theorem flatMap_group (ws n : Nat) (x : List Byte) :
    ((List.range n).flatMap fun k => group ws k x) = x.take (n * ws) := by
  induction n with
  | zero => simp
  | succ n ih =>
    rw [List.range_succ, List.flatMap_append, ih, List.flatMap_singleton, Nat.succ_mul, List.take_add, group]

/-- A list whose length is a multiple of the word size is its groups, one after the other. -/
theorem flatMap_group_of_mod_eq_zero {ws : Nat} {x : List Byte} (h : x.length % ws = 0) :
    ((List.range (x.length / ws)).flatMap fun k => group ws k x) = x := by
  rw [flatMap_group, Nat.div_mul_cancel (Nat.dvd_of_mod_eq_zero h), List.take_length]

/-- Group `k` of pieces of one length is piece `k`. -/
theorem group_flatMap {ws n k : Nat} {f : Nat → List Byte} (hf : ∀ i < n, (f i).length = ws) (hk : k < n) :
    group ws k ((List.range n).flatMap f) = f k := by
  induction n with
  | zero => omega
  | succ n ih =>
    have hf' : ∀ i < n, (f i).length = ws := fun i hi => hf i (by omega)
    have hlen : ((List.range n).flatMap f).length = n * ws := by
      rw [List.length_flatMap, List.map_congr_left fun i hi => hf' i (List.mem_range.1 hi)]
      simp
    rw [List.range_succ, List.flatMap_append, List.flatMap_singleton, group]
    rcases Nat.lt_succ_iff_lt_or_eq.1 hk with hk | rfl
    · have hfit : k * ws + ws ≤ n * ws := by
        rw [← Nat.succ_mul]
        exact Nat.mul_le_mul_right ws hk
      rw [List.drop_append_of_le_length (by omega), List.take_append_of_le_length (by rw [List.length_drop]; omega)]
      exact ih hf' hk
    · rw [← hlen, List.drop_left, List.take_of_length_le (hf k hk).le]

/-- Group `k` of a buffer is `ws` bytes of M. -/
theorem group_bufferBytes {ws k : Nat} {i : BReg} {s : State} (hk : k < bufLen i s / ws) :
    group ws k (bufferBytes i s) = readBytes s.mem (bufBase i s + k * ws) ws := by
  have hlen : (group ws k (bufferBytes i s)).length = ws := group_length (by rwa [bufferBytes_length])
  refine List.ext_getElem (by rw [hlen, readBytes_length]) fun j hj _ => ?_
  rw [getElem_group, bufferBytes_getElem, readBytes_getElem _ _ _ _ (hlen ▸ hj), Nat.add_assoc]

/-! ### Reversed groups (44_codec.md R184) -/

theorem group_reverseGroups {ws g : Nat} {x : List Byte} (hg : g < x.length / ws) :
    group ws g (reverseGroups ws x) = (group ws g x).reverse :=
  group_flatMap (fun _ hi => (List.length_reverse ..).trans (group_length hi)) hg

theorem reverseGroups_reverseGroups {ws : Nat} {x : List Byte} (h : x.length % ws = 0) :
    reverseGroups ws (reverseGroups ws x) = x := by
  have hgroup : ∀ g ∈ List.range (x.length / ws), (group ws g (reverseGroups ws x)).reverse = group ws g x :=
    fun g hg => by rw [group_reverseGroups (List.mem_range.1 hg), List.reverse_reverse]
  rw [reverseGroups, reverseGroups_length h, List.flatMap_congr hgroup, flatMap_group_of_mod_eq_zero h]

/-- Byte `j` of a reversed group. -/
theorem getElem_reverseGroups {ws g j : Nat} {x : List Byte} (hg : g < x.length / ws) (hj : j < ws)
    (h : g * ws + j < (reverseGroups ws x).length) :
    (reverseGroups ws x)[g * ws + j] = x[g * ws + (ws - 1 - j)]'(by have := group_end_le hg; omega) := by
  have hlen : (group ws g (reverseGroups ws x)).length = ws := by
    rw [group_reverseGroups hg, List.length_reverse, group_length hg]
  have hbyte := List.getElem_of_eq (group_reverseGroups hg) (hlen.symm ▸ hj)
  rw [getElem_group, List.getElem_reverse, getElem_group] at hbyte
  simpa only [group_length hg] using hbyte

/-! ### Byte orders -/

/-- `toInt` and `toBytes` convert between bytes and integers in one byte order, and `value` is the number that bytes of
M spell in it (00_scope.md R9). -/
structure ByteOrder (toInt : List Byte → Nat) (toBytes : Nat → Nat → List Byte)
    (value : Memory → Nat → Nat → Nat) : Prop where
  toInt_readBytes : ∀ m a n, toInt (readBytes m a n) = value m a n
  toInt_toBytes : ∀ v n, toInt (toBytes v n) = v % 256 ^ n
  toBytes_toInt : ∀ l, toBytes (toInt l) l.length = l
  toInt_lt : ∀ l, toInt l < 256 ^ l.length
  toBytes_length : ∀ v n, (toBytes v n).length = n

theorem bigEndian : ByteOrder beInt beBytes beValue :=
  ⟨beInt_readBytes, beInt_beBytes, beBytes_beInt, beInt_lt, beBytes_length⟩

theorem littleEndian : ByteOrder leInt leBytes leValue :=
  ⟨leInt_readBytes, leInt_leBytes, leBytes_leInt, leInt_lt, leBytes_length⟩

theorem wordAt_val (r : WReg) (s : State) : wordAt r.val s = (wreg r s).toNat := dif_pos r.isLt

/-! ### The state after a store or an unpack -/

/-- A store of the bytes that the buffer already has changes no byte of M. -/
theorem readByte_of_stored_own {bd : BReg} {s t : State} (h : StoredBuffer bd (bufferBytes bd s) s t) (a : Nat) :
    readByte t.mem a = readByte s.mem a := by
  by_cases ha : InBuffer bd a s
  · obtain ⟨hle, hlt⟩ := ha
    obtain ⟨j, rfl⟩ := Nat.exists_eq_add_of_le hle
    rw [storedBuffer_readByte h (by omega), bufferBytes_getElem]
  · exact h.2.1 a ha

section UnpackedState
variable {value : Memory → Nat → Nat → Nat} {ws : Nat} {r : WReg} {i : BReg} {s t : State}
  (h : Unpacked value ws r i s t)
include h

theorem unpacked_mem : t.mem = s.mem := by rw [h.1]

theorem unpacked_bufLen (j : BReg) : bufLen j t = bufLen j s := by rw [h.1]; rfl

theorem unpacked_bufferBytes (j : BReg) : bufferBytes j t = bufferBytes j s := by rw [h.1]; rfl

theorem unpacked_codecCondition (j : BReg) (q : WReg) (c : Cause) :
    CodecCondition ws j q t c ↔ CodecCondition ws j q s c := by rw [h.1]; rfl

end UnpackedState

section Order
variable {toInt : List Byte → Nat} {toBytes : Nat → Nat → List Byte} {value : Memory → Nat → Nat → Nat}
  (ho : ByteOrder toInt toBytes value) {ws : Nat} {i : BReg} {r : WReg} {s t : State}
include ho

theorem ByteOrder.value_lt (m : Memory) (a n : Nat) : value m a n < 256 ^ n := by
  rw [← ho.toInt_readBytes]
  simpa using ho.toInt_lt (readBytes m a n)

theorem ByteOrder.toBytes_value (m : Memory) (a n : Nat) : toBytes (value m a n) n = readBytes m a n := by
  rw [← ho.toInt_readBytes]
  simpa using ho.toBytes_toInt (readBytes m a n)

/-- Word `k` of a buffer is the number its bytes spell. -/
theorem ByteOrder.toInt_group {k : Nat} (hk : k < bufLen i s / ws) :
    toInt (group ws k (bufferBytes i s)) = value s.mem (bufBase i s + k * ws) ws := by
  rw [group_bufferBytes hk, ho.toInt_readBytes]

/-! ### Unpacking (44_codec.md R170, R171) -/

theorem unpack_unpacked (hno : ∀ c, ¬ CodecCondition ws i r s c) :
    ∃ t, unpack toInt ws r i s = .next t ∧ Unpacked value ws r i s t := by
  obtain ⟨hin, -, -⟩ := codecFits_of_noCondition hno
  have hop : (bufRead i s).map (fun x => setRun r.val (wordsOf toInt ws x) s) =
      .ok (setRun r.val (wordsOf toInt ws (bufferBytes i s)) s) := by rw [bufRead_ok hin]; rfl
  refine ⟨_, checked_noFault (fun _ => mem_codecChecks) hno hop, ?_, fun q => ?_⟩
  · rw [setRun_eq]
    rfl
  · have hlen : (wordsOf toInt ws (bufferBytes i s)).length = bufLen i s / ws := by simp [wordsOf]
    simp only [wreg_advance, wreg_setRun, hlen]
    split
    next hq =>
      have hk : q.val - r.val < bufLen i s / ws := by omega
      simp only [wordsOf, List.getElem_map, List.getElem_range, ho.toInt_group hk, zext64]
    next => rfl

/-! ### Packing (44_codec.md R177) -/

theorem pack_stored (hwf : Memory.wf s.mem) (hno : ∀ c, ¬ CodecCondition ws i r s c) :
    ∃ t, pack toBytes ws i r s = .next t ∧
      StoredBuffer i (packedBytes toBytes ws r.val (bufLen i s / ws) s) s t := by
  obtain ⟨hin, hmod, -⟩ := codecFits_of_noCondition hno
  have hout : (packedBytes toBytes ws r.val (bufLen i s / ws) s).length = bufLen i s := by
    rw [packedBytes_length ho.toBytes_length, Nat.div_mul_cancel (Nat.dvd_of_mod_eq_zero hmod)]
  exact ⟨_, checked_noFault (fun _ => mem_codecChecks) hno (bufWrite_ok hin hout), storedBuffer_of_write hwf hout⟩

/-- Packed bytes in the buffer are the words of the registers. -/
theorem packed_of_stored (h : StoredBuffer i (packedBytes toBytes ws r.val (bufLen i s / ws) s) s t) :
    Packed value ws i r s t := by
  obtain ⟨hbytes, hwrote⟩ := h
  refine ⟨hwrote, fun q hle hlt => ?_⟩
  have hk : q.val - r.val < bufLen i s / ws := by omega
  have hgroup := congrArg (group ws (q.val - r.val)) hbytes
  rw [packedBytes, group_flatMap (fun _ _ => ho.toBytes_length ..) hk, Nat.add_sub_cancel' hle, wordAt_val,
    group_bufferBytes (by rwa [wroteOnly_bufLen hwrote]), wroteOnly_bufBase hwrote] at hgroup
  rw [← ho.toInt_readBytes, hgroup, ho.toInt_toBytes, two_pow_bytes, Nat.mod_mod]

theorem pack_packed (hwf : Memory.wf s.mem) (hno : ∀ c, ¬ CodecCondition ws i r s c) :
    ∃ t, pack toBytes ws i r s = .next t ∧ Packed value ws i r s t := by
  obtain ⟨t, hexec, hstored⟩ := pack_stored ho hwf hno
  exact ⟨t, hexec, packed_of_stored ho hstored⟩

/-! ### Unpacking, then packing -/

/-- The registers of an unpack hold words of `ws` bytes, so packing them gives the bytes of the buffer. -/
theorem packedBytes_of_unpacked (h : Unpacked value ws r i s t) (hws : ws ≤ 8) (hfit : CodecFits ws i r s) :
    packedBytes toBytes ws r.val (bufLen i s / ws) t = bufferBytes i s := by
  obtain ⟨-, hreg⟩ := h
  obtain ⟨-, hmod, hrun⟩ := hfit
  have hpiece : ∀ k ∈ List.range (bufLen i s / ws),
      toBytes (wordAt (r.val + k) t % 2 ^ (8 * ws)) ws = group ws k (bufferBytes i s) := fun k hk => by
    rw [List.mem_range] at hk
    have hword := hreg ⟨r.val + k, by omega⟩
    rw [if_pos ⟨Nat.le_add_right .., Nat.add_lt_add_left hk _⟩, Nat.add_sub_cancel_left] at hword
    have hlt := ho.value_lt s.mem (bufBase i s + k * ws) ws
    have h64 : 256 ^ ws ≤ 2 ^ 64 := (Nat.pow_le_pow_right (by decide) hws).trans (by decide)
    rw [wordAt_val ⟨r.val + k, by omega⟩, hword, BitVec.toNat_ofNat, Nat.mod_eq_of_lt (hlt.trans_le h64),
      two_pow_bytes, Nat.mod_eq_of_lt hlt, ho.toBytes_value, group_bufferBytes hk]
  have hall : _ = bufferBytes i s := flatMap_group_of_mod_eq_zero (by rwa [bufferBytes_length])
  rw [bufferBytes_length] at hall
  rw [packedBytes, List.flatMap_congr hpiece, hall]

theorem unpack_pack (hws : ws ≤ 8) (hwf : Memory.wf s.mem) (hno : ∀ c, ¬ CodecCondition ws i r s c) :
    ∃ t u, unpack toInt ws r i s = .next t ∧ pack toBytes ws i r t = .next u ∧
      ∀ a, readByte u.mem a = readByte s.mem a := by
  obtain ⟨t, hunpack, hun⟩ := unpack_unpacked ho hno
  have hwf' : Memory.wf t.mem := unpacked_mem hun ▸ hwf
  have hno' : ∀ c, ¬ CodecCondition ws i r t c := fun c hc => hno c ((unpacked_codecCondition hun i r c).1 hc)
  obtain ⟨u, hpack, hstored⟩ := pack_stored ho hwf' hno'
  rw [unpacked_bufLen hun, packedBytes_of_unpacked ho hun hws (codecFits_of_noCondition hno),
    ← unpacked_bufferBytes hun] at hstored
  exact ⟨t, u, hunpack, hpack, fun a => unpacked_mem hun ▸ readByte_of_stored_own hstored a⟩

end Order

/-! ### Regrouping (44_codec.md R184, R185) -/

section Regroup
variable {bd bs : BReg} {rc : WReg} {s : State} (hno : NoFault (.splitle bd bs rc) s)
include hno

theorem bufLen_of_splitle : bufLen bs s = bufLen bd s := by
  obtain ⟨-, hsrc⟩ := buffersFit_of_noCondition fun c hc => hno c (.inl hc)
  obtain ⟨-, hlen, -⟩ := hsrc bs (List.mem_singleton.2 rfl)
  exact hlen

theorem bufLen_mod_of_splitle : bufLen bs s % countBits rc s = 0 := by
  by_contra h
  exact hno _ (.inr ⟨rfl, .inr h⟩)

/-- SPLITLE stores the reversed groups of the source. COMBLE is the same function and has the same conditions. -/
theorem regroup_stored (hwf : Memory.wf s.mem) :
    ∃ t, regroup bd bs rc s = .next t ∧
      StoredBuffer bd (reverseGroups (countBits rc s) (bufferBytes bs s)) s t := by
  obtain ⟨hin, hsrc⟩ := buffersFit_of_noCondition fun c hc => hno c (.inl hc)
  obtain ⟨hbs, -, -⟩ := hsrc bs (List.mem_singleton.2 rfl)
  have hout : (reverseGroups (countBits rc s) (bufferBytes bs s)).length = bufLen bd s := by
    rw [reverseGroups_length (by rw [bufferBytes_length, bufLen_mod_of_splitle hno]), bufferBytes_length,
      bufLen_of_splitle hno]
  have hop : ((bufRead bs s).bind fun x => bufWrite bd (reverseGroups (countBits rc s) x) s) =
      .ok (withMem (writeBytes s.mem (bufBase bd s) (reverseGroups (countBits rc s) (bufferBytes bs s))) s) := by
    rw [bufRead_ok hbs]
    exact bufWrite_ok hin hout
  have hconds : ∀ c, (c, true) ∈ bufferChecks bd [bs] s ++
      [(.lenNotMultiple, decide (countBits rc s = 0 ∨ bufLen bs s % countBits rc s ≠ 0))] ↔
      FaultCondition (.splitle bd bs rc) s c := fun c => by
    rw [mem_append_check, mem_bufferChecks]
    rfl
  exact ⟨_, checked_noFault hconds hno hop, storedBuffer_of_write hwf hout⟩

end Regroup

/-- The conditions of SPLITLE do not look at M. -/
theorem wroteOnly_splitle {b : BReg} {s t : State} (h : WroteOnly b s t) (bd bs : BReg) (rc : WReg) (c : Cause) :
    FaultCondition (.splitle bd bs rc) t c ↔ FaultCondition (.splitle bd bs rc) s c := by rw [h.2]; rfl

end Sys2Proof.Proofs
end

section
/-! The statements about the CodecUtils commands (44_codec.md). The twelve UNPK and PACK commands are the two common
functions at three word sizes in the two byte orders. -/

namespace Sys2Proof.Proofs

open Sys2Proof Sys2Proof.Machine Sys2Proof.Laws

/-- Settles O50: register `rd + k` is written with the number that group `k` of the buffer spells. -/
theorem unpackWords : Obligations.UnpackWords := fun _ _ _ =>
  ⟨unpack_unpacked bigEndian, unpack_unpacked littleEndian, unpack_unpacked bigEndian, unpack_unpacked littleEndian,
    unpack_unpacked bigEndian, unpack_unpacked littleEndian⟩

/-- Settles O51: group `k` of the buffer is written with the bytes of register `rs + k`. -/
theorem packWords : Obligations.PackWords := fun _ _ _ hwf =>
  ⟨pack_packed bigEndian hwf, pack_packed littleEndian hwf, pack_packed bigEndian hwf, pack_packed littleEndian hwf,
    pack_packed bigEndian hwf, pack_packed littleEndian hwf⟩

/-- Settles O52: a word of at most 8 bytes fits a register, so packing the unpacked words stores the old bytes. -/
theorem unpackThenPack : Obligations.UnpackThenPack := fun _ _ _ hwf =>
  ⟨unpack_pack bigEndian (by decide) hwf, unpack_pack littleEndian (by decide) hwf,
    unpack_pack bigEndian (by decide) hwf, unpack_pack littleEndian (by decide) hwf,
    unpack_pack bigEndian (by decide) hwf, unpack_pack littleEndian (by decide) hwf⟩

/-- Settles O53: both commands are `regroup`, which reverses every group of the source. -/
theorem splitAndCombine : Obligations.SplitAndCombine := by
  intro bd bs rc s hwf hno
  obtain ⟨t, hexec, hstored⟩ := regroup_stored hno hwf
  refine ⟨t, hexec, hexec, hstored.2, fun g j hg hj => ?_⟩
  have hin : g * countBits rc s + j < bufLen bd s := by
    have := group_end_le hg
    rw [← bufLen_of_splitle hno]
    omega
  rw [storedBuffer_readByte hstored hin, getElem_reverseGroups (by rwa [bufferBytes_length]) hj, bufferBytes_getElem]

/-- Settles O54: reversing every group twice gives the bytes of the first source. -/
theorem combineUndoesSplit : Obligations.CombineUndoesSplit := by
  intro x y z rc s hwf hsplit hcomb
  obtain ⟨t, hexec, hbytes, hwrote⟩ := regroup_stored hsplit hwf
  have hcomb' : NoFault (.splitle z y rc) t := fun c hc => hcomb c ((wroteOnly_splitle hwrote z y rc c).1 hc)
  obtain ⟨u, hexec', hstored⟩ := regroup_stored hcomb' (exec_keeps_mem_wf (i := .splitle y x rc) hexec hwf)
  have hmod : (bufferBytes x s).length % countBits rc s = 0 := by rw [bufferBytes_length, bufLen_mod_of_splitle hsplit]
  rw [hbytes, wroteOnly_countBits hwrote, reverseGroups_reverseGroups hmod] at hstored
  refine ⟨t, u, hexec, hexec', fun j hj => ?_⟩
  have hin : j < bufLen z t := by
    rw [wroteOnly_bufLen hwrote, ← bufLen_of_splitle hcomb, ← bufLen_of_splitle hsplit]
    exact hj
  rw [← wroteOnly_bufBase hwrote, storedBuffer_readByte hstored hin, bufferBytes_getElem]

end Sys2Proof.Proofs
end

section
/-! SUPPORT. What the transforms of 45_blockprocessor.md hand over, said once. Every transform pads its message to whole
blocks, and its records are the blocks of the padded message in order (`blockRecords`). The three commands differ in the
padding only, and the record-by-record driver hands over what the one-step command appends. -/

namespace Sys2Proof.Proofs

open Sys2Proof Sys2Proof.Machine Sys2Proof.Laws

@[simp] theorem zeros_length (n : Nat) : (zeros n).length = n := List.length_replicate

/-! ### The blocks of a byte list as records -/

/-- The records of `n` blocks of `B` bytes of `out`, numbered from 0 (45_blockprocessor.md R200). -/
def blockRecords (op : TransformOp) (B n : Nat) (offsets : Bool) (extra : Word) (out : List Byte) : List Emission :=
  (List.range n).map fun k =>
    { op := op, k := k, block := group B k out, destOffset := if offsets then some (k * B) else none,
      extra := extra }

section BlockRecords
variable {op : TransformOp} {B n : Nat} {offsets : Bool} {extra : Word} {out : List Byte}

theorem blockRecords_length : (blockRecords op B n offsets extra out).length = n := by simp [blockRecords]

theorem block_end_le {k : Nat} (hk : k < n) : k * B + B ≤ n * B := by
  rw [← Nat.succ_mul]
  exact Nat.mul_le_mul_right B hk

theorem length_group_of_le {k : Nat} (h : k * B + B ≤ out.length) : (group B k out).length = B := by
  rw [group, List.length_take, List.length_drop]
  omega

variable (hlen : out.length = n * B)
include hlen

theorem blockRecords_block_length : ∀ e ∈ blockRecords op B n offsets extra out, e.block.length = B :=
  List.forall_mem_map.2 fun _ hk => length_group_of_le (hlen ▸ block_end_le (List.mem_range.1 hk))

/-- The blocks joined in order. -/
theorem blockRecords_flatten : ((blockRecords op B n offsets extra out).map (·.block)).flatten = out := by
  rw [blockRecords, List.map_map]
  exact (flatMap_group B n out).trans (List.take_of_length_le hlen.le)

/-- A byte stream is given by its bytes up to the end of the last block. -/
theorem blockRecords_eq_streamRecords {byteAt : Nat → Byte} (hbyte : ∀ j (hj : j < out.length), out[j] = byteAt j) :
    blockRecords op B n offsets extra out = streamRecords op B n offsets extra byteAt := by
  refine List.map_congr_left fun k hk => ?_
  have hend : k * B + B ≤ out.length := hlen ▸ block_end_le (List.mem_range.1 hk)
  have hblock : group B k out = (List.range B).map fun j => byteAt (k * B + j) := by
    refine List.ext_getElem (by simp [length_group_of_le hend]) fun j hj _ => ?_
    rw [getElem_group, hbyte, List.getElem_map, List.getElem_range]
  rw [hblock]

end BlockRecords

/-! ### Groups of a message with bytes after it -/

theorem tailOf_length (B : Nat) (msg : List Byte) : (tailOf B msg).length = msg.length % B := by
  rw [tailOf, List.length_drop, Nat.mod_eq_sub_div_mul]

theorem group_append_of_le {B k : Nat} {msg : List Byte} (h : k * B + B ≤ msg.length) (pad : List Byte) :
    group B k (msg ++ pad) = group B k msg := by
  rw [group, List.drop_append_of_le_length (by omega),
    List.take_append_of_le_length (by rw [List.length_drop]; omega), group]

/-- The groups after the whole blocks of the message are those of its tail. -/
theorem group_append_tail (B j : Nat) (msg pad : List Byte) :
    group B (msg.length / B + j) (msg ++ pad) = group B j (tailOf B msg ++ pad) := by
  rw [group, group, tailOf, Nat.add_mul, ← List.drop_drop,
    List.drop_append_of_le_length (Nat.div_mul_le_self msg.length B)]

/-- A group that reaches into the zeros after the message. -/
theorem group_append_zeros {B k z : Nat} {msg : List Byte} (h : k * B + B ≤ msg.length + z) :
    group B k (msg ++ zeros z) = group B k msg ++ zeros (B - (group B k msg).length) := by
  simp only [group, zeros, List.drop_append, List.take_append, List.drop_replicate, List.take_replicate,
    List.length_take, List.length_drop]
  congr 2
  omega

/-! ### The run of a hash transform -/

/-- A hash transform whose padded tail is the tail with the bytes `pad` (45_blockprocessor.md R202). -/
theorem hashRun_pending (op : TransformOp) {B : Nat} (hB : 0 < B) (msg pad : List Byte) (extra : Word) :
    (hashRun op B msg (tailOf B msg ++ pad) extra).pending =
      blockRecords op B ((msg.length + pad.length) / B) false extra (msg ++ pad) := by
  have hcount : (msg.length + pad.length) / B = msg.length / B + (tailOf B msg ++ pad).length / B := by
    rw [List.length_append, tailOf_length, ← Nat.mul_add_div hB, ← Nat.add_assoc, Nat.div_add_mod]
  rw [blockRecords, hcount, List.range_add, List.map_append, List.map_map]
  refine congrArg₂ (· ++ ·) (List.map_congr_left fun k hk => ?whole) (List.map_congr_left fun j _ => ?tail)
  case whole => rw [group_append_of_le (group_end_le (List.mem_range.1 hk))]; rfl
  case tail => simp only [Function.comp_apply, group_append_tail]; rfl

/-! ### The zero filling of TBLKBC (45_blockprocessor.md R208) -/

/-- The chunks cover the message. -/
theorem le_ceilDiv_mul {B : Nat} (hB : 0 < B) (len : Nat) : len ≤ (len + B - 1) / B * B := by
  have := Nat.lt_div_mul_add (a := len + B - 1) hB
  omega

/-- They end less than a chunk after it (45_blockprocessor.md R210). -/
theorem ceilDiv_mul_sub_lt {B : Nat} (hB : 0 < B) (len : Nat) : (len + B - 1) / B * B - len < B := by
  have := Nat.div_mul_le_self (len + B - 1) B
  omega

/-- The zeros that fill the last chunk. -/
def cipherPadding (B len : Nat) : List Byte := zeros ((len + B - 1) / B * B - len)

theorem cipherPadding_fills {B : Nat} (hB : 0 < B) (len : Nat) :
    len + (cipherPadding B len).length = (len + B - 1) / B * B := by
  rw [cipherPadding, zeros_length, Nat.add_sub_cancel' (le_ceilDiv_mul hB len)]

theorem cipherRun_pending {B : Nat} (hB : 0 < B) (msg : List Byte) (extra : Word) :
    (cipherRun B msg extra).pending = blockRecords .tblkbc B ((msg.length + B - 1) / B) true extra
      (msg ++ cipherPadding B msg.length) := by
  refine List.map_congr_left fun k hk => ?_
  have hend : k * B + B ≤ msg.length + ((msg.length + B - 1) / B * B - msg.length) := by
    rw [Nat.add_sub_cancel' (le_ceilDiv_mul hB _)]
    exact block_end_le (List.mem_range.1 hk)
  rw [cipherPadding, group_append_zeros hend]
  rfl

/-! ### The simple padding (45_blockprocessor.md R203) -/

/-- The bytes after a message of `len` bytes: the marker and zeros up to the end of the block. -/
def simplePadding (marker : Byte) (B len : Nat) : List Byte := marker :: zeros (B - len % B - 1)

theorem padSimple_tailOf (marker : Byte) (B : Nat) (msg : List Byte) :
    padSimple marker (tailOf B msg) B = tailOf B msg ++ simplePadding marker B msg.length := by
  rw [padSimple, tailOf_length]
  rfl

theorem simplePadding_fills (marker : Byte) {B : Nat} (hB : 0 < B) (len : Nat) :
    len + (simplePadding marker B len).length = (len / B + 1) * B := by
  have hmod := Nat.mod_lt len hB
  have hdiv := Nat.div_add_mod' len B
  rw [simplePadding, List.length_cons, zeros_length, Nat.succ_mul]
  omega

/-! ### The Merkle–Damgård padding (45_blockprocessor.md R204, R205) -/

/-- The bytes after a message of `len` bytes: the padding bytes and the length suffix. -/
def mdPadding (cfg : Word32) (B len : Nat) : List Byte := mdFill cfg (mdPaddingLength cfg B len) ++ mdSuffix cfg len

theorem padMd_tailOf (cfg : Word32) (B : Nat) (msg : List Byte) :
    padMd cfg (tailOf B msg) B msg.length = tailOf B msg ++ mdPadding cfg B msg.length :=
  List.append_assoc ..

/-- The floor modulus of a negative number (90_conflicts.md C5): the bytes that are missing in the last block. -/
theorem floorMod_sub_length {B : Nat} (hB : 0 < B) (len : Nat) :
    floorMod ((B : Int) - len) B = if len % B = 0 then 0 else B - len % B := by
  have hmod := Nat.mod_lt len hB
  have hdiv : (len : Int) = (len % B : Nat) + B * (len / B : Nat) := by exact_mod_cast (Nat.mod_add_div len B).symm
  have hsplit : (B : Int) - len = ((B - len % B : Nat) : Int) - B * (len / B : Nat) := by omega
  rw [floorMod, hsplit, Int.sub_mul_emod_self_left, ← Int.natCast_emod, Int.toNat_natCast]
  split
  next h => rw [h, Nat.sub_zero, Nat.mod_self]
  next => exact Nat.mod_eq_of_lt (by omega)

theorem mdTailBlocks_eq (cfg : Word32) (B len : Nat) : mdTailBlocks cfg B len =
    if padAlwaysAddsFullBlock cfg then if len % B = 0 then 1 else 2
    else if len % B < B - padSuffixLen cfg then 1 else 2 := rfl

theorem mdTailBlocks_pos (cfg : Word32) (B len : Nat) : 0 < mdTailBlocks cfg B len := by
  rw [mdTailBlocks]
  split <;> split <;> decide

/-- The padding length makes the padded tail one block or two, and leaves room for the start byte. -/
theorem mdPaddingLength_fills {cfg : Word32} {B : Nat} (hS : padSuffixLen cfg < B) (len : Nat) :
    0 < mdPaddingLength cfg B len ∧
      len + mdPaddingLength cfg B len + padSuffixLen cfg = (len / B + mdTailBlocks cfg B len) * B := by
  have hB : 0 < B := by omega
  have hmod := Nat.mod_lt len hB
  have hdiv := Nat.div_add_mod' len B
  rw [mdTailBlocks_eq, mdPaddingLength, floorMod_sub_length hB, Nat.add_mul]
  cases padAlwaysAddsFullBlock cfg with
  | true =>
    by_cases h : len % B = 0
    · simp only [if_true, if_pos h]
      omega
    · simp only [if_true, if_neg h]
      omega
  | false =>
    by_cases h : len % B < B - padSuffixLen cfg
    · have hq : ¬ (B : Int) - padSuffixLen cfg - (len % B : Nat) ≤ 0 := by omega
      simp only [Bool.false_eq_true, if_false, if_pos h, if_neg hq]
      omega
    · have hq : (B : Int) - padSuffixLen cfg - (len % B : Nat) ≤ 0 := by omega
      simp only [Bool.false_eq_true, if_false, if_neg h, if_pos hq]
      omega

@[simp] theorem orLast_length (e : Byte) (l : List Byte) : (orLast e l).length = l.length := by
  induction l using orLast.induct with
  | case1 | case2 => rfl
  | case3 x y rest ih => exact congrArg (· + 1) ih

theorem getElem_orLast (e : Byte) (l : List Byte) (i : Nat) (hi : i < (orLast e l).length) :
    (orLast e l)[i] = l[i]'(orLast_length e l ▸ hi) ||| if i + 1 = l.length then e else 0#8 := by
  induction l using orLast.induct generalizing i with
  | case1 => simp at hi
  | case2 x =>
    obtain rfl : i = 0 := by simpa using hi
    simp [orLast]
  | case3 x y rest ih =>
    cases i with
    | zero => simp [orLast]
    | succ i => simp [orLast, ih]

/-- The padding bytes one by one. -/
theorem getElem_mdFill (cfg : Word32) (p i : Nat) (hi : i < (mdFill cfg p).length) : (mdFill cfg p)[i] =
    (if i = 0 then padStartBit cfg else 0#8) |||
      if padEndBitEnabled cfg ∧ i = p - 1 then padEndBit cfg else 0#8 := by
  have hfirst (j : Nat) (hj : j < (padStartBit cfg :: zeros (p - 1)).length) :
      (padStartBit cfg :: zeros (p - 1))[j] = if j = 0 then padStartBit cfg else 0#8 := by
    cases j <;> simp [zeros]
  have hlast : (padStartBit cfg :: zeros (p - 1)).length = p - 1 + 1 := by simp
  cases hen : padEndBitEnabled cfg with
  | true => simp only [mdFill, hen, if_true, getElem_orLast, hfirst, hlast, Nat.add_right_cancel_iff, true_and]
  | false => simp [mdFill, hen, hfirst]

theorem mdFill_length {cfg : Word32} {p : Nat} (hp : 0 < p) : (mdFill cfg p).length = p := by
  have hfirst : (padStartBit cfg :: zeros (p - 1)).length = p := by
    rw [List.length_cons, zeros_length, Nat.sub_add_cancel hp]
  rw [mdFill]
  split
  · rw [orLast_length, hfirst]
  · exact hfirst

theorem getElem_leBytes (v n i : Nat) (hi : i < (leBytes v n).length) :
    (leBytes v n)[i] = BitVec.ofNat 8 (v / 256 ^ i) := by
  induction n generalizing v i with
  | zero => simp [leBytes] at hi
  | succ n ih =>
    cases i with
    | zero => simp [leBytes, ← BitVec.toNat_inj]
    | succ i => simp [leBytes, ih, Nat.div_div_eq_div_mul, Nat.pow_succ']

theorem getElem_beBytes (v n i : Nat) (hi : i < (beBytes v n).length) :
    (beBytes v n)[i] = BitVec.ofNat 8 (v / 256 ^ (n - 1 - i)) := by
  simp [beBytes, getElem_leBytes]

/-- The reduction to the suffix length drops no byte of the suffix (90_conflicts.md C3). -/
theorem byte_mod {S i : Nat} (hi : i < S) (v : Nat) :
    BitVec.ofNat 8 (v % 2 ^ (8 * S) / 256 ^ i) = BitVec.ofNat 8 (v / 256 ^ i) := by
  obtain ⟨d, rfl⟩ := Nat.exists_eq_add_of_lt hi
  have hsplit : 256 ^ (i + d + 1) = 256 ^ i * (2 ^ 8 * 256 ^ d) := by ring
  rw [two_pow_bytes, hsplit, Nat.mod_mul_right_div_self]
  apply BitVec.eq_of_toNat_eq
  rw [BitVec.toNat_ofNat, BitVec.toNat_ofNat, Nat.mod_mul_right_mod]

@[simp] theorem mdSuffix_length (cfg : Word32) (len : Nat) : (mdSuffix cfg len).length = padSuffixLen cfg := by
  rw [mdSuffix]
  split <;> simp

/-- The suffix bytes one by one, in the configured byte order. -/
theorem getElem_mdSuffix (cfg : Word32) (len i : Nat) (hi : i < (mdSuffix cfg len).length) : (mdSuffix cfg len)[i] =
    if padLittleEndian cfg then BitVec.ofNat 8 (8 * len / 256 ^ i)
    else BitVec.ofNat 8 (8 * len / 256 ^ (padSuffixLen cfg - 1 - i)) := by
  have hi' : i < padSuffixLen cfg := mdSuffix_length cfg len ▸ hi
  cases hle : padLittleEndian cfg with
  | true => simp [mdSuffix, hle, getElem_leBytes, byte_mod hi']
  | false =>
    have hback : padSuffixLen cfg - 1 - i < padSuffixLen cfg := by omega
    simp [mdSuffix, hle, getElem_beBytes, byte_mod hback]

theorem mdPadding_fills {cfg : Word32} {B : Nat} (hS : padSuffixLen cfg < B) (len : Nat) :
    len + (mdPadding cfg B len).length = (len / B + mdTailBlocks cfg B len) * B := by
  obtain ⟨hpos, hfills⟩ := mdPaddingLength_fills hS len
  rw [mdPadding, List.length_append, mdFill_length hpos, mdSuffix_length, ← Nat.add_assoc, hfills]

/-! ### The one-step commands -/

/-- A transform without a fault condition appends the records of its message (45_blockprocessor.md R200). -/
theorem transform_emits {i : Instr} {bs : BReg} {s : State} {d : Cause} {p : Prop} [Decidable p]
    {recs : List Byte → List Emission}
    (hP : ∀ c, FaultCondition i s c ↔ (c = .bufRange ∧ OutOfRange bs s) ∨ (c = d ∧ p)) (hno : NoFault i s) :
    checked (rangeCheck bs s ++ [(d, decide p)]) s ((bufRead bs s).map fun msg => emit (recs msg) s) =
      .next (afterEmit (recs (bufferBytes bs s)) s) := by
  have hin : inRange bs s = true := inRange_iff_not.2 fun h => hno _ ((hP _).2 (.inl ⟨rfl, h⟩))
  have hconds (c : Cause) : (c, true) ∈ rangeCheck bs s ++ [(d, decide p)] ↔ FaultCondition i s c := by
    rw [mem_append_check, mem_rangeCheck, hP]
  have hop : (bufRead bs s).map (fun msg => emit (recs msg) s) = .ok (emit (recs (bufferBytes bs s)) s) := by
    rw [bufRead_ok hin]
    rfl
  exact checked_noFault hconds hno hop

section Commands
variable {rx : WReg} {bs : BReg} {rt : WReg} {s : State}

theorem exec_tblk_run (hno : NoFault (.tblk rx bs rt) s) :
    exec (.tblk rx bs rt) s = .next (afterEmit (tblkRun rx rt (bufferBytes bs s) s).pending s) :=
  transform_emits (fun _ => .rfl) hno

theorem exec_tblkmd_run (hno : NoFault (.tblkmd rx bs rt) s) :
    exec (.tblkmd rx bs rt) s = .next (afterEmit (tblkmdRun rx rt (bufferBytes bs s) s).pending s) :=
  transform_emits (fun _ => .rfl) hno

theorem exec_tblkbc_run (hno : NoFault (.tblkbc rx bs rt) s) :
    exec (.tblkbc rx bs rt) s = .next (afterEmit (tblkbcRun rx rt (bufferBytes bs s) s).pending s) :=
  transform_emits (fun _ => .rfl) hno

theorem blockLen_pos_of_tblk (hno : NoFault (.tblk rx bs rt) s) : 0 < countBits rt s :=
  Nat.pos_of_ne_zero fun h => hno _ (.inr ⟨rfl, h⟩)

theorem suffix_lt_of_tblkmd (hno : NoFault (.tblkmd rx bs rt) s) : padSuffixLen s.padcfg < countBits rt s :=
  Nat.lt_of_not_le fun h => hno _ (.inr ⟨rfl, .inr h⟩)

theorem blockLen_pos_of_tblkbc (hno : NoFault (.tblkbc rx bs rt) s) : 0 < countBits rt s / 8 := by
  by_contra h
  exact hno .badBlockSize (.inr ⟨rfl, by omega⟩)

theorem tblk_padded_length (hno : NoFault (.tblk rx bs rt) s) :
    (bufferBytes bs s ++ simplePadding s.params.simpleMarker (countBits rt s) (bufLen bs s)).length =
      (bufLen bs s / countBits rt s + 1) * countBits rt s := by
  rw [List.length_append, bufferBytes_length, simplePadding_fills _ (blockLen_pos_of_tblk hno)]

theorem tblkmd_padded_length (hno : NoFault (.tblkmd rx bs rt) s) :
    (bufferBytes bs s ++ mdPadding s.padcfg (countBits rt s) (bufLen bs s)).length =
      (bufLen bs s / countBits rt s + mdTailBlocks s.padcfg (countBits rt s) (bufLen bs s)) * countBits rt s := by
  rw [List.length_append, bufferBytes_length, mdPadding_fills (suffix_lt_of_tblkmd hno)]

theorem tblkbc_padded_length (hno : NoFault (.tblkbc rx bs rt) s) :
    (bufferBytes bs s ++ cipherPadding (countBits rt s / 8) (bufLen bs s)).length =
      (bufLen bs s + countBits rt s / 8 - 1) / (countBits rt s / 8) * (countBits rt s / 8) := by
  rw [List.length_append, bufferBytes_length, cipherPadding_fills (blockLen_pos_of_tblkbc hno)]

/-- TBLK as the blocks of the padded message (45_blockprocessor.md R206). -/
theorem exec_tblk (hno : NoFault (.tblk rx bs rt) s) : exec (.tblk rx bs rt) s =
    .next (afterEmit (blockRecords .tblk (countBits rt s) (bufLen bs s / countBits rt s + 1) false (wreg rx s)
      (bufferBytes bs s ++ simplePadding s.params.simpleMarker (countBits rt s) (bufLen bs s))) s) := by
  have hB := blockLen_pos_of_tblk hno
  rw [exec_tblk_run hno, tblkRun, countOperand_eq, padSimple_tailOf, hashRun_pending .tblk hB, bufferBytes_length,
    simplePadding_fills _ hB, Nat.mul_div_cancel _ hB]

/-- TBLKMD as the blocks of the padded message (45_blockprocessor.md R207). -/
theorem exec_tblkmd (hno : NoFault (.tblkmd rx bs rt) s) : exec (.tblkmd rx bs rt) s =
    .next (afterEmit (blockRecords .tblkmd (countBits rt s)
      (bufLen bs s / countBits rt s + mdTailBlocks s.padcfg (countBits rt s) (bufLen bs s)) false (wreg rx s)
      (bufferBytes bs s ++ mdPadding s.padcfg (countBits rt s) (bufLen bs s))) s) := by
  have hS := suffix_lt_of_tblkmd hno
  have hB : 0 < countBits rt s := by omega
  rw [exec_tblkmd_run hno, tblkmdRun, countOperand_eq, padMd_tailOf, hashRun_pending .tblkmd hB, bufferBytes_length,
    mdPadding_fills hS, Nat.mul_div_cancel _ hB]

/-- TBLKBC as the blocks of the zero-filled message (45_blockprocessor.md R208). -/
theorem exec_tblkbc (hno : NoFault (.tblkbc rx bs rt) s) : exec (.tblkbc rx bs rt) s =
    .next (afterEmit (blockRecords .tblkbc (countBits rt s / 8)
      ((bufLen bs s + countBits rt s / 8 - 1) / (countBits rt s / 8)) true (wreg rx s)
      (bufferBytes bs s ++ cipherPadding (countBits rt s / 8) (bufLen bs s))) s) := by
  rw [exec_tblkbc_run hno, tblkbcRun, countOperand_eq, cipherRun_pending (blockLen_pos_of_tblkbc hno),
    bufferBytes_length]

end Commands

/-! ### The driver (45_blockprocessor.md R201) -/

/-- The run after `n` of its records were accepted. -/
def remaining (n : Nat) (r : TransformRun) : TransformRun := { r with k := r.k + n, pending := r.pending.drop n }

/-- Accepting a record writes the driver's registers over, whatever they were while it was presented. -/
theorem acceptRecord_beginRun {r : TransformRun} (h : 0 < r.pending.length) (s : State) :
    acceptRecord r (beginRun r s) =
      (remaining 1 r, beginRun (remaining 1 r) (emit (r.pending.take 1) s)) := by
  obtain ⟨B, len, whole, k, pending⟩ := r
  match pending, h with
  | [e], _ => rfl
  | e :: e' :: rest, _ => rfl

/-- EMIT grows by the accepted records, and the next one is presented. -/
theorem acceptRecords_beginRun {n : Nat} {r : TransformRun} (h : n ≤ r.pending.length) (s : State) :
    acceptRecords n (r, beginRun r s) =
      (remaining n r, beginRun (remaining n r) (emit (r.pending.take n) s)) := by
  induction n generalizing r s with
  | zero => simp [acceptRecords, remaining, emit]
  | succ n ih =>
    have hpos : 0 < r.pending.length := by omega
    have hrest : n ≤ (r.pending.drop 1).length := by
      rw [List.length_drop]
      omega
    have hstep : remaining n (remaining 1 r) = remaining (n + 1) r := by
      simp [remaining, Nat.add_comm, Nat.add_left_comm]
    have hemit : emit ((remaining 1 r).pending.take n) (emit (r.pending.take 1) s) =
        emit (r.pending.take (n + 1)) s := by
      simp [emit, remaining, Nat.add_comm n 1, List.take_add]
    rw [acceptRecords, acceptRecord_beginRun hpos, ih hrest, hstep, hemit]

/-- The end of a command whose driver was idle before it. -/
theorem finishRun_emit {s : State} (hstat : s.drvstat = 0#32) (hoff : s.drvoff = 0#32) (recs : List Emission) :
    finishRun (emit recs s) = afterEmit recs s := by
  simp [finishRun, advance, emit, afterEmit, drvstatWord, hstat, hoff]

/-- When the last record is accepted, the driver is idle again and the command has ended. -/
theorem acceptRecords_all {s : State} (hstat : s.drvstat = 0#32) (hoff : s.drvoff = 0#32) (r : TransformRun) :
    (acceptRecords r.pending.length (r, beginRun r s)).2 = afterEmit r.pending s := by
  rw [acceptRecords_beginRun le_rfl, List.take_length, ← finishRun_emit hstat hoff, beginRun, remaining,
    List.drop_length]

/-- While record `n` is presented: the registers of the driver, and the records before it in EMIT. -/
theorem acceptRecords_present {r : TransformRun} {n : Nat} (h : n < r.pending.length) (s : State) :
    (acceptRecords n (r, beginRun r s)).2 = present (remaining n r) (emit (r.pending.take n) s) := by
  rw [acceptRecords_beginRun h.le, beginRun]
  split
  next hnil => exact absurd (List.drop_eq_nil_iff.1 hnil) (Nat.not_le.2 h)
  next => rfl

/-- The registers of the driver while record `n` of a new run is presented (10_state.md R32). -/
theorem present_remaining {r : TransformRun} (hk : r.k = 0) (n : Nat) (s : State) : present (remaining n r) s =
    { s with drvstat := if n < r.whole then 1#32 else 2#32,
             drvoff := BitVec.ofNat 32 (min (n * r.blockLen) r.len) } := by
  have hstate : drvstatWord (presentedState (remaining n r)) = if n < r.whole then 1#32 else 2#32 := by
    rw [presentedState, apply_ite drvstatWord, remaining, hk, Nat.zero_add]
    rfl
  rw [present, hstate, remaining, hk, Nat.zero_add]

end Sys2Proof.Proofs
end

section
/-! The statements about the BlockProcessor commands (45_blockprocessor.md). Each command emits the blocks of its padded
message, and the statements read them byte by byte, joined in order, or one at a time from the driver. -/

namespace Sys2Proof.Proofs

open Sys2Proof Sys2Proof.Machine Sys2Proof.Laws

/-! ### The padded messages byte by byte -/

/-- The bytes of a buffer with bytes after it. -/
theorem getElem_bufferBytes_append (bs : BReg) (s : State) (pad : List Byte) {j : Nat}
    (hj : j < (bufferBytes bs s ++ pad).length) : (bufferBytes bs s ++ pad)[j] =
      if h : j < bufLen bs s then readByte s.mem (bufBase bs s + j)
      else pad[j - bufLen bs s]'(by rw [List.length_append, bufferBytes_length] at hj; omega) := by
  rw [List.getElem_append]
  simp only [bufferBytes_length, bufferBytes_getElem]

theorem getElem_simplePadded (bs : BReg) (s : State) (B j : Nat)
    (hj : j < (bufferBytes bs s ++ simplePadding s.params.simpleMarker B (bufLen bs s)).length) :
    (bufferBytes bs s ++ simplePadding s.params.simpleMarker B (bufLen bs s))[j] = simpleStream bs s j := by
  rw [getElem_bufferBytes_append, simpleStream]
  split
  next => rfl
  next h =>
    obtain ⟨i, rfl⟩ := Nat.exists_eq_add_of_le (Nat.le_of_not_lt h)
    cases i <;> simp [simplePadding, zeros]

theorem getElem_cipherPadded (bs : BReg) (s : State) (B j : Nat)
    (hj : j < (bufferBytes bs s ++ cipherPadding B (bufLen bs s)).length) :
    (bufferBytes bs s ++ cipherPadding B (bufLen bs s))[j] = cipherStream bs s j := by
  rw [getElem_bufferBytes_append, cipherStream]
  split
  next => rfl
  next => exact List.getElem_replicate ..

theorem mdStream_eq (bs : BReg) (N : Nat) (s : State) (j : Nat) : mdStream bs N s j =
    if j < bufLen bs s then readByte s.mem (bufBase bs s + j)
    else if j < N - padSuffixLen s.padcfg then
      (if j = bufLen bs s then padStartBit s.padcfg else 0#8) |||
        if padEndBitEnabled s.padcfg ∧ j = N - padSuffixLen s.padcfg - 1 then padEndBit s.padcfg else 0#8
    else if padLittleEndian s.padcfg then
      BitVec.ofNat 8 (8 * bufLen bs s / 256 ^ (j - (N - padSuffixLen s.padcfg)))
    else BitVec.ofNat 8 (8 * bufLen bs s / 256 ^ (N - 1 - j)) := rfl

/-- The padding bytes stand before the last SUFLEN bytes, and the suffix is these (45_blockprocessor.md R204). -/
theorem getElem_mdPadded {bs : BReg} {s : State} {B N : Nat} (hS : padSuffixLen s.padcfg < B)
    (hlen : (bufferBytes bs s ++ mdPadding s.padcfg B (bufLen bs s)).length = N) (j : Nat)
    (hj : j < (bufferBytes bs s ++ mdPadding s.padcfg B (bufLen bs s)).length) :
    (bufferBytes bs s ++ mdPadding s.padcfg B (bufLen bs s))[j] = mdStream bs N s j := by
  obtain ⟨hpos, -⟩ := mdPaddingLength_fills hS (bufLen bs s)
  have hfill := mdFill_length (cfg := s.padcfg) hpos
  rw [List.length_append, bufferBytes_length, mdPadding, List.length_append, hfill, mdSuffix_length] at hlen
  rw [getElem_bufferBytes_append, mdStream_eq]
  split
  next => rfl
  next h =>
    obtain ⟨i, rfl⟩ := Nat.exists_eq_add_of_le (Nat.le_of_not_lt h)
    simp only [mdPadding, Nat.add_sub_cancel_left, List.getElem_append, hfill]
    split
    next hi =>
      have hin : bufLen bs s + i < N - padSuffixLen s.padcfg := by omega
      have hfirst : i = 0 ↔ bufLen bs s + i = bufLen bs s := by omega
      have hlast : i = mdPaddingLength s.padcfg B (bufLen bs s) - 1 ↔
          bufLen bs s + i = N - padSuffixLen s.padcfg - 1 := by omega
      simp only [getElem_mdFill, if_pos hin, hfirst, hlast]
    next hi =>
      have hout : ¬ bufLen bs s + i < N - padSuffixLen s.padcfg := by omega
      have hfront : bufLen bs s + i - (N - padSuffixLen s.padcfg) =
          i - mdPaddingLength s.padcfg B (bufLen bs s) := by omega
      have hback : N - 1 - (bufLen bs s + i) =
          padSuffixLen s.padcfg - 1 - (i - mdPaddingLength s.padcfg B (bufLen bs s)) := by omega
      rw [getElem_mdSuffix, if_neg hout, hfront, hback]

/-! ### The statements -/

/-- Settles O55: the stream is the padded message byte by byte. -/
theorem simpleTransform : Obligations.SimpleTransform := by
  intro rx bs rt s hno B
  rw [exec_tblk hno, blockRecords_eq_streamRecords (tblk_padded_length hno) (getElem_simplePadded bs s B)]

/-- Settles O56: the padding length puts the suffix at the end of the last of one or two tail blocks. -/
theorem merkleDamgardTransform : Obligations.MerkleDamgardTransform := by
  intro rx bs rt s hno B n
  have hlen := tblkmd_padded_length hno
  rw [exec_tblkmd hno,
    blockRecords_eq_streamRecords hlen (getElem_mdPadded (suffix_lt_of_tblkmd hno) hlen)]

/-- Settles O57: the chunks are the blocks of the zero-filled message. -/
theorem cipherTransform : Obligations.CipherTransform := by
  intro rx bs rt s hno B
  rw [exec_tblkbc hno, blockRecords_eq_streamRecords (tblkbc_padded_length hno) (getElem_cipherPadded bs s B)]

/-- The blocks of a padded message, of which there is at least one. -/
theorem blockRecords_carry_message {op : TransformOp} {B n : Nat} {extra : Word} {msg pad : List Byte}
    (hlen : (msg ++ pad).length = n * B) (hn : 0 < n) :
    (∀ e ∈ blockRecords op B n false extra (msg ++ pad), e.block.length = B) ∧
      (blockRecords op B n false extra (msg ++ pad)).length ≠ 0 ∧
      msg <+: ((blockRecords op B n false extra (msg ++ pad)).map (·.block)).flatten := by
  rw [blockRecords_length, blockRecords_flatten hlen]
  exact ⟨blockRecords_block_length hlen, hn.ne', pad, rfl⟩

/-- Settles O59: the blocks joined in order are the padded message. -/
theorem blocksCarryTheMessage : Obligations.BlocksCarryTheMessage := by
  intro rx bs rt s
  refine ⟨fun i hi hno => ?hash, fun hno => ?cipher⟩
  case hash =>
    rcases hi with rfl | rfl
    · exact ⟨_, exec_tblk hno, blockRecords_carry_message (tblk_padded_length hno) (Nat.succ_pos _)⟩
    · exact ⟨_, exec_tblkmd hno, blockRecords_carry_message (tblkmd_padded_length hno)
        (Nat.add_pos_right _ (mdTailBlocks_pos ..))⟩
  case cipher =>
    have hlen := tblkbc_padded_length hno
    exact ⟨_, _, exec_tblkbc hno, blockRecords_block_length hlen,
      ceilDiv_mul_sub_lt (blockLen_pos_of_tblkbc hno) _, blockRecords_flatten hlen⟩

/-- Settles O60. The three runs start alike, and what the driver does depends on the run only. -/
theorem driverRefinesCommand : Obligations.DriverRefinesCommand := by
  intro rx bs rt s i r B hstat hoff hno hcase
  obtain ⟨hexec, hk, hwhole, hB, hrlen⟩ : exec i s = .next (afterEmit r.pending s) ∧ r.k = 0 ∧
      r.whole = bufLen bs s / B ∧ r.blockLen = B ∧ r.len = bufLen bs s := by
    rw [← bufferBytes_length]
    rcases hcase with ⟨rfl, rfl, rfl⟩ | ⟨rfl, rfl, rfl⟩ | ⟨rfl, rfl, rfl⟩
    · exact ⟨exec_tblk_run hno, rfl, rfl, rfl, rfl⟩
    · exact ⟨exec_tblkmd_run hno, rfl, rfl, rfl, rfl⟩
    · exact ⟨exec_tblkbc_run hno, rfl, rfl, rfl, rfl⟩
  refine ⟨by rw [hexec, acceptRecords_all hstat hoff], fun n hn => ?_⟩
  rw [acceptRecords_present hn, present_remaining hk, hwhole, hB, hrlen]
  rfl

/-- Settles O58: the padded message is evaluated on the three bytes. -/
theorem abcBlock : Obligations.AbcBlock := by
  intro rx bs rt s hrange hB hcfg hmsg
  have hlen : bufLen bs s = 3 := by rw [← bufferBytes_length, hmsg]; rfl
  have hno : NoFault (.tblkmd rx bs rt) s := by
    rintro c (⟨-, h⟩ | ⟨-, h⟩)
    · exact hrange h
    · rw [hB, hcfg] at h
      revert h
      decide
  rw [exec_tblkmd hno, hmsg, hlen, hB, hcfg]
  rfl

end Sys2Proof.Proofs
end

section
/-! The statement about the length of a program (46_system.md R238). A step leaves a unit RUNNING only when it moves
`pc` on inside CS, so the distance from `pc` to the end of CS bounds the number of steps. -/

namespace Sys2Proof.Proofs

open Sys2Proof Sys2Proof.Machine Sys2Proof.Laws

/-! ### Every step has a next state -/

theorem exec_has_next (i : Instr) (s : State) : ∃ t, exec i s = .next t := by
  have ha := exec_answers i s
  generalize exec i s = r at ha
  cases ha <;> exact ⟨_, rfl⟩

theorem step_safe (s : State) : SafeStep s := by
  by_cases hr : s.run = .running
  case neg => exact ⟨s, step_of_not_running hr⟩
  rw [SafeStep, step_of_running hr, stepRunning]
  cases fetch s with
  | none => exact ⟨_, rfl⟩
  | some x =>
    cases hd : decode x with
    | error e => exact ⟨takeFault .illegalInstruction s, by simp only [hd]⟩
    | ok i => simpa only [hd] using exec_has_next i s

/-! ### Runs -/

/-- A run of any machine, by its first step. -/
theorem run_succ_eq {M : Host.Core} {s t : M.State} (h : M.step s = .next t) (k : Nat) :
    M.run (k + 1) s = M.run k t := by
  rw [Host.Core.run, h]

theorem run_succ {s t : State} (h : step s = .next t) (k : Nat) : core.run (k + 1) s = core.run k t :=
  run_succ_eq (M := core) h k

theorem run_of_not_running {s : State} (hr : s.run ≠ .running) (k : Nat) : core.run k s = .next s := by
  induction k with
  | zero => rfl
  | succ k ih => rw [run_succ (step_of_not_running hr), ih]

/-- After a step the unit has stopped, or the step was inside CS and `pc` has moved on. -/
theorem step_stops_or_moves_on {s t : State} (h : step s = .next t) :
    t.run ≠ .running ∨
      s.pc.toNat < s.params.csWords ∧ t.params = s.params ∧ t.pc.toNat = (s.pc.toNat + 1) % 2 ^ 16 := by
  by_cases hr : s.run = .running
  case neg =>
    obtain rfl : s = t := by simpa [step_of_not_running hr] using h
    exact .inl hr
  rcases step_cases hr h with ⟨-, rfl⟩ | ⟨_, _, -, -, rfl⟩ | ⟨x, i, hx, -, he⟩
  · exact .inl nofun
  · exact .inl nofun
  · have hpc : s.pc.toNat < s.params.csWords := by
      by_contra hend
      simp [fetch_eq_none_iff.2 (Nat.le_of_not_lt hend)] at hx
    rcases exec_next he with ⟨c, -, -, rfl⟩ | ⟨-, rfl⟩ | ⟨u, -, hu, rfl⟩
    · exact .inl nofun
    · exact .inl nofun
    · exact .inr ⟨hpc, hu.params_eq, by simp [hu.pc_eq, BitVec.toNat_add]⟩

/-- With `n` words from `pc` to the end of CS, `n + 1` steps end in a stopped unit. Below 65536 words `pc` does not
wrap before that end. -/
theorem run_stops (n : Nat) {s : State} (hcs : s.params.csWords < 65536) (hn : s.params.csWords ≤ s.pc.toNat + n) :
    ∃ t, core.run (n + 1) s = .next t ∧ t.run ≠ .running := by
  induction n generalizing s with
  | zero =>
    obtain ⟨t, ht⟩ := step_safe s
    rcases step_stops_or_moves_on ht with hstop | ⟨hpc, -, -⟩
    · exact ⟨t, run_succ ht 0, hstop⟩
    · omega
  | succ n ih =>
    obtain ⟨t, ht⟩ := step_safe s
    rw [run_succ ht]
    rcases step_stops_or_moves_on ht with hstop | ⟨hpc, hparams, hnext⟩
    · exact ⟨t, run_of_not_running hstop _, hstop⟩
    · exact ih (hparams ▸ hcs) (by rw [hparams]; omega)

/-! ### The statement -/

/-- Settles O14: from any `pc` there are at most CS_WORDS words to the end of CS. -/
theorem programsTerminate : Obligations.ProgramsTerminate :=
  fun s hcs => run_stops s.params.csWords hcs (Nat.le_add_left ..)

end Sys2Proof.Proofs
end

section
/-! The statements about the system commands (46_system.md). LDIZ and LDIK replace the same quarter, of 0 and of the old
register. The control registers are read through `csrValue`. -/

namespace Sys2Proof.Proofs

open Sys2Proof Sys2Proof.Machine Sys2Proof.Laws

/-! ### The word of a command -/

/-- A well-formed command has one word (30_encoding.md R82, R84). -/
theorem decode_eq_ok_iff {i : Instr} (hwf : i.WellFormed) (hword : EncodeOpcode.Statement i) (x : Word32) :
    decode x = .ok i ↔ x.toNat = encodeNat i := by
  obtain ⟨hencode, -⟩ := hword hwf
  constructor
  · intro h
    rw [← hencode, ((row_holds i).encode_of_decode h).1]
  · intro h
    rw [← encode_of_toNat h, (row_holds i).decode_encode hwf]

/-! ### A quarter of a word (46_system.md R232, R233) -/

/-- The number `n` with its bits `16·pos+15 : 16·pos` replaced. -/
def withQuarter (n pos : Nat) (imm16 : BitVec 16) : Nat :=
  n - n / 2 ^ (16 * pos) % 2 ^ 16 * 2 ^ (16 * pos) + imm16.toNat * 2 ^ (16 * pos)

/-- The parts above, in, and below the quarter. -/
theorem withQuarter_eq (n pos : Nat) (imm16 : BitVec 16) : withQuarter n pos imm16 =
    2 ^ (16 * pos) * (2 ^ 16 * (n / 2 ^ (16 * pos) / 2 ^ 16) + imm16.toNat) + n % 2 ^ (16 * pos) := by
  have hsplit := Nat.div_add_mod n (2 ^ (16 * pos))
  have hhigh := Nat.div_add_mod (n / 2 ^ (16 * pos)) (2 ^ 16)
  rw [withQuarter]
  generalize n / 2 ^ (16 * pos) / 2 ^ 16 = high at *
  generalize n / 2 ^ (16 * pos) % 2 ^ 16 = quarter at *
  rw [← hhigh, Nat.mul_add] at hsplit
  rw [Nat.mul_add, Nat.mul_comm quarter, Nat.mul_comm imm16.toNat]
  omega

theorem withQuarter_testBit (n pos : Nat) (imm16 : BitVec 16) (j : Nat) : (withQuarter n pos imm16).testBit j =
    if j / 16 = pos then imm16.getLsbD (j % 16) else n.testBit j := by
  rw [withQuarter_eq, Nat.testBit_two_pow_mul_add _ (Nat.mod_lt _ (Nat.two_pow_pos _)),
    Nat.testBit_two_pow_mul_add _ imm16.isLt]
  rcases Nat.lt_trichotomy (j / 16) pos with hbelow | rfl | habove
  · rw [if_pos (by omega), if_neg (by omega), Nat.testBit_mod_two_pow, decide_eq_true (by omega), Bool.true_and]
  · rw [if_neg (by omega), if_pos (by omega), if_pos rfl, Nat.mod_eq_sub]
    rfl
  · rw [if_neg (by omega), if_neg (by omega), if_neg (by omega), Nat.testBit_div_two_pow, Nat.testBit_div_two_pow]
    congr 1
    omega

theorem getLsbD_withQuarter (n pos : Nat) (imm16 : BitVec 16) {j : Nat} (hj : j < 64) :
    (zext64 (withQuarter n pos imm16)).getLsbD j =
      if j / 16 = pos then imm16.getLsbD (j % 16) else n.testBit j := by
  rw [zext64, BitVec.getLsbD_ofNat, decide_eq_true hj, Bool.true_and, withQuarter_testBit]

theorem exec_ldiz (rd : WReg) (pos : Nat) (imm16 : BitVec 16) (s : State) :
    exec (.ldiz rd pos imm16) s = .next (afterW rd (zext64 (withQuarter 0 pos imm16)) s) := by
  have hvalue : withQuarter 0 pos imm16 = imm16.toNat * 2 ^ (16 * pos) := by simp [withQuarter]
  rw [hvalue]
  rfl

theorem exec_ldik (rd : WReg) (pos : Nat) (imm16 : BitVec 16) (s : State) :
    exec (.ldik rd pos imm16) s = .next (afterW rd (zext64 (withQuarter (wreg rd s).toNat pos imm16)) s) := rfl

/-! ### Low halves of registers -/

theorem ofNat_wordOperand (W : Nat) (i : WReg) (s : State) :
    BitVec.ofNat W (wordOperand W i s) = operandBits W i s := by
  rw [wordOperand_eq, BitVec.ofNat_toNat, BitVec.setWidth_eq]

/-! ### The control registers (10_state.md R27) -/

theorem exec_csrr {n : Nat} {v : Word32} {s : State} (h : csrValue n s = some v) (rd : WReg) :
    exec (.csrr rd n) s = .next (afterW rd (v.setWidth 64) s) := by
  rw [← complete_setW_zext64, exec, execCsrr, h]

theorem exec_csrr_illegal {n : Nat} (h : 0x005 < n) (rd : WReg) (s : State) :
    exec (.csrr rd n) s = .next (afterFault 2 0x03 s) := by
  rw [exec, execCsrr, csrValue_eq_none_iff.2 h]
  exact congrArg _ (takeFault_eq_afterFault .csrIllegal s)

theorem exec_csrw_padcfg (rs : WReg) (s : State) :
    exec (.csrw rs 0x003) s = .next (advance (setPadcfg (operandBits 32 rs s) s)) := by
  rw [← ofNat_wordOperand, exec, execCsrw]
  exact checked_pass (List.forall_mem_singleton.2 rfl) rfl

theorem exec_csrw_illegal {n : Nat} (h : n ≠ 0x003) (rs : WReg) (s : State) :
    exec (.csrw rs n) s = .next (afterFault 2 0x03 s) := by
  have hcond : (n != csrPadcfg) = true := bne_iff_ne.2 h
  rw [exec, execCsrw, hcond]
  exact (checked_fault rfl).trans (congrArg _ (takeFault_eq_afterFault .csrIllegal s))

theorem statusWord_setWidth (r : RunState) : (statusWord r).setWidth 64 = BitVec.ofNat 64 r.code := by
  cases r <;> rfl

/-! ### The statements -/

/-- Settles O26: the quarter of 0 and the quarter of the old register. -/
theorem loadImmediate : Obligations.LoadImmediate := by
  intro rd pos imm16 s _
  refine ⟨⟨_, exec_ldiz .., fun j hj => ?_⟩, ⟨_, exec_ldik .., fun j hj => getLsbD_withQuarter _ _ _ hj⟩⟩
  rw [getLsbD_withQuarter _ _ _ hj, Nat.zero_testBit]
  split <;> simp [*]

/-- Settles O28. -/
theorem moveRegister : Obligations.MoveRegister :=
  fun rd rs => ⟨decode_eq_ok_iff rfl (EncodeOpcode.mov rd rs), fun s => complete_setW rd (wreg rs s) s⟩

/-- Settles O29. -/
theorem setDescriptor : Obligations.SetDescriptor := by
  refine fun bd rs rt => ⟨decode_eq_ok_iff rfl (EncodeOpcode.setb bd rs rt), fun s => ?_⟩
  rw [exec, execSetb, countOperand, countOperand, ofNat_wordOperand, ofNat_wordOperand]
  rfl

/-- Settles O25. -/
theorem nopAndHalt : Obligations.NopAndHalt :=
  ⟨rfl, rfl, fun _ => ⟨rfl, rfl⟩⟩

/-- Settles O30: the assigned numbers are read from their registers, and PADCFG alone is written. -/
theorem controlRegisterAccess : Obligations.ControlRegisterAccess := by
  refine fun r s => ⟨?status, exec_csrr rfl r, exec_csrr rfl r, exec_csrr rfl r, exec_csrr rfl r, exec_csrr rfl r,
    fun n hn => exec_csrr_illegal hn r s, exec_csrw_padcfg r s, fun n hn => exec_csrw_illegal hn r s⟩
  case status =>
    rw [exec_csrr (n := 0x000) rfl, statusWord_setWidth]
    rfl

/-- Settles O31: a unit that is not FAULTED has no recorded fault, and between two commands the driver is idle. -/
theorem programSeesOnlyPadcfg : Obligations.ProgramSeesOnlyPadcfg := by
  intro rd s hs hr
  obtain ⟨hfault, hfaultpc⟩ := hs.no_fault_recorded (by simp [hr])
  obtain ⟨hdrvstat, hdrvoff⟩ := hs.driver_idle
  obtain ⟨status, fault, faultpc, -, drvstat, drvoff, -⟩ := controlRegisterAccess rd s
  rw [hr] at status
  rw [hfault] at fault
  rw [hfaultpc] at faultpc
  rw [hdrvstat] at drvstat
  rw [hdrvoff] at drvoff
  exact ⟨status, fault, faultpc, drvstat, drvoff⟩

end Sys2Proof.Proofs
end

section
/-! The statements about the faults (60_exceptions.md). Which fault a command takes is read off `exec_answers`, and what the
host's recovery does is one equation for each of its three transactions. -/

namespace Sys2Proof.Proofs

open Sys2Proof Sys2Proof.Machine Sys2Proof.Laws

/-! ### The causes (60_exceptions.md R251, R252) -/

/-- The codes of R251 are distinct, so the lowest one belongs to one cause. -/
theorem code_injective : Function.Injective Cause.code := by
  intro c d
  cases c <;> cases d <;> decide

theorem BufferCondition.mem_causes {bd : BReg} {sources : List BReg} {s : State} {c : Cause}
    (h : BufferCondition bd sources s c) : c ∈ [Cause.bufRange, .lenMismatch, .bufOverlap] := by
  rcases h with ⟨rfl, -⟩ | ⟨rfl, -⟩ | ⟨rfl, -⟩ <;> decide

theorem CodecCondition.mem_causes {ws : Nat} {b : BReg} {r : WReg} {s : State} {c : Cause}
    (h : CodecCondition ws b r s c) : c ∈ [Cause.bufRange, .lenNotMultiple, .regRange] := by
  rcases h with ⟨rfl, -⟩ | ⟨rfl, -⟩ | ⟨rfl, -⟩ <;> decide

/-- The conditions of R251 are those that the table of R252 gives the command. -/
theorem FaultCondition.mem_possibleCauses {i : Instr} {s : State} {c : Cause} (h : FaultCondition i s c) :
    c ∈ possibleCauses i := by
  cases i with
  | nop | halt | ldiz | ldik | mov | setb | rol16 | ror16 | rol24 | ror24 | rol32 | ror32 | sub32 | mul32 | par8 | par32
  | sub64 | not64 | mul64 | rol64 | ror64 | shl64 | shr64 | minv32 | minv64 => exact h.elim
  | csrr | csrw | add32 | add64 | and64 | or64 | xor64 | rol48 | ror48 | addbs | rolb | rorb =>
    exact List.mem_singleton.2 h.1
  | subb | mulb | notb => exact BufferCondition.mem_causes h
  | unpk16be | unpk16le | unpk32be | unpk32le | unpk64be | unpk64le
  | pack16be | pack16le | pack32be | pack32le | pack64be | pack64le => exact CodecCondition.mem_causes h
  | addb | xorb => exact List.mem_cons.2 (h.imp And.left BufferCondition.mem_causes)
  | splitle | comble =>
    rcases h with h | ⟨rfl, -⟩
    · exact List.mem_append_left [.lenNotMultiple] (BufferCondition.mem_causes h)
    · simp [possibleCauses]
  | tblk | tblkmd | tblkbc => exact List.mem_pair.2 (h.imp And.left And.left)

/-! ### The fault that a command takes -/

theorem Operation.fault_eq {i : Instr} {s u : State} (h : Operation i s u) : u.fault = s.fault := by cases h <;> rfl
theorem Operation.faultpc_eq {i : Instr} {s u : State} (h : Operation i s u) : u.faultpc = s.faultpc := by
  cases h <;> rfl

theorem exec_of_lowest_condition {i : Instr} {s : State} {c : Cause} (hc : FaultCondition i s c)
    (hmin : ∀ d, FaultCondition i s d → c.code ≤ d.code) : exec i s = .next (takeFault c s) := by
  obtain ⟨t, ht⟩ := exec_has_next i s
  rcases exec_next ht with ⟨d, hd, hdmin, rfl⟩ | ⟨rfl, -⟩ | ⟨u, hno, -, -⟩
  · rwa [code_injective (Nat.le_antisymm (hmin d hd) (hdmin c hc))]
  · exact hc.elim
  · exact absurd hc (hno c)

/-! ### The transactions of a recovery (60_exceptions.md R258) -/

theorem hostTransaction_of_not_running {s : State} (hr : s.run ≠ .running) (x : HostTransaction) :
    hostTransaction x s = judged x s :=
  if_neg fun hheld => hr hheld.1

theorem clrFault_of_user {s : State} (hr : s.run = .faulted) (hclass : s.fault.toNat / 2 ^ 8 % 4 = 1) :
    hostTransaction .clrFault s = .accepted (clearFault s) .nothing := by
  rw [hostTransaction_of_not_running (by simp [hr])]
  exact if_pos ⟨hr, hclass⟩

theorem clrFault_refused {s : State} (hr : s.run ≠ .running)
    (h : ¬ (s.run = .faulted ∧ s.fault.toNat / 2 ^ 8 % 4 = 1)) :
    hostTransaction .clrFault s = .refused s .nothing := by
  rw [hostTransaction_of_not_running hr]
  exact if_neg h

theorem writeW_accepted {s : State} (hr : s.run ≠ .running) (i : WReg) (v : Word) :
    hostTransaction (.writeW i.val v) s = .accepted (setW i v s) .nothing := by
  rw [hostTransaction_of_not_running hr]
  exact dif_pos i.isLt

theorem start_accepted {s : State} (hr : s.run = .idle ∨ s.run = .halted) (entry : BitVec 16) :
    hostTransaction (.start entry.toNat) s = .accepted (startAt entry s) .nothing := by
  have hnot : s.run ≠ .running := by rcases hr with hr | hr <;> simp [hr]
  rw [hostTransaction_of_not_running hnot, judged, hostStart, if_pos ⟨hr, entry.isLt⟩, BitVec.ofNat_toNat,
    BitVec.setWidth_eq, acceptedAction]

/-- Clearing a fault and starting again at its `pc` is back in the state before it: fault entry overwrote no other
register than these two transactions write. -/
theorem startAt_setW_clearFault_takeFault {s : State} (hr : s.run = .running) (hfault : s.fault = 0#32)
    (hfaultpc : s.faultpc = 0#32) (c : Cause) (i : WReg) (v : Word) :
    startAt s.pc (setW i v (clearFault (takeFault c s))) = { s with w := s.w.set i.val v i.isLt } := by
  cases s
  subst hr hfault hfaultpc
  rfl

/-! ### The statements -/

/-- Settles O17: the codes are distinct, so the fault with the lowest code is the one of the cause given. -/
theorem lowestCauseIsRaised : Obligations.LowestCauseIsRaised := by
  refine fun i s => ⟨fun c => exec_of_lowest_condition, fun hno => ?_⟩
  obtain ⟨t, ht⟩ := exec_has_next i s
  refine ⟨t, ht, ?_⟩
  rcases exec_next ht with ⟨c, hc, -, -⟩ | ⟨hi, rfl⟩ | ⟨u, -, hu, rfl⟩
  · exact absurd hc (hno c)
  · exact ⟨rfl, rfl, .inr hi⟩
  · exact ⟨hu.fault_eq, hu.faultpc_eq, .inl hu.run_eq⟩

/-- Settles O18: a command that halts or completes does not end FAULTED. -/
theorem faultsArePrecise : Obligations.FaultsArePrecise := by
  intro s t hr h ht
  rcases step_cases hr h with ⟨hx, rfl⟩ | ⟨x, e, hx, hd, rfl⟩ | ⟨x, i, hx, hd, he⟩
  · exact ⟨_, rfl, .inl ⟨rfl, fetch_eq_none_iff.1 hx⟩⟩
  · exact ⟨_, rfl, .inr (.inl ⟨rfl, x, hx, fun i => by simp [hd]⟩)⟩
  · rcases exec_next he with ⟨c, hc, -, rfl⟩ | ⟨-, rfl⟩ | ⟨u, -, hu, rfl⟩
    · exact ⟨c, rfl, .inr (.inr ⟨x, i, hx, hd, FaultCondition.mem_possibleCauses hc⟩)⟩
    · nomatch ht
    · rw [advance_run, hu.run_eq, hr] at ht
      nomatch ht

/-- Settles O23: the bad size is the one condition that holds, its class is USER, and the three transactions take back
what fault entry wrote. -/
theorem badBlockSizeIsRecoverable : Obligations.BadBlockSizeIsRecoverable := by
  intro s rx bs rt v hr hfault hfaultpc hrange hsize
  have hmin : ∀ d, FaultCondition (.tblkbc rx bs rt) s d → Cause.badBlockSize.code ≤ d.code := by
    rintro d (⟨-, hout⟩ | ⟨rfl, -⟩)
    · exact absurd hout hrange
    · exact Nat.le_refl _
  have hpc : (takeFault .badBlockSize s).faultpc.toNat = s.pc.toNat :=
    BitVec.toNat_setWidth_of_le (by decide)
  have hclass : (takeFault .badBlockSize s).fault.toNat / 2 ^ 8 % 4 = 1 := by
    rw [takeFault_fault]
    rfl
  have hidle : (clearFault (takeFault .badBlockSize s)).run ≠ .running := nofun
  refine ⟨_, _, _, exec_of_lowest_condition (.inr ⟨rfl, hsize⟩) hmin, rfl, hpc, clrFault_of_user rfl hclass,
    writeW_accepted hidle rt v, ?_⟩
  rw [hpc, start_accepted (.inl rfl), startAt_setW_clearFault_takeFault hr hfault hfaultpc]

/-- Settles O16: the class and code numbers of each cause are those of the table. -/
theorem faultEntry : Obligations.FaultEntry := fun s =>
  ⟨fun _ => step_of_not_running nofun, takeFault_eq_afterFault .pcRange s, takeFault_eq_afterFault .illegalInstruction s,
    takeFault_eq_afterFault .csrIllegal s, takeFault_eq_afterFault .tooFewTerms s, takeFault_eq_afterFault .bufRange s,
    takeFault_eq_afterFault .lenMismatch s, takeFault_eq_afterFault .bufOverlap s,
    takeFault_eq_afterFault .lenNotMultiple s, takeFault_eq_afterFault .regRange s,
    takeFault_eq_afterFault .rot48Range s, takeFault_eq_afterFault .padInconsistent s,
    takeFault_eq_afterFault .badBlockSize s⟩

/-- Settles O19. -/
theorem clearFaultRule : Obligations.ClearFaultRule := fun _ hr =>
  ⟨fun ⟨hfaulted, hclass⟩ => clrFault_of_user hfaulted hclass, clrFault_refused hr⟩

end Sys2Proof.Proofs
end

section
/-! The statements about the host interface, reset and the step (70_reset_and_hazards.md R281 to R290). `HostEffect` is
what a transaction that is not held may make of the state, and `hostTransaction_effect` says that every one has such an
effect. A reset inside a command leaves the memory that an `Operation` of the command leaves. -/

namespace Sys2Proof.Proofs

open Sys2Proof Sys2Proof.Machine Sys2Proof.Laws

/-! ### What a host transaction can do (70_reset_and_hazards.md R283) -/

/-- What host transaction `x` may make of state `s` when it is accepted or refused. -/
inductive HostEffect (x : HostTransaction) (s : State) : State → Prop
  | unchanged : HostEffect x s s
  /-- A refused read draws the free value it returns (log 6). -/
  | drawn : HostEffect x s (draw s)
  | reset (hx : x = .reset) : HostEffect x s (softReset s)
  | padcfg (v : Word32) : HostEffect x s (setPadcfg v s)
  | command {i : Nat} (v : Word32) (hi : i < s.params.csWords) : HostEffect x s (writeCommand i v s)
  | byte {a : Nat} (v : Byte) (ha : a < s.params.memBytes) : HostEffect x s (withMem (storeAt s.mem a v) s)
  | word (i : WReg) (v : Word) : HostEffect x s (setW i v s)
  | descriptor (i : BReg) (d : Descriptor) : HostEffect x s (setB i d s)
  | started (entry : BitVec 16) (hr : s.run = .idle ∨ s.run = .halted) : HostEffect x s (startAt entry s)
  | cleared (hr : s.run = .faulted) (hclass : s.fault.toNat / 2 ^ 8 % 4 = 1) : HostEffect x s (clearFault s)

/-- How the unit may answer host transaction `x` in state `s`. -/
inductive HostAnswers (x : HostTransaction) (s : State) : HostReply → Prop
  | accepted {t : State} (d : HostData) (h : HostEffect x s t) : HostAnswers x s (.accepted t d)
  | refused {t : State} (d : HostData) (h : HostEffect x s t) : HostAnswers x s (.refused t d)
  | held : HostAnswers x s .held

section Answers
variable {x : HostTransaction} {s : State}

theorem answers_refusedRead : HostAnswers x s (refusedRead s) := .refused _ .drawn

theorem answers_refusedAction : HostAnswers x s (refusedAction s) := .refused _ .unchanged

/-- A read that is accepted under a condition. -/
theorem answers_read {c : Prop} [Decidable c] (d : c → HostData) :
    HostAnswers x s (if h : c then .accepted s (d h) else refusedRead s) := by
  split
  · exact .accepted _ .unchanged
  · exact answers_refusedRead

/-- A write or an action that is accepted under a condition. -/
theorem answers_action {c : Prop} [Decidable c] {t : c → State} (ht : ∀ h, HostEffect x s (t h)) :
    HostAnswers x s (if h : c then acceptedAction (t h) else refusedAction s) := by
  split
  · exact .accepted _ (ht _)
  · exact answers_refusedAction

end Answers

theorem judged_answers (x : HostTransaction) (s : State) : HostAnswers x s (judged x s) := by
  cases x with
  | reset => exact .accepted _ (.reset rfl)
  | readCsr n =>
    rw [judged, hostReadCsr]
    split
    · exact .accepted _ .unchanged
    · exact answers_refusedRead
  | readCs | readM | readW | readB => exact answers_read _
  | writeCsr _ v => exact answers_action fun _ => .padcfg v
  | writeCs _ v => exact answers_action (.command v)
  | writeM _ v => exact answers_action (.byte v)
  | writeW i v => exact answers_action fun h => .word ⟨i, h⟩ v
  | writeB i d => exact answers_action fun h => .descriptor ⟨i, h⟩ d
  | start => exact answers_action fun h => .started _ h.1
  | clrFault => exact answers_action fun h => .cleared h.1 h.2

theorem hostTransaction_answers (x : HostTransaction) (s : State) : HostAnswers x s (hostTransaction x s) := by
  rw [hostTransaction]
  split
  · exact .held
  · exact judged_answers x s

/-- The state after an accepted or refused transaction. -/
theorem hostTransaction_effect {x : HostTransaction} {s t : State} {d : HostData}
    (h : hostTransaction x s = .accepted t d ∨ hostTransaction x s = .refused t d) : HostEffect x s t := by
  have ha := hostTransaction_answers x s
  rcases h with h | h
  all_goals
    rw [h] at ha
    cases ha
    assumption

/-! ### Reset (70_reset_and_hazards.md R281) -/

/-- The memory that a reset inside a command leaves is one that an operation of the command may leave. Everything else but
the draw counter is as after a soft reset. -/
theorem resetDuring_eq (i : Instr) (s : State) :
    ∃ m d, Operation i s (withMem m s) ∧ resetDuring i s = { softReset s with mem := m, draws := d } := by
  rw [resetDuring]
  cases hi : storeTarget i with
  | none => exact ⟨s.mem, s.draws, .refl i s, rfl⟩
  | some bd =>
    by_cases hin : inRange bd s = true
    · exact ⟨_, s.draws + 1, .buffer hi hin (by simp), if_pos hin⟩
    · exact ⟨s.mem, s.draws, .refl i s, if_neg hin⟩

section Consistent
variable {s : State} (hs : Consistent s)
include hs

/-- Reset keeps M and CS, and the rest is as at power-on. -/
theorem softReset_keeps_consistent : Consistent (softReset s) :=
  { powerOn_consistent hs.params_legal with
    mem_canonical := hs.mem_canonical
    mem_inside := hs.mem_inside
    cs_canonical := hs.cs_canonical
    cs_inside := hs.cs_inside }

theorem resetDuring_keeps_consistent (i : Instr) : Consistent (resetDuring i s) := by
  obtain ⟨m, d, hm, heq⟩ := resetDuring_eq i s
  rw [heq]
  exact { softReset_keeps_consistent (hm.keeps_consistent hs) with }

theorem HostEffect.keeps_consistent {x : HostTransaction} {t : State} (h : HostEffect x s t) : Consistent t := by
  cases h with
  | unchanged | drawn | word | descriptor => exact { hs with }
  | reset => exact softReset_keeps_consistent hs
  | padcfg v => exact { hs with padcfg_reserved := padcfgStored_reserved v }
  | command v hi =>
    exact { hs with
      cs_canonical := storeAt_wf _ v hs.cs_canonical
      cs_inside := storeAt_inside _ v hi hs.cs_inside }
  | byte v ha =>
    exact { hs with
      mem_canonical := storeAt_wf _ v hs.mem_canonical
      mem_inside := storeAt_inside _ v ha hs.mem_inside }
  | started _ hr =>
    have hnf : s.run ≠ .faulted := by rcases hr with hr | hr <;> simp [hr]
    exact { hs with
      fault_recorded := nofun
      no_fault_recorded := fun _ => hs.no_fault_recorded hnf }
  | cleared =>
    exact { hs with
      fault_recorded := nofun
      no_fault_recorded := fun _ => ⟨rfl, rfl⟩ }

end Consistent

/-- H_RESET alone takes a unit out of a USAGE fault (60_exceptions.md R259). -/
theorem HostEffect.keeps_usage_fault {x : HostTransaction} {s t : State} (h : HostEffect x s t)
    (hr : s.run = .faulted) (hclass : s.fault.toNat / 2 ^ 8 % 4 = 2) (hx : x ≠ .reset) :
    t.run = .faulted ∧ t.fault = s.fault ∧ t.faultpc = s.faultpc := by
  cases h with
  | reset h => exact absurd h hx
  | started _ hrun => simp [hr] at hrun
  | cleared _ huser => exact absurd (hclass.symm.trans huser) (by decide)
  | unchanged | drawn | padcfg | command | byte | word | descriptor => exact ⟨hr, rfl, rfl⟩

/-! ### Which transactions are held (20_memory.md R63) -/

theorem hostTransaction_held {s : State} {x : HostTransaction} (hr : s.run = .running)
    (hx : completesWhileRunning x = false) : hostTransaction x s = .held :=
  if_pos ⟨hr, hx⟩

/-- H_RESET and CSR reads are judged in every run state. -/
theorem hostTransaction_of_completes {x : HostTransaction} (hx : completesWhileRunning x = true) (s : State) :
    hostTransaction x s = judged x s :=
  if_neg fun hheld => by simp [hx] at hheld

theorem readCsr_accepted {n : Nat} {v : Word32} {s : State} (h : csrValue n s = some v) :
    hostTransaction (.readCsr n) s = .accepted s (.csr v) := by
  rw [hostTransaction_of_completes rfl, judged, hostReadCsr, h]

theorem readCsr_refused {n : Nat} {s : State} (h : 0x005 < n) : hostTransaction (.readCsr n) s = refusedRead s := by
  rw [hostTransaction_of_completes rfl, judged, hostReadCsr, csrValue_eq_none_iff.2 h]

/-! ### Reads and writes of a unit that is not RUNNING (70_reset_and_hazards.md R283) -/

section NotRunning
variable {s : State} (hr : s.run ≠ .running)
include hr

theorem readM_accepted {a : Nat} (ha : a < s.params.memBytes) :
    hostTransaction (.readM a) s = .accepted s (.byte (readByte s.mem a)) :=
  (hostTransaction_of_not_running hr _).trans (if_pos ha)

theorem readM_refused {a : Nat} (ha : s.params.memBytes ≤ a) : hostTransaction (.readM a) s = refusedRead s :=
  (hostTransaction_of_not_running hr _).trans (if_neg ha.not_gt)

theorem writeM_accepted {a : Nat} (ha : a < s.params.memBytes) (v : Byte) :
    hostTransaction (.writeM a v) s = .accepted (withMem (storeAt s.mem a v) s) .nothing :=
  (hostTransaction_of_not_running hr _).trans (if_pos ha)

theorem writeM_refused {a : Nat} (ha : s.params.memBytes ≤ a) (v : Byte) :
    hostTransaction (.writeM a v) s = .refused s .nothing :=
  (hostTransaction_of_not_running hr _).trans (if_neg ha.not_gt)

theorem readCs_accepted {i : Nat} (hi : i < s.params.csWords) :
    hostTransaction (.readCs i) s = .accepted s (.command (readCommand s.cs i)) :=
  (hostTransaction_of_not_running hr _).trans (if_pos hi)

theorem readCs_refused {i : Nat} (hi : s.params.csWords ≤ i) : hostTransaction (.readCs i) s = refusedRead s :=
  (hostTransaction_of_not_running hr _).trans (if_neg hi.not_gt)

theorem writeCs_accepted {i : Nat} (hi : i < s.params.csWords) (x : Word32) :
    hostTransaction (.writeCs i x) s = .accepted (writeCommand i x s) .nothing :=
  (hostTransaction_of_not_running hr _).trans (if_pos hi)

theorem writeCs_refused {i : Nat} (hi : s.params.csWords ≤ i) (x : Word32) :
    hostTransaction (.writeCs i x) s = .refused s .nothing :=
  (hostTransaction_of_not_running hr _).trans (if_neg hi.not_gt)

theorem readW_accepted (i : WReg) : hostTransaction (.readW i.val) s = .accepted s (.word (wreg i s)) :=
  (hostTransaction_of_not_running hr _).trans (dif_pos i.isLt)

theorem readW_refused {i : Nat} (hi : 16 ≤ i) : hostTransaction (.readW i) s = refusedRead s :=
  (hostTransaction_of_not_running hr _).trans (dif_neg hi.not_gt)

theorem writeW_refused {i : Nat} (hi : 16 ≤ i) (v : Word) : hostTransaction (.writeW i v) s = .refused s .nothing :=
  (hostTransaction_of_not_running hr _).trans (dif_neg hi.not_gt)

theorem readB_accepted (i : BReg) : hostTransaction (.readB i.val) s = .accepted s (.descriptor s.b[i]) :=
  (hostTransaction_of_not_running hr _).trans (dif_pos i.isLt)

theorem readB_refused {i : Nat} (hi : 16 ≤ i) : hostTransaction (.readB i) s = refusedRead s :=
  (hostTransaction_of_not_running hr _).trans (dif_neg hi.not_gt)

theorem writeB_accepted (i : BReg) (d : Descriptor) :
    hostTransaction (.writeB i.val d) s = .accepted (setB i d s) .nothing :=
  (hostTransaction_of_not_running hr _).trans (dif_pos i.isLt)

theorem writeB_refused {i : Nat} (hi : 16 ≤ i) (d : Descriptor) :
    hostTransaction (.writeB i d) s = .refused s .nothing :=
  (hostTransaction_of_not_running hr _).trans (dif_neg hi.not_gt)

theorem writePadcfg_accepted (v : Word32) :
    hostTransaction (.writeCsr 0x003 v) s = .accepted (setPadcfg v s) .nothing :=
  hostTransaction_of_not_running hr _

theorem writeCsr_refused {n : Nat} (hn : n ≠ 0x003) (v : Word32) :
    hostTransaction (.writeCsr n v) s = .refused s .nothing :=
  (hostTransaction_of_not_running hr _).trans (if_neg hn)

end NotRunning

theorem start_refused {s : State} (hr : s.run = .faulted) (entry : Nat) :
    hostTransaction (.start entry) s = .refused s .nothing := by
  rw [hostTransaction_of_not_running (by simp [hr])]
  exact if_neg fun h => by simp [hr] at h

/-! ### The command store -/

theorem readCommand_storeAt {cs : CommandStore} (h : Memory.wf cs) (i j : Nat) (x : Word32) :
    readCommand (storeAt cs i x) j = if i = j then x else readCommand cs j := by
  simp only [readCommand, lookupAt_storeAt cs i j x h]
  split <;> rfl

theorem fetch_of_lt {s : State} (h : s.pc.toNat < s.params.csWords) : fetch s = some (readCommand s.cs s.pc.toNat) :=
  if_pos h

/-! ### The statements -/

/-- Settles O4, over the effects of a transaction and the operation that a reset breaks off. -/
theorem hostKeepsConsistent : Obligations.HostKeepsConsistent :=
  ⟨fun _ _ _ _ hs h => (hostTransaction_effect h).keeps_consistent hs, fun i _ hs => resetDuring_keeps_consistent hs i⟩

/-- Settles O5. -/
theorem everyStepHasNextState : Obligations.EveryStepHasNextState := ⟨exec_has_next, step_safe⟩

/-- Settles O21: no effect but a reset ends a USAGE fault, and a refused read only counts the value it draws. -/
theorem hostExclusion : Obligations.HostExclusion := by
  refine fun s => ⟨hostTransaction_of_completes rfl s, fun n hn => ?csrRead, fun hr => ?running,
    fun hr hclass => ⟨rfl, rfl, fun x t d hx h => (hostTransaction_effect h).keeps_usage_fault hr hclass hx⟩,
    fun n hn => ⟨_, _, readCsr_refused hn⟩,
    fun hr => ⟨fun a ha => ⟨_, _, readM_refused hr ha⟩, fun i hi => ⟨_, _, readCs_refused hr hi⟩,
      fun i hi => ⟨_, _, readW_refused hr hi⟩, fun i hi => ⟨_, _, readB_refused hr hi⟩⟩⟩
  case csrRead =>
    have hassigned : csrValue n s ≠ none := fun hnone => hn.not_gt (csrValue_eq_none_iff.1 hnone)
    obtain ⟨v, hv⟩ := Option.ne_none_iff_exists'.1 hassigned
    exact ⟨v, hv, readCsr_accepted hv⟩
  case running =>
    have held {x : HostTransaction} := hostTransaction_held (x := x) hr
    exact ⟨fun _ _ => held rfl, fun _ => held rfl, fun _ _ => held rfl, fun _ => held rfl, fun _ _ => held rfl,
      fun _ => held rfl, fun _ _ => held rfl, fun _ => held rfl, fun _ _ => held rfl, fun _ => held rfl, held rfl⟩

/-- Settles O22: each write is read back through the read-after-write rule of its field. -/
theorem hostReadsWhatItWrote : Obligations.HostReadsWhatItWrote := by
  refine fun s hs hr =>
    ⟨fun a v ha => ⟨_, writeM_accepted hr ha v, fun c hc => ?byte⟩, fun _ v ha => writeM_refused hr ha v,
      fun i x hi => ⟨_, writeCs_accepted hr hi x, fun j hj => ?command⟩, fun _ x hi => writeCs_refused hr hi x,
      fun i v => ⟨_, rfl, writeW_accepted hr i v, fun j => ?word⟩, fun _ v hi => writeW_refused hr hi v,
      fun i d => ⟨_, rfl, writeB_accepted hr i d, fun j => ?descriptor⟩, fun _ d hi => writeB_refused hr hi d,
      fun v => ⟨_, rfl, writePadcfg_accepted hr v, readCsr_accepted rfl⟩, fun _ v hn => writeCsr_refused hr hn v⟩
  case byte =>
    rw [if_congr (eq_comm (a := c)) rfl rfl, ← readByte_storeAt s.mem a c v hs.mem_canonical]
    exact readM_accepted (s := withMem (storeAt s.mem a v) s) hr hc
  case command =>
    rw [if_congr (eq_comm (a := j)) rfl rfl, ← readCommand_storeAt hs.cs_canonical i j x]
    exact readCs_accepted (s := writeCommand i x s) hr hj
  case word =>
    rw [if_congr (eq_comm (a := j)) rfl rfl, ← wreg_setW]
    exact readW_accepted (s := setW i v s) hr j
  case descriptor =>
    rw [if_congr (eq_comm (a := j)) rfl rfl, ← b_setB]
    exact readB_accepted (s := setB i d s) hr j

/-- Settles O24: an operation of the command leaves the bytes outside its destination buffer alone. -/
theorem resetInsideCommand : Obligations.ResetInsideCommand := by
  intro i s hwf
  obtain ⟨m, d, hm, heq⟩ := resetDuring_eq i s
  rw [heq]
  exact ⟨⟨m, d, rfl⟩, fun a => hm.readByte_eq hwf⟩

/-- Settles O11. -/
theorem stepRunsDecodedCommand : Obligations.StepRunsDecodedCommand := by
  intro s i hr hpc hd
  rw [step_of_running hr, stepRunning, fetch_of_lt hpc]
  simp only [hd]

/-- Settles O20: an entry outside CS meets PC_RANGE at the first fetch. -/
theorem startRule : Obligations.StartRule := by
  refine fun s entry => ⟨fun hr => ⟨start_accepted hr entry, fun hentry => ?_⟩, fun hr => start_refused hr _,
    fun hr => hostTransaction_held hr rfl⟩
  obtain ⟨pcRange, -⟩ := programCounterRule
  refine ⟨_, pcRange _ rfl hentry, rfl, rfl, ?_⟩
  exact Nat.mod_eq_of_lt (by omega)

end Sys2Proof.Proofs
end
